-- ==== Sys2Proof/Word.lean ====
section
/-! DEFINITION. The words of the HCE: what its port moves, what its tables are indexed by. -/

namespace Sys2Proof

/-- What one transaction moves: 32 bits, never fewer (20_memory.md R70). -/
abbrev Word := BitVec 32

/-- A symbol byte, a payload byte, or one byte of the artifact. -/
abbrev Byte := BitVec 8

/-- A byte offset at the port, 0x0000 to 0x1FFF (20_memory.md R70). -/
abbrev Offset := BitVec 13

/-- off[12:2], the word offset, which is all the block decodes (20_memory.md R70, R79). -/
abbrev WordIndex := BitVec 11

/-- A symbol index, 0 to 64 (30_encoding.md R103). -/
abbrev Symbol := Fin 65

/-- A slot of the arena: 0 to 64 the leaves, 65 to 127 internal nodes, 128 the root (10_state.md R40). -/
abbrev Slot := Fin 129

end Sys2Proof
end

