-- ==== Sys2Proof/Config.lean ====
section
/-! DEFINITION. The constants of rule R8 of 00_scope.md, and the one parameter the spec leaves to the platform. -/

namespace Sys2Proof

/-- ID reads this in every mode (10_state.md R21). -/
def Config.idValue : Word := 0x48554646

/-- OFIFO_DEPTH, entries of the output FIFO (00_scope.md R8). -/
def Config.ofifoDepth : Nat := 16

/-- How many entries must be free before an operation that can push (10_state.md R30). -/
def Config.inReadyThreshold : Nat := 8

/-- MAXCODELEN (00_scope.md R8). -/
def Config.maxCodeLen : Nat := 64

/-- NNODES, slots of the arena (00_scope.md R8). -/
def Config.nNodes : Nat := 129

/-- NMERGES, merge rounds of BUILD (00_scope.md R8). -/
def Config.nMerges : Nat := 64

/-- The NSYM limit, 2^32 - 1 symbols per count (00_scope.md R8). -/
def Config.nsymLimit : Nat := 2 ^ 32 - 1

/-- RECORD_SIZE, bytes of one codebook record (00_scope.md R8, 30_encoding.md R108). -/
def Config.recordSize : Nat := 10

/-- CBUF_SIZE, one header byte and 65 records (00_scope.md R8). -/
def Config.cbufSize : Nat := 651

/-- HCE_BASE, where the platform puts the HCE's 8 KiB (20_memory.md R76, U33). No value is given to it: the port
sees offsets only, so no step depends on it. DESIGN CHOICE, log 9, safe. -/
opaque Config.hceBase : Nat

/-- The host address of an offset; every offset of the spec is relative to HCE_BASE (20_memory.md R76). -/
def Config.hostAddress (off : Offset) : Nat := Config.hceBase + off.toNat

end Sys2Proof
end

