-- ==== Sys2Proof/Syntax.lean ====
section
/-! DEFINITION. What the host can do to the block: the transactions of the port, the operations they stand for
(one constructor per row of opcode_table.json), and the events of the port's reset line. -/

namespace Sys2Proof

/-- The operating mode (10_state.md R24). The values 4, 5 and 6 are never held, so they have no constructor. -/
inductive Mode
  | idle
  | count
  | pack
  | unpack
  | error
  deriving DecidableEq, Repr

/-- A register RDREG reads: those of 20_memory.md R71 but CMD, DIN and DOUT, and the weight window of R72. -/
inductive Reg
  | id
  | status
  | err
  | pad
  | nsym
  | tbitsLo
  | tbitsHi
  | bitcntLo
  | bitcntHi
  | dincnt
  | ocnt
  | pnsym
  | dbg
  | weight (s : Nat)
  deriving DecidableEq, Repr

/-- One bus transaction (20_memory.md R70). Its encoding is this triple of direction, offset and value
(30_encoding.md R124). -/
inductive Transaction
  | read (off : Offset)
  | write (off : Offset) (v : Word)
  deriving DecidableEq, Repr

/-- What the outside presents to the block: a transaction at the port, or an edge of rst_n (92_eei_decisions.md D3;
70_reset_and_hazards.md R330). -/
inductive Event
  | bus (t : Transaction)
  | resetFall
  | resetRise
  deriving DecidableEq, Repr

/-- The operations of the HCE: the commands of 30_encoding.md R101, then the register accesses of R102. -/
inductive Instr
  /-- NOP, 45_control.md R250. -/
  | nop
  /-- SRST, 45_control.md R251. -/
  | srst
  /-- CNT_BEGIN, 40_frequency_counter.md R140. -/
  | cntBegin
  /-- CNT_END, 40_frequency_counter.md R145. -/
  | cntEnd
  /-- BUILD, 41_tree_builder.md R160. -/
  | build
  /-- TEARDOWN, 45_control.md R252. -/
  | teardown
  /-- GENCODE, 42_code_generator.md R180. -/
  | gencode
  /-- PACK_BEGIN, 43_pack.md R200. -/
  | packBegin
  /-- PACK_END, 43_pack.md R206. -/
  | packEnd
  /-- LOAD, 44_unpack.md R220. -/
  | load
  /-- UNPACK_BEGIN, 44_unpack.md R225. -/
  | unpackBegin
  /-- UNPACK_END, 44_unpack.md R230. -/
  | unpackEnd
  /-- CNT_PUT of the DIN value v, 40_frequency_counter.md R142. -/
  | cntPut (v : Word)
  /-- PACK_PUT of the DIN value v, 43_pack.md R203. -/
  | packPut (v : Word)
  /-- UNPACK_PUT of the DIN value v, 44_unpack.md R226. -/
  | unpackPut (v : Word)
  /-- PUT_IDLE of the DIN value v, 46_bus_access.md R267. -/
  | putIdle (v : Word)
  /-- PUT_ERR of the DIN value v, 46_bus_access.md R267. -/
  | putErr (v : Word)
  /-- GET, 46_bus_access.md R268. -/
  | get
  /-- RDREG of a register or a weight, 46_bus_access.md R266. -/
  | rdreg (r : Reg)
  /-- CBRD of byte i of CBUF, 46_bus_access.md R270. -/
  | cbrd (i : Nat)
  /-- CBWR of v to byte i of CBUF, 46_bus_access.md R271. -/
  | cbwr (i : Nat) (v : Word)
  /-- WRIGN, a write of v to the word offset a that has no effect, 46_bus_access.md R272. -/
  | wrign (a : WordIndex) (v : Word)
  /-- RDZERO, a read of the word offset a where there is nothing to read, 46_bus_access.md R273. -/
  | rdzero (a : WordIndex)
  deriving DecidableEq, Repr

end Sys2Proof
end

