-- ==== Sys2Proof/Machine/State.lean ====
section
/-! DEFINITION. The state of the HCE (10_state.md R63), with the port around it, and the state after reset (R62). -/

namespace Sys2Proof.Machine

/-- One slot of the arena (10_state.md R41). NONE is `none`, a tagged absence. -/
structure Node where
  /-- NW, weight. -/
  nw : BitVec 32
  /-- NL, left child. -/
  nl : Option Slot
  /-- NR, right child. -/
  nr : Option Slot
  /-- NP, parent. -/
  np : Option Slot
  /-- NS, side: true is 1, the right child. -/
  ns : Bool
  deriving DecidableEq, Repr

/-- The cleared slot of 10_state.md R42. -/
def Node.cleared : Node where
  nw := 0
  nl := none
  nr := none
  np := none
  ns := false

/-- The node store: 129 slots (10_state.md R40). -/
abbrev Arena := Vector Node 129

/-- A code as length and value (30_encoding.md R106, 10_state.md R50). -/
structure Code where
  len : BitVec 7
  val : BitVec 64
  deriving DecidableEq, Repr

/-- CB: one code per symbol index (10_state.md R50). -/
abbrev Codebook := Vector Code 65

/-- W: one count per symbol index (10_state.md R45). -/
abbrev Weights := Vector (BitVec 32) 65

/-- CBUF's bytes by index, in one canonical form (Ops.lean, Memory.wf). Log 8. -/
abbrev Memory := List Host.Cell

/-- The state between bus transactions: the 24 pieces of 10_state.md R63, and the port. -/
structure State where
  /-- MODE (10_state.md R24). -/
  mode : Mode
  /-- WV, weight table valid (10_state.md R25). -/
  wv : Bool
  /-- TV, tree valid (10_state.md R26). -/
  tv : Bool
  /-- CV, codebook valid (10_state.md R27). -/
  cv : Bool
  /-- CE, codebook from encode (10_state.md R28). -/
  ce : Bool
  /-- ERR: CODE [7:0], SUB [15:8], ARG [31:16] (10_state.md R31). -/
  err : BitVec 32
  /-- PAD (10_state.md R34). -/
  pad : BitVec 3
  /-- NSYM (10_state.md R35). -/
  nsym : BitVec 32
  /-- TOTALBITS (10_state.md R36). -/
  totalbits : BitVec 38
  /-- BITCNT (10_state.md R37). -/
  bitcnt : BitVec 64
  /-- DINCNT (10_state.md R38). -/
  dincnt : BitVec 32
  /-- PNSYM (10_state.md R39). -/
  pnsym : BitVec 32
  /-- OCNT (10_state.md R60). -/
  ocnt : BitVec 32
  /-- W (10_state.md R45). -/
  w : Weights
  /-- The arena (10_state.md R40). -/
  arena : Arena
  /-- CB (10_state.md R50). -/
  cb : Codebook
  /-- CBUF (10_state.md R55). -/
  cbuf : Memory
  /-- OFIFO, head first (10_state.md R56). -/
  ofifo : List Byte
  /-- ACC (10_state.md R57). -/
  acc : BitVec 8
  /-- ACCN (10_state.md R57). -/
  accn : BitVec 4
  /-- PEND (10_state.md R58). -/
  pend : BitVec 8
  /-- PENDV (10_state.md R58). -/
  pendv : Bool
  /-- CUR_LEN (10_state.md R59). -/
  curLen : BitVec 7
  /-- CUR_VAL (10_state.md R59). -/
  curVal : BitVec 64
  /-- The level of the input rst_n; the model's own field. DESIGN CHOICE, log 3. -/
  rstN : Bool
  /-- What the outside has presented and the block has not taken, oldest first (20_memory.md R83); the model's own
  field. DESIGN CHOICE, log 1. -/
  pending : List Event
  /-- The values reads have returned, oldest first (00_scope.md R10); the model's own field. DESIGN CHOICE, log 2. -/
  returned : List Word
  deriving DecidableEq, Repr

/-- Why the machine could stop with a fault. The HCE has no such stop: every error is an error entry, a next state
(60_exceptions.md R299), and no bus error exists (20_memory.md R74). So there is no constructor. Log 15. -/
inductive Fault
  deriving DecidableEq, Repr

/-- Why an operation could have no meaning. -/
inductive Refusal
  /-- Raised by `exec` for an operation not modelled yet; no arm raises it. Safe. -/
  | notModelled (mnemonic : String)
  deriving DecidableEq, Repr

/-- What running an operation answers. -/
abbrev Result := Host.Outcome State Fault Refusal

/-- The state right after reset (10_state.md R62, 70_reset_and_hazards.md R330); the port's three fields are the
model's (log 16). -/
def State.reset : State where
  mode := .idle
  wv := false
  tv := false
  cv := false
  ce := false
  err := 0
  pad := 0
  nsym := 0
  totalbits := 0
  bitcnt := 0
  dincnt := 0
  pnsym := 0
  ocnt := 0
  w := Vector.replicate 65 0
  arena := Vector.replicate 129 Node.cleared
  cb := Vector.replicate 65 ⟨0, 0⟩
  cbuf := []
  ofifo := []
  acc := 0
  accn := 0
  pend := 0
  pendv := false
  curLen := 0
  curVal := 0
  rstN := true
  pending := []
  returned := []

end Sys2Proof.Machine
end

