-- ==== Sys2Proof/Machine/Flags.lean ====
section
/-! DEFINITION. What STATUS, ERR, DBG and DOUT show: values computed from the state at the read. -/

namespace Sys2Proof.Machine

/-- A one-bit field at bit 0 of a word. -/
def flagWord (b : Bool) : Word := (BitVec.ofBool b).setWidth 32

/-- MODE's value (10_state.md R24). -/
def modeBits : Mode → Word
  | .idle => 0
  | .count => 1
  | .pack => 2
  | .unpack => 3
  | .error => 7

/-- free(), the OFIFO entries that are free (00_scope.md R14). Above 16 entries, which no reachable state has, it is 0
(log 12). -/
def State.free (s : State) : Nat := Config.ofifoDepth - s.ofifo.length

/-- IN_READY (10_state.md R30). -/
def State.inReady (s : State) : Bool := Config.inReadyThreshold ≤ s.free

/-- OUT_AVAIL (10_state.md R23). -/
def State.outAvail (s : State) : Bool := 0 < s.ofifo.length

/-- ERRF (10_state.md R23). -/
def State.errF (s : State) : Bool := s.mode == .error

/-- STATUS (10_state.md R23, 46_bus_access.md R266). -/
def State.statusWord (s : State) : Word :=
  modeBits s.mode ||| flagWord s.wv <<< 3 ||| flagWord s.tv <<< 4 ||| flagWord s.cv <<< 5 ||| flagWord s.ce <<< 6
    ||| flagWord s.errF <<< 7 ||| flagWord s.inReady <<< 8 ||| flagWord s.outAvail <<< 9
    ||| BitVec.ofNat 32 s.ofifo.length <<< 16

/-- DBG (10_state.md R61, 46_bus_access.md R266). -/
def State.dbgWord (s : State) : Word :=
  s.curLen.setWidth 32 ||| s.accn.setWidth 32 <<< 8 ||| flagWord s.pendv <<< 11 ||| s.acc.setWidth 32 <<< 16
    ||| s.pend.setWidth 32 <<< 24

/-- ERR's layout: CODE, SUB << 8, ARG << 16 (10_state.md R31). -/
def errWord (code sub : BitVec 8) (arg : BitVec 16) : Word :=
  code.setWidth 32 ||| sub.setWidth 32 <<< 8 ||| arg.setWidth 32 <<< 16

/-- DOUT's layout for a popped byte: DATA and VALID (30_encoding.md R105). -/
def doutWord (b : Byte) : Word := 0x00000100 ||| b.setWidth 32

end Sys2Proof.Machine
end

