-- ==== Sys2Proof/Machine/Operands.lean ====
section
/-! DEFINITION. The operands and formats of the operations: symbol bytes (30_encoding.md R103), codes (R106) and the
artifact's header and records (R107 to R109). -/

namespace Sys2Proof.Machine

/-- DIN[7:0] or a CBUF write's v[7:0]; bits [31:8] are ignored (30_encoding.md R104, 20_memory.md R73). -/
def lowByte (v : Word) : Byte := v.extractLsb' 0 8

/-- The index of a symbol byte; `none` is INVALID (30_encoding.md R103). -/
def idx (c : Byte) : Option Symbol :=
  let n := c.toNat
  if 0x41 ≤ n ∧ n ≤ 0x5A then some (Fin.ofNat 65 (n - 0x41))
  else if 0x61 ≤ n ∧ n ≤ 0x7A then some (Fin.ofNat 65 (n - 0x61 + 26))
  else if 0x30 ≤ n ∧ n ≤ 0x39 then some (Fin.ofNat 65 (n - 0x30 + 52))
  else if n = 0x2B then some 62
  else if n = 0x2F then some 63
  else if n = 0x3D then some 64
  else none

/-- The byte of a symbol index (30_encoding.md R103's table). -/
def chr (s : Symbol) : Byte :=
  let k := s.val
  if k < 26 then BitVec.ofNat 8 (0x41 + k)
  else if k < 52 then BitVec.ofNat 8 (0x61 + (k - 26))
  else if k < 62 then BitVec.ofNat 8 (0x30 + (k - 52))
  else if k = 62 then 0x2B
  else if k = 63 then 0x2F
  else 0x3D

/-- The symbols in index order, 0 to 64. -/
def symbols : List Symbol := List.finRange 65

/-- The value of a code's bits, first bit first: the sum of b_i * 2^(L - i) (30_encoding.md R106). -/
def bitsValue : List Bool → Nat
  | [] => 0
  | b :: bs => b.toNat * 2 ^ bs.length + bitsValue bs

/-- The bits of a code, first bit first: V[L-1] down to V[0] (30_encoding.md R106). -/
def Code.bits (c : Code) : List Bool :=
  (List.range c.len.toNat).map fun i => c.val.getLsbD (c.len.toNat - 1 - i)

/-- The first n bits of a byte, most significant first (44_unpack.md R229). -/
def firstBits (b : Byte) (n : Nat) : List Bool :=
  (List.range n).map fun i => b.getLsbD (7 - i)

/-- Where record k begins in CBUF: its SYM byte (30_encoding.md R108). -/
def recordBase (k : Symbol) : Nat := 1 + Config.recordSize * k.val

/-- The ten bytes of record k: SYM, LEN, then V most significant byte first (30_encoding.md R108). -/
def recordBytes (k : Symbol) (c : Code) : List Byte :=
  chr k :: c.len.setWidth 8 :: (List.range 8).map fun j => c.val.extractLsb' (56 - 8 * j) 8

/-- The 651 bytes of header and records (30_encoding.md R107, R108, R109). -/
def codebookBytes (pad : BitVec 3) (cb : Codebook) : List Byte :=
  pad.setWidth 8 :: symbols.flatMap fun k => recordBytes k cb[k]

end Sys2Proof.Machine
end

