-- ==== Sys2Proof/Machine/Ops.lean ====
section
/-! DEFINITION. The operations every meaning is written over: CBUF's bytes, error entry, the checks before it, OFIFO,
the values reads return, and the reset of the block's state. -/

namespace Sys2Proof.Machine

/-- What a CBUF byte that is not listed reads as: its reset value (10_state.md R55). Log 8. -/
def Memory.unlisted : Byte := 0

/-- Addresses strictly rise, and no listed byte is what an unlisted one reads as. -/
def Memory.wf : Memory → Bool
  | [] => true
  | [(_, x)] => x != Memory.unlisted
  | (a, x) :: (b, y) :: m => x != Memory.unlisted && a < b && Memory.wf ((b, y) :: m)

/-- The byte at index a. -/
def Memory.read : Memory → Nat → Byte
  | [], _ => Memory.unlisted
  | (b, x) :: m, a => if b = a then x else Memory.read m a

/-- The memory with byte v at index a, in canonical form again. -/
def Memory.write : Memory → Nat → Byte → Memory
  | [], a, v => if v = Memory.unlisted then [] else [(a, v)]
  | (b, x) :: m, a, v =>
    if a < b then (if v = Memory.unlisted then (b, x) :: m else (a, v) :: (b, x) :: m)
    else if a = b then (if v = Memory.unlisted then m else (a, v) :: m)
    else (b, x) :: Memory.write m a v

/-- Bytes written one after another from index a on. -/
def Memory.writeFrom : Nat → List Byte → Memory → Memory
  | _, [], m => m
  | a, v :: vs, m => Memory.writeFrom (a + 1) vs (Memory.write m a v)

/-- An error the HCE can raise: CODE, SUB and ARG (60_exceptions.md R290). -/
structure HceError where
  code : BitVec 8
  sub : BitVec 8
  arg : BitVec 16
  deriving DecidableEq, Repr

/-- E_BADCMD, ARG the opcode (60_exceptions.md R291). -/
def eBadCmd (sub : BitVec 8) (op : Byte) : HceError := ⟨0x01, sub, op.setWidth 16⟩

/-- E_SEQ, ARG the opcode or 0x0100 (60_exceptions.md R292). -/
def eSeq (sub : BitVec 8) (arg : BitVec 16) : HceError := ⟨0x02, sub, arg⟩

/-- E_BADSYM, ARG the byte (60_exceptions.md R293). -/
def eBadSym (c : Byte) : HceError := ⟨0x03, 0, c.setWidth 16⟩

/-- E_OVERFLOW, ARG the symbol index (60_exceptions.md R294). -/
def eOverflow (k : Symbol) : HceError := ⟨0x04, 0, BitVec.ofNat 16 k.val⟩

/-- E_OVERRUN, ARG 0x0100 or the opcode (60_exceptions.md R295). -/
def eOverrun (arg : BitVec 16) : HceError := ⟨0x05, 0, arg⟩

/-- E_MALFORMED (60_exceptions.md R296). -/
def eMalformed (sub : BitVec 8) (arg : BitVec 16) : HceError := ⟨0x06, sub, arg⟩

/-- E_MISMATCH (60_exceptions.md R297). -/
def eMismatch (sub : BitVec 8) (arg : BitVec 16) : HceError := ⟨0x07, sub, arg⟩

/-- E_CODETOOLONG, ARG the symbol index (60_exceptions.md R304). -/
def eCodeTooLong (k : Symbol) : HceError := ⟨0x08, 0, BitVec.ofNat 16 k.val⟩

/-- Error entry (60_exceptions.md R299): ERR is written only when MODE is not ERROR, then MODE is ERROR; nothing else
is saved or changed. -/
def raise (e : HceError) (s : State) : State :=
  if s.mode = .error then s else { s with err := errWord e.code e.sub e.arg, mode := .error }

/-- One check of 60_exceptions.md R298: require(cond, error). -/
structure Check where
  cond : Bool
  error : HceError

/-- The first failing check, in the order listed (60_exceptions.md R298). -/
def firstFailure : List Check → Option HceError
  | [] => none
  | c :: cs => if c.cond then firstFailure cs else some c.error

/-- An operation whose checks failed raises the error and has no other effect (60_exceptions.md R300); else it has
its effect. -/
def attempt (failure : Option HceError) (s effect : State) : State :=
  match failure with
  | some e => raise e s
  | none => effect

/-- A command other than NOP and SRST: ignored in ERROR (45_control.md R256), otherwise attempted. -/
def command (s : State) (failure : Option HceError) (effect : State) : Result :=
  if s.mode = .error then .next s else .next (attempt failure s effect)

/-- The check every command has: MODE is the one it needs, else E_SEQ sub 1 (60_exceptions.md R301). -/
def modeCheck (s : State) (m : Mode) (op : BitVec 16) : Check := ⟨s.mode == m, eSeq 1 op⟩

/-- The check of an operation that can push: at least 8 entries free, else E_OVERRUN (10_state.md R30). -/
def spaceCheck (s : State) (arg : BitVec 16) : Check := ⟨s.inReady, eOverrun arg⟩

/-- push(OFIFO, b), counted in OCNT (10_state.md R60). -/
def State.push (b : Byte) (s : State) : State := { s with ofifo := s.ofifo ++ [b], ocnt := s.ocnt + 1 }

/-- One more DIN write accepted (10_state.md R38). -/
def State.countDin (s : State) : State := { s with dincnt := s.dincnt + 1 }

/-- A read returns v to the host. -/
def State.answer (v : Word) (s : State) : State := { s with returned := s.returned ++ [v] }

/-- Every piece of state of 10_state.md R63 at its reset value (45_control.md R251); the port is left as it is. -/
def State.clearAll (s : State) : State :=
  { State.reset with rstN := s.rstN, pending := s.pending, returned := s.returned }

/-- What RDREG returns (46_bus_access.md R266). A weight above index 64 reads 0, as its offset does (log 17). -/
def State.readReg (s : State) : Reg → Word
  | .id => Config.idValue
  | .status => s.statusWord
  | .err => s.err
  | .pad => s.pad.setWidth 32
  | .nsym => s.nsym
  | .tbitsLo => s.totalbits.extractLsb' 0 32
  | .tbitsHi => (s.totalbits.extractLsb' 32 6).setWidth 32
  | .bitcntLo => s.bitcnt.extractLsb' 0 32
  | .bitcntHi => s.bitcnt.extractLsb' 32 32
  | .dincnt => s.dincnt
  | .ocnt => s.ocnt
  | .pnsym => s.pnsym
  | .dbg => s.dbgWord
  | .weight k => s.w.getD k 0

end Sys2Proof.Machine
end

