-- ==== Sys2Proof/Machine/Control.lean ====
section
/-! DEFINITION. Block control and tree teardown: NOP, SRST, TEARDOWN (45_control.md). -/

namespace Sys2Proof.Machine

/-- The cleared arena (10_state.md R42). -/
def clearedArena : Arena := Vector.replicate 129 Node.cleared

/-- NOP: nothing, in every mode (45_control.md R250). -/
def execNop (s : State) : Result := .next s

/-- SRST: every piece of state to its reset value, in every mode (45_control.md R251). -/
def execSrst (s : State) : Result := .next s.clearAll

/-- TEARDOWN's checks (60_exceptions.md R298). -/
def teardownFailure (s : State) : Option HceError :=
  firstFailure [modeCheck s .idle 0x21, ⟨s.tv, eSeq 3 0x21⟩]

/-- TEARDOWN: every slot cleared, TV to 0 (45_control.md R252). -/
def execTeardown (s : State) : Result :=
  command s (teardownFailure s) { s with arena := clearedArena, tv := false }

end Sys2Proof.Machine
end

