-- ==== Sys2Proof/Machine/Counter.lean ====
section
/-! DEFINITION. The frequency counter: CNT_BEGIN, CNT_END, and the effect of CNT_PUT (40_frequency_counter.md). -/

namespace Sys2Proof.Machine

/-- CNT_BEGIN: the count, the tree and the codebook cleared; MODE to COUNT (40_frequency_counter.md R140). CBUF,
OFIFO, BITCNT, PNSYM and OCNT are left. -/
def execCntBegin (s : State) : Result :=
  command s (firstFailure [modeCheck s .idle 0x10])
    { s with
      w := Vector.replicate 65 0, nsym := 0, dincnt := 0, wv := false, tv := false, cv := false, ce := false,
      arena := clearedArena, cb := Vector.replicate 65 ⟨0, 0⟩, pad := 0, totalbits := 0, mode := .count }

/-- CNT_END: WV to 1, MODE to IDLE (40_frequency_counter.md R145). -/
def execCntEnd (s : State) : Result :=
  command s (firstFailure [modeCheck s .count 0x11]) { s with wv := true, mode := .idle }

/-- One more of symbol k (40_frequency_counter.md R142). -/
def countOne (k : Symbol) (s : State) : State :=
  { s with w := s.w.set k (s.w[k] + 1), nsym := s.nsym + 1 }.countDin

/-- CNT_PUT's effect on the byte c: E_BADSYM, then E_OVERFLOW, else counted (40_frequency_counter.md R142). -/
def countByte (c : Byte) (s : State) : State :=
  match idx c with
  | none => raise (eBadSym c) s
  | some k => attempt (firstFailure [⟨s.nsym.toNat < Config.nsymLimit, eOverflow k⟩]) s (countOne k s)

end Sys2Proof.Machine
end

