-- ==== Sys2Proof/Machine/Packer.lean ====
section
/-! DEFINITION. The bitstream packer: PACK_BEGIN, PACK_END, and the effect of PACK_PUT (43_pack.md). -/

namespace Sys2Proof.Machine

/-- One bit into the accumulator; the eighth completes a byte (43_pack.md R201). -/
def appendBit (b : Bool) (s : State) : State :=
  let acc := s.acc <<< 1 ||| (BitVec.ofBool b).setWidth 8
  if s.accn + 1 = 8 then { s.push acc with acc := 0, accn := 0 } else { s with acc := acc, accn := s.accn + 1 }

/-- The bits of a code, first bit first (43_pack.md R201). -/
def appendBits : List Bool → State → State
  | [], s => s
  | b :: bs, s => appendBits bs (appendBit b s)

/-- PACK_BEGIN's checks (60_exceptions.md R298). -/
def packBeginFailure (s : State) : Option HceError :=
  firstFailure [modeCheck s .idle 0x40, ⟨s.cv, eSeq 4 0x40⟩, ⟨s.ce, eSeq 5 0x40⟩]

/-- PACK_BEGIN: OFIFO and the pack counters emptied, MODE to PACK (43_pack.md R200). -/
def execPackBegin (s : State) : Result :=
  command s (packBeginFailure s)
    { s with ofifo := [], acc := 0, accn := 0, bitcnt := 0, pnsym := 0, dincnt := 0, ocnt := 0, mode := .pack }

/-- The code of symbol k appended and counted (43_pack.md R203). -/
def packOne (k : Symbol) (s : State) : State :=
  let t := appendBits s.cb[k].bits s
  { t with bitcnt := t.bitcnt + s.cb[k].len.setWidth 64, pnsym := t.pnsym + 1 }.countDin

/-- PACK_PUT's effect on the byte c: E_OVERRUN, E_BADSYM, E_MISMATCH sub 1, else packed (43_pack.md R203). -/
def packByte (c : Byte) (s : State) : State :=
  match firstFailure [spaceCheck s 0x0100] with
  | some e => raise e s
  | none =>
    match idx c with
    | none => raise (eBadSym c) s
    | some k =>
      attempt (firstFailure [⟨s.pnsym.toNat < s.nsym.toNat, eMismatch 1 (BitVec.ofNat 16 k.val)⟩]) s (packOne k s)

/-- PACK_END's checks (43_pack.md R206, 60_exceptions.md R298). -/
def packEndFailure (s : State) : Option HceError :=
  firstFailure [modeCheck s .pack 0x41, spaceCheck s 0x41, ⟨s.pnsym == s.nsym, eMismatch 2 0x41⟩,
    ⟨s.bitcnt.toNat == s.totalbits.toNat, eMismatch 3 0x41⟩]

/-- The last byte, zero-padded on its least significant end, when bits are left (43_pack.md R206). -/
def flush (s : State) : State :=
  if 0 < s.accn.toNat then s.push (s.acc <<< (8 - s.accn.toNat)) else s

/-- PACK_END: the last byte flushed, MODE to IDLE (43_pack.md R206). -/
def execPackEnd (s : State) : Result :=
  command s (packEndFailure s) { flush s with acc := 0, accn := 0, mode := .idle }

end Sys2Proof.Machine
end

