-- ==== Sys2Proof/Machine/Unpacker.lean ====
section
/-! DEFINITION. The codebook loader and bitstream unpacker: LOAD, UNPACK_BEGIN, UNPACK_END, and the effect of
UNPACK_PUT (44_unpack.md). -/

namespace Sys2Proof.Machine

/-- The LEN byte of record k (30_encoding.md R108). -/
def recordLen (m : Memory) (k : Symbol) : Nat := (Memory.read m (recordBase k + 1)).toNat

/-- The value of record k: eight bytes, most significant first (30_encoding.md R108, 44_unpack.md R220). -/
def recordVal (m : Memory) (k : Symbol) : Nat :=
  ((List.range 8).map fun j => (Memory.read m (recordBase k + 2 + j)).toNat * 2 ^ (8 * (7 - j))).sum

/-- The three checks of record k, in order: SYM, LEN, VAL (44_unpack.md R221). -/
def recordFailure (m : Memory) (k : Symbol) : Option HceError :=
  let arg := BitVec.ofNat 16 k.val
  firstFailure [⟨Memory.read m (recordBase k) == chr k, eMalformed 2 arg⟩,
    ⟨1 ≤ recordLen m k && recordLen m k ≤ Config.maxCodeLen, eMalformed 3 arg⟩,
    ⟨recordVal m k < 2 ^ recordLen m k, eMalformed 4 arg⟩]

/-- Of two codes (L, V), the shorter is the beginning of the longer, or they are equal (44_unpack.md R222). -/
def clash (li vi lj vj : Nat) : Bool :=
  let m := min li lj
  vi >>> (li - m) == vj >>> (lj - m)

/-- The prefix check of the pair i, j, for i below j (44_unpack.md R222). -/
def pairFailure (m : Memory) (i j : Symbol) : Option HceError :=
  if i < j ∧ clash (recordLen m i) (recordVal m i) (recordLen m j) (recordVal m j) then
    some (eMalformed 5 (BitVec.ofNat 16 (i.val + 256 * j.val)))
  else none

/-- The first pair that fails, in the order (0,1), (0,2), .., (63,64) (44_unpack.md R222). -/
def pairsFailure (m : Memory) : Option HceError :=
  symbols.findSome? fun i => symbols.findSome? fun j => pairFailure m i j

/-- What LOAD finds wrong with CBUF: the header, then the records in order, then the pairs (44_unpack.md R220 to R222). -/
def codebookFailure (m : Memory) : Option HceError :=
  match firstFailure [⟨Memory.read m 0 ≤ 7, eMalformed 1 ((Memory.read m 0).setWidth 16)⟩] with
  | some e => some e
  | none =>
    match symbols.findSome? (recordFailure m) with
    | some e => some e
    | none => pairsFailure m

/-- LOAD's checks (60_exceptions.md R298). -/
def loadFailure (s : State) : Option HceError :=
  match firstFailure [modeCheck s .idle 0x50] with
  | some e => some e
  | none => codebookFailure s.cbuf

/-- The codebook CBUF holds (44_unpack.md R220). -/
def loadedCodebook (m : Memory) : Codebook :=
  Vector.ofFn fun k => ⟨BitVec.ofNat 7 (recordLen m k), BitVec.ofNat 64 (recordVal m k)⟩

/-- LOAD: CBUF checked, then CB, PAD, CV and CE (44_unpack.md R220, R223). -/
def execLoad (s : State) : Result :=
  command s (loadFailure s)
    { s with cb := loadedCodebook s.cbuf, pad := (Memory.read s.cbuf 0).setWidth 3, cv := true, ce := false }

/-- UNPACK_BEGIN's checks (60_exceptions.md R298). -/
def unpackBeginFailure (s : State) : Option HceError :=
  firstFailure [modeCheck s .idle 0x60, ⟨s.cv, eSeq 4 0x60⟩]

/-- UNPACK_BEGIN: OFIFO, the held byte, the walk and the counters emptied, MODE to UNPACK (44_unpack.md R225). -/
def execUnpackBegin (s : State) : Result :=
  command s (unpackBeginFailure s)
    { s with ofifo := [], pend := 0, pendv := false, curLen := 0, curVal := 0, bitcnt := 0, dincnt := 0, ocnt := 0,
             mode := .unpack }

/-- How a walk over bits ends: with every bit walked, or stopped by an error, which has been raised in the state. -/
inductive Walk
  | going (s : State)
  | stopped (s : State)
  deriving DecidableEq, Repr

/-- The symbol whose code is c; the smallest index if there were several (44_unpack.md R228). -/
def symbolOf (cb : Codebook) (c : Code) : Option Symbol := symbols.find? fun k => cb[k] == c

/-- Code c begins a longer code: one whose first CUR_LEN bits are CUR_VAL (44_unpack.md R228). -/
def beginsLonger (cb : Codebook) (c : Code) : Bool :=
  symbols.any fun k => c.len < cb[k].len && cb[k].val >>> (cb[k].len - c.len).toNat == c.val

/-- The walk position after one more bit, counted in BITCNT (44_unpack.md R228). -/
def stepCur (x : Bool) (s : State) : State :=
  { s with curVal := s.curVal * 2 + (BitVec.ofBool x).setWidth 64, curLen := s.curLen + 1, bitcnt := s.bitcnt + 1 }

/-- walk_bit: a code is complete and its symbol is pushed, or the bits begin a longer code, or DEAD_PATH
(44_unpack.md R228). -/
def walkBit (x : Bool) (s : State) : Walk :=
  let t := stepCur x s
  match symbolOf t.cb ⟨t.curLen, t.curVal⟩ with
  | some k => .going { t.push (chr k) with curLen := 0, curVal := 0 }
  | none =>
    if beginsLonger t.cb ⟨t.curLen, t.curVal⟩ then .going t
    else .stopped (raise (eMalformed 6 (t.curLen.setWidth 16)) t)

/-- The bits one after another, up to the first error (44_unpack.md R229). -/
def walkBits : List Bool → State → Walk
  | [], s => .going s
  | x :: xs, s =>
    match walkBit x s with
    | .going t => walkBits xs t
    | .stopped t => .stopped t

/-- walk_byte (44_unpack.md R229). -/
def walkByte (b : Byte) (n : Nat) (s : State) : Walk := walkBits (firstBits b n) s

/-- The held byte, if there is one, was not the last: all its bits are walked (44_unpack.md R226). -/
def walkHeld (s : State) : Walk := if s.pendv then walkByte s.pend 8 s else .going s

/-- UNPACK_PUT's effect on the byte b: E_OVERRUN, else the held byte is walked and b is held (44_unpack.md R226). A dead
path keeps what earlier bits did, and b is not held (60_exceptions.md R300). -/
def unpackByte (b : Byte) (s : State) : State :=
  match firstFailure [spaceCheck s 0x0100] with
  | some e => raise e s
  | none =>
    match walkHeld s with
    | .stopped t => t
    | .going t => { t with pend := b, pendv := true }.countDin

/-- UNPACK_END's checks before the walk (44_unpack.md R230, 60_exceptions.md R298). -/
def unpackEndFailure (s : State) : Option HceError :=
  firstFailure [modeCheck s .unpack 0x61, spaceCheck s 0x61,
    ⟨s.pendv || s.pad == 0, eMalformed 8 (s.pad.setWidth 16)⟩]

/-- The last byte: 8 - PAD of its bits are walked and it is held no more; with no byte held there is nothing to walk
(44_unpack.md R230). -/
def walkLast (s : State) : Walk :=
  if s.pendv then
    match walkByte s.pend (8 - s.pad.toNat) s with
    | .going t => .going { t with pend := 0, pendv := false }
    | .stopped t => .stopped t
  else .going s

/-- The end of the payload inside a code is INCOMPLETE; else MODE to IDLE (44_unpack.md R230). -/
def closeWalk (s : State) : State :=
  attempt (firstFailure [⟨s.curLen == 0, eMalformed 7 (s.curLen.setWidth 16)⟩]) s { s with mode := .idle }

/-- UNPACK_END's effect after its checks (44_unpack.md R230). -/
def finishUnpack (s : State) : State :=
  match walkLast s with
  | .stopped t => t
  | .going t => closeWalk t

/-- UNPACK_END (44_unpack.md R230). -/
def execUnpackEnd (s : State) : Result := command s (unpackEndFailure s) (finishUnpack s)

end Sys2Proof.Machine
end

