-- ==== Sys2Proof/Machine/BusAccess.lean ====
section
/-! DEFINITION. Register and data-port accesses (46_bus_access.md). -/

namespace Sys2Proof.Machine

/-- The error of a DIN write with no run open (46_bus_access.md R267). -/
def refuseIdlePut (s : State) : State := raise (eSeq 1 0x0100) s

/-- DIN dispatch: the data operation of the MODE there is (46_bus_access.md R267). -/
def dinWrite (v : Word) (s : State) : State :=
  match s.mode with
  | .count => countByte (lowByte v) s
  | .pack => packByte (lowByte v) s
  | .unpack => unpackByte (lowByte v) s
  | .idle => refuseIdlePut s
  | .error => s

/-- CNT_PUT (40_frequency_counter.md R142). In a MODE that does not select it the transaction is the DIN write of that
MODE (46_bus_access.md R267; log 6). -/
def execCntPut (v : Word) (s : State) : Result :=
  if s.mode = .count then .next (countByte (lowByte v) s) else .next (dinWrite v s)

/-- PACK_PUT (43_pack.md R203); in another MODE the DIN write of that MODE (log 6). -/
def execPackPut (v : Word) (s : State) : Result :=
  if s.mode = .pack then .next (packByte (lowByte v) s) else .next (dinWrite v s)

/-- UNPACK_PUT (44_unpack.md R226); in another MODE the DIN write of that MODE (log 6). -/
def execUnpackPut (v : Word) (s : State) : Result :=
  if s.mode = .unpack then .next (unpackByte (lowByte v) s) else .next (dinWrite v s)

/-- PUT_IDLE: E_SEQ sub 1, ARG 0x0100 (46_bus_access.md R267); in another MODE the DIN write of that MODE (log 6). -/
def execPutIdle (v : Word) (s : State) : Result :=
  if s.mode = .idle then .next (refuseIdlePut s) else .next (dinWrite v s)

/-- PUT_ERR: nothing (46_bus_access.md R267); in another MODE the DIN write of that MODE (log 6). -/
def execPutErr (v : Word) (s : State) : Result :=
  if s.mode = .error then .next s else .next (dinWrite v s)

/-- GET: OFIFO's head popped and returned with VALID, or 0 when it is empty (46_bus_access.md R268). -/
def execGet (s : State) : Result :=
  match s.ofifo with
  | [] => .next (s.answer 0)
  | b :: rest => .next ({ s with ofifo := rest }.answer (doutWord b))

/-- RDREG: a register's or a weight's value returned (46_bus_access.md R266). -/
def execRdreg (r : Reg) (s : State) : Result := .next (s.answer (s.readReg r))

/-- CBRD: CBUF[i] returned, zero-extended (46_bus_access.md R270). -/
def execCbrd (i : Nat) (s : State) : Result := .next (s.answer ((Memory.read s.cbuf i).setWidth 32))

/-- CBWR: v[7:0] stored in CBUF[i] (46_bus_access.md R271). An index above 650 stands for no byte of CBUF and its write is
ignored, as its offset's is (log 17). -/
def execCbwr (i : Nat) (v : Word) (s : State) : Result :=
  if i < Config.cbufSize then .next { s with cbuf := Memory.write s.cbuf i (lowByte v) } else .next s

/-- WRIGN: nothing (46_bus_access.md R272). -/
def execWrign (_a : WordIndex) (_v : Word) (s : State) : Result := .next s

/-- RDZERO: 0 returned (46_bus_access.md R273). -/
def execRdzero (_a : WordIndex) (s : State) : Result := .next (s.answer 0)

end Sys2Proof.Machine
end

