-- ==== Sys2Proof/Machine/TreeBuilder.lean ====
section
/-! DEFINITION. The Huffman tree builder: BUILD (41_tree_builder.md). -/

namespace Sys2Proof.Machine

/-- x before the first element whose key is not below x's. -/
def insertByKey {α : Type} (key : α → Nat) (x : α) : List α → List α
  | [] => [x]
  | y :: ys => if key x ≤ key y then x :: y :: ys else y :: insertByKey key x ys

/-- stable_sort_by(key, l): by ascending key, elements of equal key in the order they had (00_scope.md R13). -/
def stableSortBy {α : Type} (key : α → Nat) : List α → List α
  | [] => []
  | x :: xs => insertByKey key x (stableSortBy key xs)

/-- NW[n] as a number, the key of the sort (41_tree_builder.md R160). -/
def weightOf (arena : Arena) (n : Slot) : Nat := arena[n].nw.toNat

/-- The leaf slot of a symbol (10_state.md R40). -/
def leafSlot (k : Symbol) : Slot := Fin.ofNat 129 k.val

/-- The slot of merge k's node, 65 + k (10_state.md R40). -/
def mergeSlot (k : Nat) : Slot := Fin.ofNat 129 (65 + k)

/-- The root, slot 128 (10_state.md R40). -/
def rootSlot : Slot := 128

/-- The leaves take their weights and have no children; every other field stays (41_tree_builder.md R160). -/
def setLeaves (w : Weights) (arena : Arena) : Arena :=
  Vector.ofFn fun n : Slot =>
    if h : n.val < 65 then { arena[n] with nw := w[n.val], nl := none, nr := none } else arena[n]

/-- Node n becomes the parent of a, on the given side (41_tree_builder.md R160). -/
def setParent (a n : Slot) (side : Bool) (arena : Arena) : Arena :=
  arena.set a { arena[a] with np := some n, ns := side }

/-- Node n joins a on its left and b on its right, its weight their sum (41_tree_builder.md R160, R162). -/
def join (a b n : Slot) (arena : Arena) : Arena :=
  let made := arena.set n { arena[n] with nw := arena[a].nw + arena[b].nw, nl := some a, nr := some b }
  setParent b n true (setParent a n false made)

/-- One merge round: the forest is stable-sorted by weight, its first two nodes are joined under slot 65 + k, and that
node is appended (41_tree_builder.md R162). BUILD's forest has at least two nodes in every round (R163); with fewer there is nothing to
join. -/
def mergeRound (k : Nat) (st : Arena × List Slot) : Arena × List Slot :=
  match stableSortBy (weightOf st.1) st.2 with
  | a :: b :: rest => (join a b (mergeSlot k) st.1, rest ++ [mergeSlot k])
  | forest => (st.1, forest)

/-- The first k rounds, from the leaves in symbol-index order (41_tree_builder.md R160, R161). -/
def mergeRounds (w : Weights) (arena : Arena) : Nat → Arena × List Slot
  | 0 => (setLeaves w arena, symbols.map leafSlot)
  | k + 1 => mergeRound k (mergeRounds w arena k)

/-- The arena BUILD leaves: 64 merges, and the root without a parent (41_tree_builder.md R160, R163). -/
def buildArena (w : Weights) (arena : Arena) : Arena :=
  let built := (mergeRounds w arena Config.nMerges).1
  built.set rootSlot { built[rootSlot] with np := none, ns := false }

/-- BUILD's checks (60_exceptions.md R298). -/
def buildFailure (s : State) : Option HceError :=
  firstFailure [modeCheck s .idle 0x20, ⟨s.wv, eSeq 2 0x20⟩]

/-- BUILD: the Huffman tree of W into the arena, TV to 1 (41_tree_builder.md R160). -/
def execBuild (s : State) : Result :=
  command s (buildFailure s) { s with arena := buildArena s.w s.arena, tv := true }

end Sys2Proof.Machine
end

