-- ==== Sys2Proof/Machine/CodeGenerator.lean ====
section
/-! DEFINITION. The code generator and codebook serializer: GENCODE (42_code_generator.md). -/

namespace Sys2Proof.Machine

/-- The sides from node n up to the root, leaf first, over at most `fuel` parents (42_code_generator.md R180). -/
def pathUp (arena : Arena) : Nat → Slot → List Bool
  | 0, _ => []
  | fuel + 1, n =>
    match arena[n].np with
    | none => []
    | some p => arena[n].ns :: pathUp arena fuel p

/-- The code bits of a symbol, root first (42_code_generator.md R181). The walk stops after as many parents as there are
slots: a longer chain is a cycle, which no reachable arena has, and is then refused as too long (log 7). -/
def codeBits (arena : Arena) (k : Symbol) : List Bool := (pathUp arena Config.nNodes (leafSlot k)).reverse

/-- L[k], before it is narrowed to its field (42_code_generator.md R180). -/
def codeLength (arena : Arena) (k : Symbol) : Nat := (codeBits arena k).length

/-- The codebook of an arena (42_code_generator.md R180, R181). -/
def codebookOf (arena : Arena) : Codebook :=
  Vector.ofFn fun k => ⟨BitVec.ofNat 7 (codeLength arena k), BitVec.ofNat 64 (bitsValue (codeBits arena k))⟩

/-- The sum of W[k] * L[k], exact (42_code_generator.md R183). -/
def payloadBits (w : Weights) (arena : Arena) : Nat :=
  (symbols.map fun k => w[k].toNat * codeLength arena k).sum

/-- PAD from TOTALBITS (42_code_generator.md R184). -/
def padOf (totalbits : BitVec 38) : BitVec 3 := BitVec.ofNat 3 ((8 - totalbits.toNat % 8) % 8)

/-- The first symbol whose code is longer than 64 bits (42_code_generator.md R182). -/
def firstTooLong (arena : Arena) : Option Symbol :=
  symbols.find? fun k => Config.maxCodeLen < codeLength arena k

/-- GENCODE's checks (60_exceptions.md R298). -/
def gencodeFailure (s : State) : Option HceError :=
  match firstFailure [modeCheck s .idle 0x30, ⟨s.tv, eSeq 3 0x30⟩] with
  | some e => some e
  | none => (firstTooLong s.arena).map eCodeTooLong

/-- GENCODE's effect: CB, TOTALBITS, PAD, the 651 bytes of CBUF, CV and CE (42_code_generator.md R180). -/
def generate (s : State) : State :=
  let cb := codebookOf s.arena
  let totalbits := BitVec.ofNat 38 (payloadBits s.w s.arena)
  let pad := padOf totalbits
  { s with cb := cb, totalbits := totalbits, pad := pad,
           cbuf := Memory.writeFrom 0 (codebookBytes pad cb) s.cbuf, cv := true, ce := true }

/-- GENCODE (42_code_generator.md R180). -/
def execGencode (s : State) : Result := command s (gencodeFailure s) (generate s)

end Sys2Proof.Machine
end

