-- ==== Sys2Proof/Machine/Dispatch.lean ====
section
/-! DEFINITION. One arm per operation. -/

namespace Sys2Proof.Machine

def exec (i : Instr) (s : State) : Host.Outcome State Fault Refusal :=
  match i with
  | .nop => Sys2Proof.Machine.execNop s
  | .srst => Sys2Proof.Machine.execSrst s
  | .cntBegin => Sys2Proof.Machine.execCntBegin s
  | .cntEnd => Sys2Proof.Machine.execCntEnd s
  | .build => Sys2Proof.Machine.execBuild s
  | .teardown => Sys2Proof.Machine.execTeardown s
  | .gencode => Sys2Proof.Machine.execGencode s
  | .packBegin => Sys2Proof.Machine.execPackBegin s
  | .packEnd => Sys2Proof.Machine.execPackEnd s
  | .load => Sys2Proof.Machine.execLoad s
  | .unpackBegin => Sys2Proof.Machine.execUnpackBegin s
  | .unpackEnd => Sys2Proof.Machine.execUnpackEnd s
  | .cntPut v => Sys2Proof.Machine.execCntPut v s
  | .packPut v => Sys2Proof.Machine.execPackPut v s
  | .unpackPut v => Sys2Proof.Machine.execUnpackPut v s
  | .putIdle v => Sys2Proof.Machine.execPutIdle v s
  | .putErr v => Sys2Proof.Machine.execPutErr v s
  | .get => Sys2Proof.Machine.execGet s
  | .rdreg r => Sys2Proof.Machine.execRdreg r s
  | .cbrd n => Sys2Proof.Machine.execCbrd n s
  | .cbwr n v => Sys2Proof.Machine.execCbwr n v s
  | .wrign a v => Sys2Proof.Machine.execWrign a v s
  | .rdzero a => Sys2Proof.Machine.execRdzero a s

end Sys2Proof.Machine
end

