-- ==== Sys2Proof/WellFormed.lean ====
section
/-! DEFINITION. Which operands an operation may carry, by the ranges of opcode_table.json and 20_memory.md R71 to R74. -/

namespace Sys2Proof

/-- The byte offset of a word index, off[12:2] * 4 (46_bus_access.md R265). -/
def byteOffset (a : WordIndex) : Nat := 4 * a.toNat

/-- The unmapped offsets of 20_memory.md R74. -/
def unmapped (off : Nat) : Bool :=
  (0x040 ≤ off && off ≤ 0x0FC) || (0x204 ≤ off && off ≤ 0xFFC) || (0x1A2C ≤ off && off ≤ 0x1FFC)

/-- Offsets whose write is ignored though something stands there: the read-only registers and the weight window
(opcode_table.json, WRIGN; 46_bus_access.md R272). -/
def readOnly (off : Nat) : Bool :=
  off == 0x000 || (0x008 ≤ off && off ≤ 0x00C) || (0x014 ≤ off && off ≤ 0x03C) || (0x100 ≤ off && off ≤ 0x200)

/-- The registers that hold no value to read: CMD and DIN (opcode_table.json, RDZERO; 46_bus_access.md R273). -/
def writeOnly (off : Nat) : Bool := off == 0x004 || off == 0x010

/-- A weight's index is at most 64 (20_memory.md R72). -/
def Reg.wf : Reg → Bool
  | .weight s => s ≤ 64
  | _ => true

/-- The operands are those the spec gives the operation. -/
def Instr.wf : Instr → Bool
  | .rdreg r => r.wf
  | .cbrd i => i ≤ 650
  | .cbwr i _ => i ≤ 650
  | .wrign a _ => readOnly (byteOffset a) || unmapped (byteOffset a)
  | .rdzero a => writeOnly (byteOffset a) || unmapped (byteOffset a)
  | .nop | .srst | .cntBegin | .cntEnd | .build | .teardown | .gencode | .packBegin | .packEnd | .load
  | .unpackBegin | .unpackEnd | .cntPut _ | .packPut _ | .unpackPut _ | .putIdle _ | .putErr _ | .get => true

/-- The MODE in which a transaction is this operation: only a DIN write depends on it (30_encoding.md R102, R113). -/
def Instr.selectedIn : Instr → Mode → Bool
  | .cntPut _, m => m == .count
  | .packPut _, m => m == .pack
  | .unpackPut _, m => m == .unpack
  | .putIdle _, m => m == .idle
  | .putErr _, m => m == .error
  | .nop, _ | .srst, _ | .cntBegin, _ | .cntEnd, _ | .build, _ | .teardown, _ | .gencode, _ | .packBegin, _
  | .packEnd, _ | .load, _ | .unpackBegin, _ | .unpackEnd, _ | .get, _ | .rdreg _, _ | .cbrd _, _ | .cbwr _ _, _
  | .wrign _ _, _ | .rdzero _, _ => true

end Sys2Proof
end

