-- ==== Sys2Proof/Decode.lean ====
section
/-! DEFINITION. Which operation a transaction is (46_bus_access.md R265, 45_control.md R255), the encoder back, and
the opcode table's own numbering of an operation's bits. -/

namespace Sys2Proof

/-- Why a CMD word is no command (60_exceptions.md R291), with its OPCODE. -/
inductive DecodeReject
  /-- The OPCODE is not in 30_encoding.md R101's table: E_BADCMD sub 1. -/
  | unassignedOpcode (op : Byte)
  /-- The OPCODE is assigned and bits [31:8] are not all 0: E_BADCMD sub 2. -/
  | reservedBits (op : Byte)
  deriving DecidableEq, Repr

/-- What the decoder answers: every transaction is an operation or a named rejection. -/
inductive Decoded
  | ok (i : Instr)
  | rejected (r : DecodeReject)
  deriving DecidableEq, Repr

/-- The opcode map of 30_encoding.md R101. -/
def commandMap : List (Byte × Instr) :=
  [(0x00, .nop), (0x01, .srst), (0x10, .cntBegin), (0x11, .cntEnd), (0x20, .build), (0x21, .teardown),
   (0x30, .gencode), (0x40, .packBegin), (0x41, .packEnd), (0x50, .load), (0x60, .unpackBegin), (0x61, .unpackEnd)]

/-- The registers of 20_memory.md R71 that RDREG reads, by offset. -/
def registerMap : List (Nat × Reg) :=
  [(0x000, .id), (0x008, .status), (0x00C, .err), (0x018, .pad), (0x01C, .nsym), (0x020, .tbitsLo),
   (0x024, .tbitsHi), (0x028, .bitcntLo), (0x02C, .bitcntHi), (0x030, .dincnt), (0x034, .ocnt), (0x038, .pnsym),
   (0x03C, .dbg)]

/-- off[12:2]; off[1:0] is ignored (20_memory.md R79). -/
def wordIndex (off : Offset) : WordIndex := off.extractLsb' 2 11

/-- OPCODE, bits [7:0] of a command word (30_encoding.md R100). -/
def opcodeField (v : Word) : Byte := v.extractLsb' 0 8

/-- RSVD, bits [31:8] of a command word (30_encoding.md R100). -/
def rsvdField (v : Word) : BitVec 24 := v.extractLsb' 8 24

/-- The decoding of a CMD word: the OPCODE first, then RSVD (30_encoding.md R100, 45_control.md R255). -/
def decodeCommand (v : Word) : Decoded :=
  match commandMap.lookup (opcodeField v) with
  | none => .rejected (.unassignedOpcode (opcodeField v))
  | some i => if rsvdField v = 0 then .ok i else .rejected (.reservedBits (opcodeField v))

/-- The operation a DIN write is, by MODE: the only mode-dependent decoding (30_encoding.md R102, R113). -/
def dinOperation : Mode → Word → Instr
  | .count, v => .cntPut v
  | .pack, v => .packPut v
  | .unpack, v => .unpackPut v
  | .idle, v => .putIdle v
  | .error, v => .putErr v

/-- The CBUF window (20_memory.md R73). -/
def inCbufWindow (off : Nat) : Bool := 0x1000 ≤ off && off ≤ 0x1A28

/-- The register RDREG reads at an offset, the weight window included (46_bus_access.md R265). -/
def registerAt (off : Nat) : Option Reg :=
  if 0x100 ≤ off ∧ off ≤ 0x200 then some (.weight ((off - 0x100) / 4)) else registerMap.lookup off

/-- The write half of 46_bus_access.md R265. -/
def decodeWrite (m : Mode) (a : WordIndex) (v : Word) : Decoded :=
  if byteOffset a = 0x004 then decodeCommand v
  else if byteOffset a = 0x010 then .ok (dinOperation m v)
  else if inCbufWindow (byteOffset a) then .ok (.cbwr ((byteOffset a - 0x1000) / 4) v)
  else .ok (.wrign a v)

/-- The read half of 46_bus_access.md R265. -/
def decodeRead (a : WordIndex) : Decoded :=
  if byteOffset a = 0x014 then .ok .get
  else match registerAt (byteOffset a) with
    | some r => .ok (.rdreg r)
    | none => if inCbufWindow (byteOffset a) then .ok (.cbrd ((byteOffset a - 0x1000) / 4)) else .ok (.rdzero a)

/-- The operation a transaction is in a MODE, for every transaction (46_bus_access.md R265). -/
def decode (m : Mode) : Transaction → Decoded
  | .write off v => decodeWrite m (wordIndex off) v
  | .read off => decodeRead (wordIndex off)

/-- The offset of a register RDREG reads (20_memory.md R71, R72). -/
def Reg.offset : Reg → Nat
  | .id => 0x000
  | .status => 0x008
  | .err => 0x00C
  | .pad => 0x018
  | .nsym => 0x01C
  | .tbitsLo => 0x020
  | .tbitsHi => 0x024
  | .bitcntLo => 0x028
  | .bitcntHi => 0x02C
  | .dincnt => 0x030
  | .ocnt => 0x034
  | .pnsym => 0x038
  | .dbg => 0x03C
  | .weight s => 0x100 + 4 * s

/-- The transaction that issues a command: a CMD write of its word (30_encoding.md R101). -/
def commandWrite (word : Word) : Transaction := .write 0x004 word

/-- A DIN write (30_encoding.md R102). -/
def dinWriteOf (v : Word) : Transaction := .write 0x010 v

/-- The encoder: the transaction that is the operation, written from 30_encoding.md R101 and R102, its ignored
offset bits [1:0] at 0. -/
def encode : Instr → Transaction
  | .nop => commandWrite 0x00000000
  | .srst => commandWrite 0x00000001
  | .cntBegin => commandWrite 0x00000010
  | .cntEnd => commandWrite 0x00000011
  | .build => commandWrite 0x00000020
  | .teardown => commandWrite 0x00000021
  | .gencode => commandWrite 0x00000030
  | .packBegin => commandWrite 0x00000040
  | .packEnd => commandWrite 0x00000041
  | .load => commandWrite 0x00000050
  | .unpackBegin => commandWrite 0x00000060
  | .unpackEnd => commandWrite 0x00000061
  | .cntPut v => dinWriteOf v
  | .packPut v => dinWriteOf v
  | .unpackPut v => dinWriteOf v
  | .putIdle v => dinWriteOf v
  | .putErr v => dinWriteOf v
  | .get => .read 0x014
  | .rdreg r => .read (BitVec.ofNat 13 r.offset)
  | .cbrd i => .read (BitVec.ofNat 13 (0x1000 + 4 * i))
  | .cbwr i v => .write (BitVec.ofNat 13 (0x1000 + 4 * i)) v
  | .wrign a v => .write (BitVec.ofNat 13 (byteOffset a)) v
  | .rdzero a => .read (BitVec.ofNat 13 (byteOffset a))

/-- A transaction with its ignored offset bits [1:0] at 0 (20_memory.md R79). -/
def Transaction.aligned : Transaction → Transaction
  | .read off => .read (BitVec.ofNat 13 (byteOffset (wordIndex off)))
  | .write off v => .write (BitVec.ofNat 13 (byteOffset (wordIndex off))) v

/-- The transaction that opcode_table.json's bits w stand for. A row of 32 bits is a CMD word. A row of at most 16 bits
is a bus offset: the table's bits hold neither its direction nor its value, so DIN's offset is taken as the write of 0
(the rows whose match is that offset alone are writes) and any other offset as a read. DESIGN CHOICE, log 4. -/
def tableTransaction (nbits w : Nat) : Option Transaction :=
  if nbits ≤ 16 then
    let off : Offset := BitVec.ofNat 13 w
    if byteOffset (wordIndex off) = 0x010 then some (.write off 0) else some (.read off)
  else if nbits ≤ 32 then some (commandWrite (BitVec.ofNat 32 w))
  else none

/-- What the decoder reads from the table's bits w, in the MODE the machine has after reset. -/
def decodeTableWord (nbits w : Nat) : Option Instr :=
  match tableTransaction nbits w with
  | none => none
  | some t =>
    match decode .idle t with
    | .ok i => some i
    | .rejected _ => none

end Sys2Proof
end

