-- ==== Sys2Proof/Machine/Port.lean ====
section
/-! DEFINITION. The port around the operations: taking the oldest event, the reset line, and a CMD word that is no
command. -/

namespace Sys2Proof.Machine

/-- The oldest event is taken from the port (20_memory.md R83). -/
def State.take (rest : List Event) (s : State) : State := { s with pending := rest }

/-- rst_n goes low: from here the block ignores transactions (70_reset_and_hazards.md R330). What the state holds while
rst_n is low cannot be observed; the model leaves it as it is. DESIGN CHOICE, log 3. -/
def State.resetFall (s : State) : State := { s with rstN := false }

/-- rst_n goes high after being low: every piece of state has its reset value (70_reset_and_hazards.md R330). With
rst_n high already there is no edge. -/
def State.resetRise (s : State) : State := if s.rstN then s else { s.clearAll with rstN := true }

/-- The error of a CMD word that is no command (45_control.md R255, 60_exceptions.md R291). -/
def rejectError : DecodeReject → HceError
  | .unassignedOpcode op => eBadCmd 1 op
  | .reservedBits op => eBadCmd 2 op

/-- A CMD word that is no command: E_BADCMD outside ERROR, ignored in ERROR (45_control.md R255, R256). -/
def badCommand (r : DecodeReject) (s : State) : State :=
  if s.mode = .error then s else raise (rejectError r) s

/-- A transaction presented before all others, with rst_n high, so that the next step takes it. -/
def State.present (t : Transaction) (s : State) : State :=
  { s with rstN := true, pending := .bus t :: s.pending }

end Sys2Proof.Machine
end

