-- ==== Sys2Proof/Machine/Step.lean ====
section
/-! DEFINITION. One step: the oldest event at the port takes its whole effect (46_bus_access.md R265, 20_memory.md R80). -/

namespace Sys2Proof.Machine

/-- One transaction: the operation the decoder reads from it, or the error of a CMD word that is no command. -/
def runTransaction (t : Transaction) (s : State) : Host.Outcome State Fault Refusal :=
  match decode s.mode t with
  | .ok i => exec i s
  | .rejected r => .next (badCommand r s)

/-- The HCE takes no step of its own: with nothing at the port it waits (45_control.md R254, 00_scope.md R9; log 1).
While rst_n is low transactions are ignored (70_reset_and_hazards.md R330). -/
def step (s : State) : Host.Outcome State Fault Refusal :=
  match s.pending with
  | [] => .next s
  | .resetFall :: rest => .next (s.take rest).resetFall
  | .resetRise :: rest => .next (s.take rest).resetRise
  | .bus t :: rest => if s.rstN then runTransaction t (s.take rest) else .next (s.take rest)

/-- The operation of the table's bits w is what the next step takes: its transaction is presented before all others
and rst_n is high. Log 4, 5. -/
def State.withFetchWord (s : State) (nbits w : Nat) : State :=
  match tableTransaction nbits w with
  | some t => s.present t
  | none => s

end Sys2Proof.Machine
end

