-- ==== Sys2Proof/Safety.lean ====
section
/-! DEFINITION. What claims about the HCE are said in: reset values, valid codebooks and artifacts, the tree BUILD makes,
the bits that have been packed, whole texts, and the invariants of a safe run. -/

namespace Sys2Proof.Machine

/-- States a sequence of steps leads to. -/
inductive Reaches : State → State → Prop
  | refl (s : State) : Reaches s s
  | step {s t u : State} : Reaches s t → step t = .next u → Reaches s u

/-- The operation raises an error with no other effect: ERR is the word and MODE is ERROR (60_exceptions.md R299, R300). -/
def Raises (i : Instr) (s : State) (word : Word) : Prop := exec i s = .next { s with err := word, mode := .error }

/-- Every piece of state has the value of 10_state.md R62. -/
structure HasResetValues (s : State) : Prop where
  mode : s.mode = .idle
  flags : s.wv = false ∧ s.tv = false ∧ s.cv = false ∧ s.ce = false
  err : s.err = 0x00000000
  pad : s.pad = 0
  counters : s.nsym = 0 ∧ s.totalbits = 0 ∧ s.bitcnt = 0 ∧ s.dincnt = 0 ∧ s.pnsym = 0 ∧ s.ocnt = 0
  w : ∀ k : Symbol, s.w[k] = 0
  arena : ∀ n : Slot, s.arena[n].nw = 0 ∧ s.arena[n].nl = none ∧ s.arena[n].nr = none ∧ s.arena[n].np = none ∧
    s.arena[n].ns = false
  cb : ∀ k : Symbol, s.cb[k].len = 0 ∧ s.cb[k].val = 0
  cbuf : s.cbuf = []
  ofifo : s.ofifo = []
  acc : s.acc = 0 ∧ s.accn = 0
  pend : s.pend = 0 ∧ s.pendv = false
  cur : s.curLen = 0 ∧ s.curVal = 0

/-- Lengths are 1 to 64 and values fit them (10_state.md R50, 42_code_generator.md R185 c, d). -/
def Codebook.inRange (cb : Codebook) : Prop :=
  ∀ k : Symbol, 1 ≤ cb[k].len.toNat ∧ cb[k].len.toNat ≤ 64 ∧ cb[k].val.toNat < 2 ^ cb[k].len.toNat

/-- No code is a prefix of another, nor equal to it (10_state.md R51). -/
def Codebook.prefixFree (cb : Codebook) : Prop := ∀ i j : Symbol, i ≠ j → ¬ cb[i].bits <+: cb[j].bits

/-- A codebook a run can work with (10_state.md R50, R51). -/
def Codebook.valid (cb : Codebook) : Prop := cb.inRange ∧ cb.prefixFree

/-- The sum of 2^(-L) times 2^64; a complete code has 2^64 (42_code_generator.md R185 b). -/
def Codebook.kraft (cb : Codebook) : Nat := (symbols.map fun k => 2 ^ (64 - cb[k].len.toNat)).sum

/-- From slot n the bits lead down to slot m: 0 to the left child, 1 to the right (30_encoding.md R106). -/
def Descends (arena : Arena) : Slot → List Bool → Slot → Prop
  | n, [], m => n = m
  | n, b :: bs, m => ∃ c : Slot, (if b then arena[n].nr else arena[n].nl) = some c ∧ Descends arena c bs m

/-- A strict binary tree over the leaves of W: what 10_state.md R41 and 41_tree_builder.md R160, R163 say of every slot. -/
structure IsHuffmanTree (w : Weights) (arena : Arena) : Prop where
  leaf : ∀ k : Symbol, arena[leafSlot k].nw = w[k] ∧ arena[leafSlot k].nl = none ∧ arena[leafSlot k].nr = none
  node : ∀ n : Slot, 65 ≤ n.val → ∃ l r : Slot, l ≠ r ∧ l < n ∧ r < n ∧
    arena[n].nl = some l ∧ arena[l].np = some n ∧ arena[l].ns = false ∧
    arena[n].nr = some r ∧ arena[r].np = some n ∧ arena[r].ns = true ∧
    arena[n].nw = arena[l].nw + arena[r].nw
  parent : ∀ n : Slot, n ≠ rootSlot → ∃ p : Slot, n < p ∧ 65 ≤ p.val ∧ arena[n].np = some p ∧
    (if arena[n].ns then arena[p].nr else arena[p].nl) = some n
  root : arena[rootSlot].np = none ∧ arena[rootSlot].ns = false

/-- The sum of W. -/
def weightSum (w : Weights) : Nat := (symbols.map fun k => w[k].toNat).sum

/-- LOAD's field checks pass for record k (44_unpack.md R221). -/
def RecordValid (m : Memory) (k : Symbol) : Prop :=
  Memory.read m (recordBase k) = chr k ∧ (1 ≤ recordLen m k ∧ recordLen m k ≤ 64) ∧ recordVal m k < 2 ^ recordLen m k

/-- One of the codes i and j of CBUF is the beginning of the other, or they are equal: the shorter is the longer without
its last bits (44_unpack.md R222). -/
def RecordsClash (m : Memory) (i j : Symbol) : Prop :=
  (recordLen m i ≤ recordLen m j ∧ recordVal m j / 2 ^ (recordLen m j - recordLen m i) = recordVal m i) ∨
    (recordLen m j ≤ recordLen m i ∧ recordVal m i / 2 ^ (recordLen m i - recordLen m j) = recordVal m j)

/-- CBUF is a codebook LOAD accepts (44_unpack.md R221, R222), with the prefix check said of the codes' bits. -/
def CbufValid (m : Memory) : Prop :=
  (Memory.read m 0).toNat ≤ 7 ∧ (∀ k : Symbol, RecordValid m k) ∧ (loadedCodebook m).prefixFree

/-- The bits of the bytes in OFIFO, most significant first (30_encoding.md R110). -/
def State.fifoBits (s : State) : List Bool := s.ofifo.flatMap fun b => firstBits b 8

/-- The ACCN bits in ACC, the oldest first (10_state.md R57). -/
def State.accBits (s : State) : List Bool := (List.range s.accn.toNat).map fun i => s.acc.getLsbD (s.accn.toNat - 1 - i)

/-- Operations one after another, each answering a next state. -/
def execAll : List Instr → State → Option State
  | [], s => some s
  | i :: is, s =>
    match exec i s with
    | .next t => execAll is t
    | .fault _ => none
    | .refused _ => none

/-- The DIN value that carries a byte. -/
def dinValue (b : Byte) : Word := b.setWidth 32

/-- Operations one after another, OFIFO drained after each (70_reset_and_hazards.md R340): the last state, and the bytes
drained, in order. -/
def execDrained : List Instr → State → Option (State × List Byte)
  | [], s => some (s, [])
  | i :: is, s =>
    match exec i s with
    | .next t => (execDrained is { t with ofifo := [] }).map fun r => (r.1, t.ofifo ++ r.2)
    | .fault _ => none
    | .refused _ => none

/-- The operations that count a text (40_frequency_counter.md). -/
def countOps (text : List Symbol) : List Instr :=
  .cntBegin :: (text.map fun k => .cntPut (dinValue (chr k))) ++ [.cntEnd]

/-- The operations that pack a text (43_pack.md). -/
def packOps (text : List Symbol) : List Instr :=
  .packBegin :: (text.map fun k => .packPut (dinValue (chr k))) ++ [.packEnd]

/-- The operations that unpack a payload (44_unpack.md). -/
def unpackOps (payload : List Byte) : List Instr :=
  .unpackBegin :: (payload.map fun b => .unpackPut (dinValue b)) ++ [.unpackEnd]

/-- The codes of a text, one after another (30_encoding.md R110). -/
def textBits (cb : Codebook) (text : List Symbol) : List Bool := text.flatMap fun k => cb[k].bits

/-- Some code begins with these bits and goes on: an inner position of the trie (44_unpack.md R232). -/
def InnerPosition (cb : Codebook) (bits : List Bool) : Prop := ∃ k : Symbol, bits <+: cb[k].bits ∧ bits ≠ cb[k].bits

/-- The flags and the modes that need them (10_state.md R29; 40_frequency_counter.md R140, 43_pack.md R200,
44_unpack.md R225). -/
structure FlagsAgree (s : State) : Prop where
  tree : s.tv = true → s.wv = true
  encode : s.ce = true → s.cv = true ∧ s.wv = true
  count : s.mode = .count → s.wv = false ∧ s.tv = false ∧ s.cv = false ∧ s.ce = false
  pack : s.mode = .pack → s.cv = true ∧ s.ce = true
  unpack : s.mode = .unpack → s.cv = true

/-- NSYM is the sum of W (10_state.md R35). -/
def CountAgrees (s : State) : Prop := s.nsym.toNat = weightSum s.w

/-- TV says whether the arena is the tree of the current W or cleared; none is kept while W is written
(10_state.md R26, R42). -/
structure TreeAgrees (s : State) : Prop where
  count : s.mode = .count → s.tv = false
  cleared : s.tv = false → s.arena = clearedArena
  built : s.tv = true → s.arena = buildArena s.w clearedArena

/-- CE says that CB, TOTALBITS and PAD were computed from the current W (10_state.md R28). -/
structure EncodeAgrees (s : State) : Prop where
  count : s.mode = .count → s.ce = false
  made : s.ce = true → s.cb = codebookOf (buildArena s.w clearedArena) ∧
    s.totalbits = BitVec.ofNat 38 (payloadBits s.w (buildArena s.w clearedArena)) ∧ s.pad = padOf s.totalbits

/-- CV says that CB is a valid codebook; otherwise CB and PAD are cleared (10_state.md R27, R34, R50, R51). -/
structure CodebookAgrees (s : State) : Prop where
  valid : s.cv = true → s.cb.valid
  cleared : s.cv = false → (∀ k : Symbol, s.cb[k] = ⟨0, 0⟩) ∧ s.pad = 0

/-- OFIFO holds at most 16 bytes, ACC fewer than 8 bits, no code is longer than 64, and in PACK no more symbols are packed
than were counted (10_state.md R56, R57; 43_pack.md R202). -/
structure FifoBounded (s : State) : Prop where
  level : s.ofifo.length ≤ 16
  acc : s.accn.toNat < 8 ∧ s.acc.toNat < 2 ^ s.accn.toNat
  lengths : ∀ k : Symbol, s.cb[k].len.toNat ≤ 64
  packed : s.mode = .pack → s.pnsym.toNat ≤ s.nsym.toNat

/-- The walk position is that of at most 64 bits; in UNPACK it is the root or an inner position; outside UNPACK and ERROR
nothing is held and the walk is at the root (10_state.md R58, R59; 44_unpack.md R228). -/
structure WalkBounded (s : State) : Prop where
  bound : s.curLen.toNat ≤ 64 ∧ s.curVal.toNat < 2 ^ s.curLen.toNat
  lengths : ∀ k : Symbol, s.cb[k].len.toNat ≤ 64
  inner : s.mode = .unpack → s.curLen = 0 ∨ beginsLonger s.cb ⟨s.curLen, s.curVal⟩ = true
  held : s.pendv = false → s.pend = 0
  rest : s.mode ≠ .unpack → s.mode ≠ .error → s.curLen = 0 ∧ s.curVal = 0 ∧ s.pendv = false

/-- ERR is 0 until an error; in ERROR its CODE is one the HCE has (10_state.md R31, 60_exceptions.md R290). -/
structure ErrorAgrees (s : State) : Prop where
  none : s.mode ≠ .error → s.err = 0
  some : s.mode = .error → 1 ≤ (s.err.extractLsb' 0 8).toNat ∧ (s.err.extractLsb' 0 8).toNat ≤ 8

/-- CBUF is in canonical form and holds no byte above index 650 (10_state.md R55). -/
structure CbufCanonical (s : State) : Prop where
  wf : Memory.wf s.cbuf = true
  bound : ∀ c ∈ s.cbuf, c.1 ≤ 650

/-- What holds of every state a run from reset meets. -/
structure Inv (s : State) : Prop where
  flags : FlagsAgree s
  count : CountAgrees s
  tree : TreeAgrees s
  encode : EncodeAgrees s
  codebook : CodebookAgrees s
  fifo : FifoBounded s
  walk : WalkBounded s
  error : ErrorAgrees s
  cbuf : CbufCanonical s

end Sys2Proof.Machine
end

