-- ==== Sys2Proof/Certificates/Slice0/Obligations.lean ====
section
/-! DEFINITION. The statements for the provers. -/

open Sys2Proof Sys2Proof.Machine

/-! ### Encoding and the port -/

/-- 30_encoding.md R101, R102: every operation with admissible operands is what its own transaction decodes to, in a
MODE that selects it. -/
def Obligations.DecodeOfEncodeIsTheOperation : Prop :=
  ∀ (i : Instr) (m : Mode), i.wf = true → i.selectedIn m = true → decode m (encode i) = .ok i

/-- Each transaction has one meaning: what it decodes to has admissible operands, is selected by the MODE, and encodes to
that transaction with its ignored offset bits at 0 (46_bus_access.md R265, 20_memory.md R79). -/
def Obligations.EncodeOfDecodeIsTheTransaction : Prop :=
  ∀ (m : Mode) (t : Transaction) (i : Instr), decode m t = .ok i →
    i.wf = true ∧ i.selectedIn m = true ∧ encode i = t.aligned

/-- 30_encoding.md R100: the OPCODE is looked up first, then RSVD must be 0, then the word is the well-formed operation
whose CMD word it is, the command of R101. -/
def Obligations.CommandWordIsDecodedOpcodeFirst : Prop :=
  ∀ (m : Mode) (off : Offset) (v : Word), byteOffset (wordIndex off) = 0x004 →
    let op : Byte := v.extractLsb' 0 8
    let assigned : Prop :=
      op ∈ ([0x00, 0x01, 0x10, 0x11, 0x20, 0x21, 0x30, 0x40, 0x41, 0x50, 0x60, 0x61] : List Byte)
    (¬ assigned → decode m (.write off v) = .rejected (.unassignedOpcode op)) ∧
    (assigned → v.extractLsb' 8 24 ≠ 0 → decode m (.write off v) = .rejected (.reservedBits op)) ∧
    (assigned → v.extractLsb' 8 24 = 0 → ∃ i, decode m (.write off v) = .ok i ∧ i.wf = true ∧
      encode i = .write 0x004 v)

/-- A few words written out from the spec's encodings decode to what they stand for (30_encoding.md R101, R102). -/
def Obligations.SampleTransactionsDecode : Prop :=
  decode .idle (.write 0b0000000000100 0b00000000000000000000000000010000) = .ok .cntBegin ∧
  decode .idle (.write 0b0000000000100 0b00000000000000000000000000110000) = .ok .gencode ∧
  decode .idle (.write 0b0000000000100 0b00000000000000000000000001100001) = .ok .unpackEnd ∧
  decode .idle (.write 0b0000000000100 0b00000000000000000000000000000010) = .rejected (.unassignedOpcode 0x02) ∧
  decode .idle (.write 0b0000000000100 0b00000000000000000000000100010000) = .rejected (.reservedBits 0x10) ∧
  decode .count (.write 0b0000000010010 0x13D) = .ok (.cntPut 0x13D) ∧
  decode .pack (.write 0b0000000010000 0x54) = .ok (.packPut 0x54) ∧
  decode .idle (.read 0b0000000010111) = .ok .get ∧
  decode .idle (.read 0b0001000000000) = .ok (.rdreg (.weight 64)) ∧
  decode .idle (.read 0b1101000101000) = .ok (.cbrd 650) ∧
  decode .idle (.write 0b1101000101000 0x1FF) = .ok (.cbwr 650 0x1FF) ∧
  decode .idle (.write 0b1101000101100 7) = .ok (.wrign 0x68B 7) ∧
  decode .idle (.read 0b0001000000100) = .ok (.rdzero 0x081)

/-- A step takes the oldest event: with rst_n high it is exec of the operation its transaction decodes to, at the state
without that event (46_bus_access.md R265). The other two clauses are the model's choice. With rst_n low a transaction is
taken, a read leaves nothing in `returned`, and the rest of the state stays (log 3: 70_reset_and_hazards.md R330 says only
that it is ignored). With nothing presented the block waits in the same state (log 1). -/
def Obligations.StepRunsTheDecodedOperation : Prop :=
  (∀ (s : State) (t : Transaction) (rest : List Event) (i : Instr),
    s.rstN = true → s.pending = .bus t :: rest → decode s.mode t = .ok i →
      step s = exec i { s with pending := rest }) ∧
  (∀ (s : State) (t : Transaction) (rest : List Event),
    s.rstN = false → s.pending = .bus t :: rest → step s = .next { s with pending := rest }) ∧
  (∀ s : State, s.pending = [] → step s = .next s)

/-- No step of the HCE ends in a fault or a refusal: an error is a next state, no bus error exists
(60_exceptions.md R299, 20_memory.md R74, R79, R80). -/
def Obligations.EveryStepAnswersNext : Prop := ∀ s : State, ∃ t, step s = .next t

/-- 60_exceptions.md R291: outside ERROR a CMD word that is no command raises E_BADCMD with ARG its OPCODE, and does
nothing else. -/
def Obligations.BadCommandWordRaisesBadCmd : Prop :=
  ∀ (s : State) (off : Offset) (v : Word) (rest : List Event),
    s.rstN = true → s.pending = .bus (.write off v) :: rest → byteOffset (wordIndex off) = 0x004 → s.mode ≠ .error →
    let op : Byte := v.extractLsb' 0 8
    let assigned : Prop :=
      op ∈ ([0x00, 0x01, 0x10, 0x11, 0x20, 0x21, 0x30, 0x40, 0x41, 0x50, 0x60, 0x61] : List Byte)
    (¬ assigned → step s =
      .next { s with pending := rest, err := 0x00000101 ||| op.setWidth 32 <<< 16, mode := .error }) ∧
    (assigned → v.extractLsb' 8 24 ≠ 0 → step s =
      .next { s with pending := rest, err := 0x00000201 ||| op.setWidth 32 <<< 16, mode := .error })

/-- 45_control.md R256: in ERROR only the exact word 0x00000001 acts; every other CMD word has no effect. -/
def Obligations.ErrorModeIgnoresAllCommandsButReset : Prop :=
  ∀ (s : State) (off : Offset) (v : Word) (rest : List Event),
    s.rstN = true → s.pending = .bus (.write off v) :: rest → byteOffset (wordIndex off) = 0x004 → s.mode = .error →
    (v ≠ 0x00000001 → step s = .next { s with pending := rest }) ∧
    (v = 0x00000001 → ∃ t, step s = .next t ∧ HasResetValues t ∧
      t.rstN = true ∧ t.pending = rest ∧ t.returned = s.returned)

/-- 70_reset_and_hazards.md R330, 10_state.md R62: while rst_n is low transactions are ignored, and when it goes high every
piece of state has its reset value. STATUS then reads 0x00000100 and ID 0x48554646. That the events before the edge
return nothing to the host is the model's choice, log 3. -/
def Obligations.ResetLineRestoresResetState : Prop :=
  ∀ (s : State) (ts : List Transaction) (rest : List Event),
    s.pending = .resetFall :: (ts.map Event.bus ++ .resetRise :: rest) →
    ∃ t, Host.Core.run Sys2Proof.core (ts.length + 2) s = .next t ∧ HasResetValues t ∧
      t.rstN = true ∧ t.pending = rest ∧ t.returned = s.returned ∧
      t.readReg .status = 0x00000100 ∧ t.readReg .id = 0x48554646

/-! ### Control -/

/-- 45_control.md R250: NOP has no effect in any mode; its OPCODE with RSVD not 0 is E_BADCMD sub 2 outside ERROR. -/
def Obligations.NopHasNoEffect : Prop :=
  (∀ m : Mode, decode m (.write 0x004 0x00000000) = .ok .nop) ∧ (∀ s : State, exec .nop s = .next s) ∧
  (∀ (s : State) (v : Word), v.extractLsb' 0 8 = (0x00 : BitVec 8) → v ≠ 0x00000000 → s.mode ≠ .error →
    runTransaction (.write 0x004 v) s = .next { s with err := 0x00000201, mode := .error })

/-- 45_control.md R251, 70_reset_and_hazards.md R331: SRST gives every piece of state its reset value, from any state; only
the exact word 0x00000001 is SRST. The port's own fields are left, as the model has them (log 16). -/
def Obligations.SrstRestoresResetState : Prop :=
  (∀ s : State, ∃ t, exec .srst s = .next t ∧ HasResetValues t ∧
    t.rstN = s.rstN ∧ t.pending = s.pending ∧ t.returned = s.returned) ∧
  (∀ (m : Mode) (v : Word), decode m (.write 0x004 v) = .ok .srst ↔ v = 0x00000001)

/-- 45_control.md R252: TEARDOWN clears every slot and TV, and nothing else; it needs IDLE and TV. -/
def Obligations.TeardownClearsTheArena : Prop :=
  (∀ m : Mode, decode m (.write 0x004 0x00000021) = .ok .teardown) ∧
  ∀ s : State,
    (s.mode = .error → exec .teardown s = .next s) ∧
    (s.mode = .count ∨ s.mode = .pack ∨ s.mode = .unpack → Raises .teardown s 0x00210102) ∧
    (s.mode = .idle → s.tv = false → Raises .teardown s 0x00210302) ∧
    (s.mode = .idle → s.tv = true → ∃ t, exec .teardown s = .next t ∧
      t = { s with arena := t.arena, tv := false } ∧
      ∀ n : Slot, t.arena[n].nw = 0 ∧ t.arena[n].nl = none ∧ t.arena[n].nr = none ∧ t.arena[n].np = none ∧
        t.arena[n].ns = false)

/-! ### Frequency counter -/

/-- 40_frequency_counter.md R140: CNT_BEGIN clears the count, the tree and the codebook and enters COUNT; CBUF, OFIFO,
BITCNT, PNSYM and OCNT are left. -/
def Obligations.CntBeginClearsCountTreeAndCodebook : Prop :=
  (∀ m : Mode, decode m (.write 0x004 0x00000010) = .ok .cntBegin) ∧
  ∀ s : State,
    (s.mode = .error → exec .cntBegin s = .next s) ∧
    (s.mode = .count ∨ s.mode = .pack ∨ s.mode = .unpack → Raises .cntBegin s 0x00100102) ∧
    (s.mode = .idle → ∃ t, exec .cntBegin s = .next t ∧
      t = { s with w := t.w, arena := t.arena, cb := t.cb, nsym := 0, dincnt := 0, wv := false, tv := false,
                   cv := false, ce := false, pad := 0, totalbits := 0, mode := .count } ∧
      (∀ k : Symbol, t.w[k] = 0 ∧ t.cb[k].len = 0 ∧ t.cb[k].val = 0) ∧
      ∀ n : Slot, t.arena[n].nw = 0 ∧ t.arena[n].nl = none ∧ t.arena[n].nr = none ∧ t.arena[n].np = none ∧
        t.arena[n].ns = false)

/-- 40_frequency_counter.md R142: in COUNT a symbol byte adds one to its weight, to NSYM and to DINCNT; another byte is
E_BADSYM; a full count is E_OVERFLOW. -/
def Obligations.CntPutCountsOneSymbol : Prop :=
  (∀ v : Word, decode .count (.write 0x010 v) = .ok (.cntPut v)) ∧
  ∀ (s : State) (v : Word), s.mode = .count →
    (idx (v.extractLsb' 0 8) = none →
      Raises (.cntPut v) s (0x00000003 ||| (v.extractLsb' 0 8).setWidth 32 <<< 16)) ∧
    ∀ k : Symbol, idx (v.extractLsb' 0 8) = some k →
      (s.nsym = 0xFFFFFFFF → Raises (.cntPut v) s (0x00000004 ||| BitVec.ofNat 32 k.val <<< 16)) ∧
      (s.nsym ≠ 0xFFFFFFFF → ∃ t, exec (.cntPut v) s = .next t ∧
        t = { s with w := t.w, nsym := s.nsym + 1, dincnt := s.dincnt + 1 } ∧
        t.w[k] = s.w[k] + 1 ∧ ∀ j : Symbol, j ≠ k → t.w[j] = s.w[j])

/-- 40_frequency_counter.md R145: CNT_END sets WV and returns to IDLE, and does nothing else; it needs COUNT. -/
def Obligations.CntEndValidatesTheCount : Prop :=
  (∀ m : Mode, decode m (.write 0x004 0x00000011) = .ok .cntEnd) ∧
  ∀ s : State,
    (s.mode = .error → exec .cntEnd s = .next s) ∧
    (s.mode = .idle ∨ s.mode = .pack ∨ s.mode = .unpack → Raises .cntEnd s 0x00110102) ∧
    (s.mode = .count → exec .cntEnd s = .next { s with wv := true, mode := .idle })

/-- 40_frequency_counter.md R141: after CNT_BEGIN and any symbol bytes, W[k] is the number of those whose index is k,
whatever their order. -/
def Obligations.CountingIsOrderIndependent : Prop :=
  ∀ (s : State) (values : List Word), s.mode = .idle → values.length < 2 ^ 32 →
    (∀ v ∈ values, idx (v.extractLsb' 0 8) ≠ none) →
    ∃ t, execAll (.cntBegin :: values.map .cntPut) s = some t ∧ t.mode = .count ∧ t.nsym.toNat = values.length ∧
      ∀ k : Symbol, t.w[k].toNat = values.countP fun v => idx (v.extractLsb' 0 8) == some k

/-! ### Tree builder -/

/-- 41_tree_builder.md R160: BUILD needs IDLE and WV; it writes the arena and TV and nothing else. The arena is that of the
64 merge rounds over W, and the root has no parent and side 0. -/
def Obligations.BuildWritesArenaAndTv : Prop :=
  (∀ m : Mode, decode m (.write 0x004 0x00000020) = .ok .build) ∧
  ∀ s : State,
    (s.mode = .error → exec .build s = .next s) ∧
    (s.mode = .count ∨ s.mode = .pack ∨ s.mode = .unpack → Raises .build s 0x00200102) ∧
    (s.mode = .idle → s.wv = false → Raises .build s 0x00200202) ∧
    (s.mode = .idle → s.wv = true →
      exec .build s = .next { s with arena := buildArena s.w s.arena, tv := true } ∧
      let merged := (mergeRounds s.w s.arena 64).1
      (buildArena s.w s.arena)[rootSlot] = { merged[rootSlot] with np := none, ns := false } ∧
      ∀ n : Slot, n ≠ rootSlot → (buildArena s.w s.arena)[n] = merged[n])

/-- 41_tree_builder.md R161, R162: the forest starts as the leaf slots 0 to 64 in index order, each with its symbol's weight
and no children. Each round joins the two forest nodes of smallest weight, of equal ones the earlier, the first on the
left, under slot 65 + k; that node goes to the end of the sorted rest, and every field not named stays. -/
def Obligations.MergeRoundJoinsTheTwoLightest : Prop :=
  ∀ (w : Weights) (arena : Arena),
    (let start := mergeRounds w arena 0
     start.2.map (fun n => n.val) = List.range 65 ∧
     (∀ k : Symbol, start.1[leafSlot k] = { arena[leafSlot k] with nw := w[k], nl := none, nr := none }) ∧
     ∀ n : Slot, 65 ≤ n.val → start.1[n] = arena[n]) ∧
    ∀ k < 64,
      let before := mergeRounds w arena k
      let after := mergeRounds w arena (k + 1)
      let weight : Slot → Nat := fun n => before.1[n].nw.toNat
      ∃ (a b n : Slot) (rest : List Slot), n.val = 65 + k ∧ a ≠ b ∧ a ≠ n ∧ b ≠ n ∧
        (a :: b :: rest).Perm before.2 ∧ (a :: b :: rest).Pairwise (fun x y => weight x ≤ weight y) ∧
        (∀ m : Nat, (a :: b :: rest).filter (fun x => weight x == m) = before.2.filter (fun x => weight x == m)) ∧
        after.2 = rest ++ [n] ∧
        after.1[n] = { before.1[n] with nw := before.1[a].nw + before.1[b].nw, nl := some a, nr := some b } ∧
        after.1[a] = { before.1[a] with np := some n, ns := false } ∧
        after.1[b] = { before.1[b] with np := some n, ns := true } ∧
        ∀ m : Slot, m ≠ n → m ≠ a → m ≠ b → after.1[m] = before.1[m]

/-- 41_tree_builder.md R163, 10_state.md R40, R41, R43: BUILD makes a strict binary tree over the 65 leaves of W, rooted in
slot 128; when NSYM is the sum of W, the root weighs NSYM and no node weighs more. -/
def Obligations.BuildMakesAStrictTree : Prop :=
  ∀ s : State, s.mode = .idle → s.wv = true →
    ∃ t, exec .build s = .next t ∧ (mergeRounds s.w s.arena 64).2 = [rootSlot] ∧ IsHuffmanTree s.w t.arena ∧
      (CountAgrees s → t.arena[rootSlot].nw = s.nsym ∧ ∀ n : Slot, t.arena[n].nw.toNat ≤ s.nsym.toNat)

/-- 41_tree_builder.md R166: BUILD with TV already 1 leaves the same arena, and everything else: the arena is that of W
already (TreeAgrees, which every step keeps). -/
def Obligations.RebuildGivesTheSameArena : Prop :=
  ∀ s : State, s.mode = .idle → s.wv = true → s.tv = true → TreeAgrees s → exec .build s = .next s

/-! ### Code generator -/

/-- 42_code_generator.md R180: GENCODE needs IDLE and TV, checks the lengths before it writes, and writes CB, TOTALBITS, PAD,
CBUF, CV and CE and nothing else. -/
def Obligations.GencodeWritesCodebookAndTotals : Prop :=
  (∀ m : Mode, decode m (.write 0x004 0x00000030) = .ok .gencode) ∧
  ∀ s : State,
    (s.mode = .error → exec .gencode s = .next s) ∧
    (s.mode = .count ∨ s.mode = .pack ∨ s.mode = .unpack → Raises .gencode s 0x00300102) ∧
    (s.mode = .idle → s.tv = false → Raises .gencode s 0x00300302) ∧
    (s.mode = .idle → s.tv = true → ∀ k : Symbol, 64 < codeLength s.arena k → (∀ j < k, codeLength s.arena j ≤ 64) →
      Raises .gencode s (0x00000008 ||| BitVec.ofNat 32 k.val <<< 16)) ∧
    (s.mode = .idle → s.tv = true → (∀ k : Symbol, codeLength s.arena k ≤ 64) →
      ∃ t, exec .gencode s = .next t ∧
        t = { s with cb := codebookOf s.arena, totalbits := t.totalbits, pad := t.pad, cbuf := t.cbuf,
                     cv := true, ce := true })

/-- 42_code_generator.md R185, R182: from the tree BUILD makes of any W, GENCODE succeeds and its codes are 1 to 64 bits
long, fit their lengths, are prefix-free, and are complete: the sum of 2^(-L) is 1, and every bit string begins a code or
has a code at its beginning. -/
def Obligations.GencodeCodebookIsPrefixFreeAndComplete : Prop :=
  ∀ s : State, s.mode = .idle → s.tv = true → s.arena = buildArena s.w clearedArena →
    ∃ t, exec .gencode s = .next t ∧ t.mode = .idle ∧ t.cb.inRange ∧ t.cb.prefixFree ∧ t.cb.kraft = 2 ^ 64 ∧
      ∀ bits : List Bool, ∃ k : Symbol, bits <+: t.cb[k].bits ∨ t.cb[k].bits <+: bits

/-- 42_code_generator.md R181, 30_encoding.md R106: the code of a symbol, read from its first bit, leads from the root down
to the symbol's leaf, 0 to the left child and 1 to the right. -/
def Obligations.CodeLeadsFromRootToLeaf : Prop :=
  ∀ s : State, s.mode = .idle → s.tv = true → s.arena = buildArena s.w clearedArena →
    ∃ t, exec .gencode s = .next t ∧ ∀ k : Symbol, Descends t.arena rootSlot t.cb[k].bits (leafSlot k) ∧
      t.cb[k].bits.length = t.cb[k].len.toNat ∧ 1 ≤ t.cb[k].len.toNat ∧ t.cb[k].val.toNat = bitsValue t.cb[k].bits

/-- 42_code_generator.md R183, R184: TOTALBITS is the sum of W[k] * L[k], not truncated when NSYM is the sum of W, and PAD
fills it to a whole byte and is never 8. -/
def Obligations.GencodeTotalsAndPadding : Prop :=
  ∀ s : State, s.mode = .idle → s.tv = true → (∀ k : Symbol, codeLength s.arena k ≤ 64) → CountAgrees s →
    ∃ t, exec .gencode s = .next t ∧
      t.totalbits.toNat = (symbols.map fun k => s.w[k].toNat * t.cb[k].len.toNat).sum ∧
      t.pad.toNat = (8 - t.totalbits.toNat % 8) % 8 ∧ (t.totalbits.toNat + t.pad.toNat) % 8 = 0

/-- 42_code_generator.md R186, 30_encoding.md R107, R108: GENCODE writes the header and the 65 records into CBUF, the value
most significant byte first, and no byte beyond them. -/
def Obligations.GencodeSerializesTheCodebook : Prop :=
  ∀ s : State, s.mode = .idle → s.tv = true → (∀ k : Symbol, codeLength s.arena k ≤ 64) → Memory.wf s.cbuf = true →
    ∃ t, exec .gencode s = .next t ∧ Memory.read t.cbuf 0 = t.pad.setWidth 8 ∧
      (∀ k : Symbol, Memory.read t.cbuf (1 + 10 * k.val) = chr k ∧
        Memory.read t.cbuf (2 + 10 * k.val) = t.cb[k].len.setWidth 8 ∧
        ∀ j < 8, Memory.read t.cbuf (3 + 10 * k.val + j) = t.cb[k].val.extractLsb' (56 - 8 * j) 8) ∧
      (∀ a, 651 ≤ a → Memory.read t.cbuf a = Memory.read s.cbuf a) ∧ Memory.wf t.cbuf = true

/-- 44_unpack.md R224 (b): LOAD of the CBUF GENCODE wrote succeeds and reproduces its CB and PAD. -/
def Obligations.LoadAfterGencodeReproducesTheCodebook : Prop :=
  ∀ s : State, s.mode = .idle → s.tv = true → s.arena = buildArena s.w clearedArena → Memory.wf s.cbuf = true →
    ∃ t, exec .gencode s = .next t ∧ exec .load t = .next { t with ce := false }

/-! ### Packer -/

/-- 43_pack.md R200: PACK_BEGIN needs IDLE, CV and CE; it empties OFIFO and the pack counters and enters PACK. -/
def Obligations.PackBeginStartsAnEmptyPayload : Prop :=
  (∀ m : Mode, decode m (.write 0x004 0x00000040) = .ok .packBegin) ∧
  ∀ s : State,
    (s.mode = .error → exec .packBegin s = .next s) ∧
    (s.mode = .count ∨ s.mode = .pack ∨ s.mode = .unpack → Raises .packBegin s 0x00400102) ∧
    (s.mode = .idle → s.cv = false → Raises .packBegin s 0x00400402) ∧
    (s.mode = .idle → s.cv = true → s.ce = false → Raises .packBegin s 0x00400502) ∧
    (s.mode = .idle → s.cv = true → s.ce = true → exec .packBegin s =
      .next { s with ofifo := [], acc := 0, accn := 0, bitcnt := 0, pnsym := 0, dincnt := 0, ocnt := 0, mode := .pack })

/-- 43_pack.md R203, R201, R204: PACK_PUT appends the code's bits, first bit first, to the payload bits already in OFIFO and
ACC, and counts them; its checks come before, in order, and OFIFO cannot overflow. -/
def Obligations.PackPutAppendsTheCode : Prop :=
  (∀ v : Word, decode .pack (.write 0x010 v) = .ok (.packPut v)) ∧
  ∀ (s : State) (v : Word), s.mode = .pack →
    (8 < s.ofifo.length → Raises (.packPut v) s 0x01000005) ∧
    (s.ofifo.length ≤ 8 → idx (v.extractLsb' 0 8) = none →
      Raises (.packPut v) s (0x00000003 ||| (v.extractLsb' 0 8).setWidth 32 <<< 16)) ∧
    ∀ k : Symbol, s.ofifo.length ≤ 8 → idx (v.extractLsb' 0 8) = some k →
      (s.nsym.toNat ≤ s.pnsym.toNat → Raises (.packPut v) s (0x00000107 ||| BitVec.ofNat 32 k.val <<< 16)) ∧
      (s.pnsym.toNat < s.nsym.toNat → s.accn.toNat < 8 → ∃ t, exec (.packPut v) s = .next t ∧
        t = { s with ofifo := t.ofifo, ocnt := t.ocnt, acc := t.acc, accn := t.accn,
                     bitcnt := s.bitcnt + s.cb[k].len.setWidth 64, pnsym := s.pnsym + 1, dincnt := s.dincnt + 1 } ∧
        t.fifoBits ++ t.accBits = s.fifoBits ++ s.accBits ++ s.cb[k].bits ∧ t.accn.toNat < 8 ∧
        (∃ pushed, t.ofifo = s.ofifo ++ pushed ∧ t.ocnt = s.ocnt + BitVec.ofNat 32 pushed.length) ∧
        (s.cb[k].len.toNat ≤ 64 → t.ofifo.length ≤ s.ofifo.length + 8))

/-- 43_pack.md R206: PACK_END checks mode, space, symbol count and bit count in that order, then flushes the last bits with
zeros on the least significant end and returns to IDLE. -/
def Obligations.PackEndFlushesTheLastByte : Prop :=
  (∀ m : Mode, decode m (.write 0x004 0x00000041) = .ok .packEnd) ∧
  ∀ s : State,
    (s.mode = .error → exec .packEnd s = .next s) ∧
    (s.mode = .idle ∨ s.mode = .count ∨ s.mode = .unpack → Raises .packEnd s 0x00410102) ∧
    (s.mode = .pack → 8 < s.ofifo.length → Raises .packEnd s 0x00410005) ∧
    (s.mode = .pack → s.ofifo.length ≤ 8 → s.pnsym ≠ s.nsym → Raises .packEnd s 0x00410207) ∧
    (s.mode = .pack → s.ofifo.length ≤ 8 → s.pnsym = s.nsym → s.bitcnt.toNat ≠ s.totalbits.toNat →
      Raises .packEnd s 0x00410307) ∧
    (s.mode = .pack → s.ofifo.length ≤ 8 → s.pnsym = s.nsym → s.bitcnt.toNat = s.totalbits.toNat → s.accn.toNat < 8 →
      ∃ t, exec .packEnd s = .next t ∧
        t = { s with ofifo := t.ofifo, ocnt := t.ocnt, acc := 0, accn := 0, mode := .idle } ∧
        t.fifoBits = s.fifoBits ++ s.accBits ++ List.replicate ((8 - s.accn.toNat) % 8) false ∧
        ∃ pushed, t.ofifo = s.ofifo ++ pushed ∧ t.ocnt = s.ocnt + BitVec.ofNat 32 pushed.length)

/-- 43_pack.md R207, 30_encoding.md R110, R111: packing a text of the counted length and bit total delivers, byte by byte,
the codes of its symbols one after another, most significant bit first, and PAD zeros; OFIFO is drained after each
operation. -/
def Obligations.PackingDeliversThePayload : Prop :=
  ∀ (s : State) (text : List Symbol), s.mode = .idle → s.cv = true → s.ce = true →
    (∀ k : Symbol, s.cb[k].len.toNat ≤ 64) → s.nsym.toNat = text.length →
    s.totalbits.toNat = (textBits s.cb text).length → s.pad = padOf s.totalbits →
    ∃ t bytes, execDrained (packOps text) s = some (t, bytes) ∧ t.mode = .idle ∧ t.err = s.err ∧
      (bytes.flatMap fun b => firstBits b 8) = textBits s.cb text ++ List.replicate s.pad.toNat false ∧
      bytes.length = (s.totalbits.toNat + 7) / 8 ∧ t.ocnt = BitVec.ofNat 32 bytes.length

/-! ### Loader and unpacker -/

/-- 44_unpack.md R220, R223: in IDLE LOAD takes exactly the codebooks whose fields are in range and whose codes are
prefix-free, writing CB, PAD, CV and CE; any other CBUF is E_MALFORMED and changes only ERR and MODE. -/
def Obligations.LoadTakesExactlyValidCodebooks : Prop :=
  (∀ m : Mode, decode m (.write 0x004 0x00000050) = .ok .load) ∧
  ∀ s : State,
    (s.mode = .error → exec .load s = .next s) ∧
    (s.mode = .count ∨ s.mode = .pack ∨ s.mode = .unpack → Raises .load s 0x00500102) ∧
    (s.mode = .idle → CbufValid s.cbuf → ∃ t, exec .load s = .next t ∧
      t = { s with cb := t.cb, pad := t.pad, cv := true, ce := false } ∧
      t.pad.toNat = (Memory.read s.cbuf 0).toNat ∧ t.cb.valid ∧
      ∀ k : Symbol, t.cb[k].len.toNat = (Memory.read s.cbuf (2 + 10 * k.val)).toNat ∧
        ∀ j < 8, t.cb[k].val.extractLsb' (56 - 8 * j) 8 = Memory.read s.cbuf (3 + 10 * k.val + j)) ∧
    (s.mode = .idle → ¬ CbufValid s.cbuf → ∃ (sub : BitVec 8) (arg : BitVec 16), 1 ≤ sub.toNat ∧ sub.toNat ≤ 5 ∧
      Raises .load s (errWord 0x06 sub arg))

/-- 44_unpack.md R221, R222: what LOAD reports is the first failure: the header, then SYM, LEN, VAL of each record in turn,
then the pairs in lexicographic order. -/
def Obligations.LoadReportsTheFirstFailure : Prop :=
  ∀ s : State, s.mode = .idle →
    (7 < (Memory.read s.cbuf 0).toNat →
      Raises .load s (0x00000106 ||| (Memory.read s.cbuf 0).setWidth 32 <<< 16)) ∧
    ((Memory.read s.cbuf 0).toNat ≤ 7 →
      (∀ k : Symbol, (∀ j < k, RecordValid s.cbuf j) →
        (Memory.read s.cbuf (recordBase k) ≠ chr k →
          Raises .load s (0x00000206 ||| BitVec.ofNat 32 k.val <<< 16)) ∧
        (Memory.read s.cbuf (recordBase k) = chr k → ¬ (1 ≤ recordLen s.cbuf k ∧ recordLen s.cbuf k ≤ 64) →
          Raises .load s (0x00000306 ||| BitVec.ofNat 32 k.val <<< 16)) ∧
        (Memory.read s.cbuf (recordBase k) = chr k → (1 ≤ recordLen s.cbuf k ∧ recordLen s.cbuf k ≤ 64) →
          2 ^ recordLen s.cbuf k ≤ recordVal s.cbuf k →
          Raises .load s (0x00000406 ||| BitVec.ofNat 32 k.val <<< 16))) ∧
      ((∀ k : Symbol, RecordValid s.cbuf k) → ∀ i j : Symbol, i < j → RecordsClash s.cbuf i j →
        (∀ i' j' : Symbol, i' < j' → i' < i ∨ (i' = i ∧ j' < j) → ¬ RecordsClash s.cbuf i' j') →
        Raises .load s (0x00000506 ||| BitVec.ofNat 32 (i.val + 256 * j.val) <<< 16)))

/-- 44_unpack.md R225: UNPACK_BEGIN needs IDLE and CV; it empties OFIFO, the held byte, the walk and the counters and
enters UNPACK. -/
def Obligations.UnpackBeginStartsAtTheRoot : Prop :=
  (∀ m : Mode, decode m (.write 0x004 0x00000060) = .ok .unpackBegin) ∧
  ∀ s : State,
    (s.mode = .error → exec .unpackBegin s = .next s) ∧
    (s.mode = .count ∨ s.mode = .pack ∨ s.mode = .unpack → Raises .unpackBegin s 0x00600102) ∧
    (s.mode = .idle → s.cv = false → Raises .unpackBegin s 0x00600402) ∧
    (s.mode = .idle → s.cv = true → exec .unpackBegin s =
      .next { s with ofifo := [], pend := 0, pendv := false, curLen := 0, curVal := 0, bitcnt := 0, dincnt := 0,
                     ocnt := 0, mode := .unpack })

/-- 44_unpack.md R226, 60_exceptions.md R300: UNPACK_PUT walks the byte held before, if there is one, and holds the new
one; on a dead path the new byte is not held and DINCNT does not advance. -/
def Obligations.UnpackPutWalksTheHeldByte : Prop :=
  (∀ v : Word, decode .unpack (.write 0x010 v) = .ok (.unpackPut v)) ∧
  ∀ (s : State) (v : Word), s.mode = .unpack →
    (8 < s.ofifo.length → Raises (.unpackPut v) s 0x01000005) ∧
    (s.ofifo.length ≤ 8 → s.pendv = false → exec (.unpackPut v) s =
      .next { s with pend := v.extractLsb' 0 8, pendv := true, dincnt := s.dincnt + 1 }) ∧
    (s.ofifo.length ≤ 8 → s.pendv = true → ∀ t, walkByte s.pend 8 s = .going t → exec (.unpackPut v) s =
      .next { t with pend := v.extractLsb' 0 8, pendv := true, dincnt := s.dincnt + 1 }) ∧
    (s.ofifo.length ≤ 8 → s.pendv = true → ∀ t, walkByte s.pend 8 s = .stopped t →
      exec (.unpackPut v) s = .next t ∧ t.pend = s.pend ∧ t.pendv = true ∧ t.dincnt = s.dincnt)

/-- 44_unpack.md R228, R229: a byte is walked from its bit 7 down, up to the first error. One walked bit completes the code
of a symbol, which is pushed, the smallest index if there were several; or it is inside a longer code; or it raises
DEAD_PATH with ARG the new CUR_LEN. -/
def Obligations.WalkBitFollowsTheCodebook : Prop :=
  (∀ (b : Byte) (s : State), walkByte b 0 s = .going s ∧ ∀ n < 8,
    (∀ t, walkByte b n s = .going t → walkByte b (n + 1) s = walkBit (b.getLsbD (7 - n)) t) ∧
    (∀ t, walkByte b n s = .stopped t → walkByte b (n + 1) s = .stopped t)) ∧
  ∀ (s : State) (x : Bool), s.mode ≠ .error →
    let len : BitVec 7 := s.curLen + 1
    let val : BitVec 64 := s.curVal * 2 + (if x then 1 else 0)
    let begins : Prop := ∃ k : Symbol, len.toNat < s.cb[k].len.toNat ∧
      s.cb[k].val.toNat / 2 ^ (s.cb[k].len.toNat - len.toNat) = val.toNat
    (∀ k : Symbol, s.cb[k] = ⟨len, val⟩ → (∀ j < k, s.cb[j] ≠ ⟨len, val⟩) → walkBit x s =
      .going { s with curLen := 0, curVal := 0, bitcnt := s.bitcnt + 1, ofifo := s.ofifo ++ [chr k],
                      ocnt := s.ocnt + 1 }) ∧
    ((∀ k : Symbol, s.cb[k] ≠ ⟨len, val⟩) → begins → walkBit x s =
      .going { s with curLen := len, curVal := val, bitcnt := s.bitcnt + 1 }) ∧
    ((∀ k : Symbol, s.cb[k] ≠ ⟨len, val⟩) → ¬ begins → walkBit x s =
      .stopped { s with curLen := len, curVal := val, bitcnt := s.bitcnt + 1,
                        err := 0x00000606 ||| len.setWidth 32 <<< 16, mode := .error })

/-- 44_unpack.md R232: over a valid codebook the walk is that of a trie. From the root, the codes of any symbols and then the
bits of an inner position push those symbols and leave that position; one bit more that no code goes on with is a dead
path. -/
def Obligations.WalkIsTheTrieOfTheCodebook : Prop :=
  ∀ (s : State) (text : List Symbol) (rest : List Bool), s.cb.valid → s.mode ≠ .error → s.curLen = 0 → s.curVal = 0 →
    InnerPosition s.cb rest →
    (∃ t, walkBits (textBits s.cb text ++ rest) s = .going t ∧
      t = { s with ofifo := s.ofifo ++ text.map chr, ocnt := s.ocnt + BitVec.ofNat 32 text.length,
                   bitcnt := s.bitcnt + BitVec.ofNat 64 (textBits s.cb text ++ rest).length,
                   curLen := BitVec.ofNat 7 rest.length, curVal := BitVec.ofNat 64 (bitsValue rest) }) ∧
    (∀ (x : Bool) (more : List Bool), (∀ k : Symbol, ¬ (rest ++ [x]) <+: s.cb[k].bits) →
      ∃ t, walkBits (textBits s.cb text ++ rest ++ [x] ++ more) s = .stopped t ∧ t.mode = .error ∧
        t.err = 0x00000606 ||| BitVec.ofNat 32 (rest.length + 1) <<< 16 ∧ t.ofifo = s.ofifo ++ text.map chr ∧
        t.curLen.toNat = rest.length + 1)

/-- 44_unpack.md R230: UNPACK_END checks mode and space; with no byte held it needs PAD 0; else it walks 8 - PAD bits of the
held byte; the walk must end at the root; then MODE is IDLE. -/
def Obligations.UnpackEndWalksTheLastByte : Prop :=
  (∀ m : Mode, decode m (.write 0x004 0x00000061) = .ok .unpackEnd) ∧
  ∀ s : State,
    (s.mode = .error → exec .unpackEnd s = .next s) ∧
    (s.mode = .idle ∨ s.mode = .count ∨ s.mode = .pack → Raises .unpackEnd s 0x00610102) ∧
    (s.mode = .unpack → 8 < s.ofifo.length → Raises .unpackEnd s 0x00610005) ∧
    (s.mode = .unpack → s.ofifo.length ≤ 8 → s.pendv = false → s.pad ≠ 0 →
      Raises .unpackEnd s (0x00000806 ||| s.pad.setWidth 32 <<< 16)) ∧
    (s.mode = .unpack → s.ofifo.length ≤ 8 → s.pendv = false → s.pad = 0 → s.curLen ≠ 0 →
      Raises .unpackEnd s (0x00000706 ||| s.curLen.setWidth 32 <<< 16)) ∧
    (s.mode = .unpack → s.ofifo.length ≤ 8 → s.pendv = false → s.pad = 0 → s.curLen = 0 →
      exec .unpackEnd s = .next { s with mode := .idle }) ∧
    (s.mode = .unpack → s.ofifo.length ≤ 8 → s.pendv = true → ∀ t, walkByte s.pend (8 - s.pad.toNat) s = .stopped t →
      exec .unpackEnd s = .next t ∧ t.pendv = true) ∧
    (s.mode = .unpack → s.ofifo.length ≤ 8 → s.pendv = true → ∀ t, walkByte s.pend (8 - s.pad.toNat) s = .going t →
      (t.curLen ≠ 0 → exec .unpackEnd s =
        .next { t with pend := 0, pendv := false, err := 0x00000706 ||| t.curLen.setWidth 32 <<< 16, mode := .error }) ∧
      (t.curLen = 0 → exec .unpackEnd s = .next { t with pend := 0, pendv := false, mode := .idle }))

/-- 44_unpack.md R231: unpacking what packing delivered gives the text back. For every text whose counts are W, with the
codebook, TOTALBITS and PAD that GENCODE makes of W, the payload drained from PACK, fed to UNPACK, comes out as the
symbol bytes of the text, in order, without an error. -/
def Obligations.UnpackOfPackIsTheText : Prop :=
  ∀ (s : State) (text : List Symbol), s.mode = .idle → s.cv = true → s.ce = true →
    s.cb = codebookOf (buildArena s.w clearedArena) →
    s.totalbits = BitVec.ofNat 38 (payloadBits s.w (buildArena s.w clearedArena)) → s.pad = padOf s.totalbits →
    s.nsym.toNat = text.length → (∀ k : Symbol, s.w[k].toNat = text.count k) →
    ∃ t u bytes, execDrained (packOps text) s = some (t, bytes) ∧
      execDrained (unpackOps bytes) t = some (u, text.map chr) ∧ u.mode = .idle ∧ u.err = s.err ∧
      u.ocnt = BitVec.ofNat 32 text.length

/-- 44_unpack.md R231, for every text of at most 2^32 - 1 symbols: from any IDLE state with OFIFO drained, counting the text,
BUILD, GENCODE and packing it deliver a payload, and LOAD and unpacking that payload deliver the text. -/
def Obligations.DecodeOfEncodeIsTheText : Prop :=
  ∀ (s : State) (text : List Symbol), s.mode = .idle → s.ofifo = [] → Memory.wf s.cbuf = true → text.length < 2 ^ 32 →
    ∃ t u payload, execDrained (countOps text ++ [.build, .gencode] ++ packOps text) s = some (t, payload) ∧
      execDrained (.load :: unpackOps payload) t = some (u, text.map chr) ∧ u.mode = .idle ∧ u.err = s.err

/-! ### Bus accesses -/

/-- 46_bus_access.md R267: a DIN write is the data operation of the MODE: in IDLE E_SEQ with ARG 0x0100, in ERROR nothing,
else that of the run. -/
def Obligations.DinWriteIsTheOperationOfTheMode : Prop :=
  ∀ (s : State) (off : Offset) (v : Word), byteOffset (wordIndex off) = 0x010 →
    (s.mode = .idle → runTransaction (.write off v) s = exec (.putIdle v) s ∧ Raises (.putIdle v) s 0x01000102) ∧
    (s.mode = .error → runTransaction (.write off v) s = exec (.putErr v) s ∧ exec (.putErr v) s = .next s) ∧
    (s.mode = .count → runTransaction (.write off v) s = exec (.cntPut v) s) ∧
    (s.mode = .pack → runTransaction (.write off v) s = exec (.packPut v) s) ∧
    (s.mode = .unpack → runTransaction (.write off v) s = exec (.unpackPut v) s)

/-- 46_bus_access.md R266: RDREG returns the register's value, field by field, and changes nothing, in every MODE. -/
def Obligations.RdregReturnsTheRegister : Prop :=
  ∀ s : State,
    let returns : Reg → Word → Prop := fun r x => exec (.rdreg r) s = .next { s with returned := s.returned ++ [x] }
    returns .id 0x48554646 ∧ returns .err s.err ∧ returns .pad (s.pad.setWidth 32) ∧ returns .nsym s.nsym ∧
    returns .dincnt s.dincnt ∧ returns .ocnt s.ocnt ∧ returns .pnsym s.pnsym ∧
    (∀ k : Symbol, returns (.weight k.val) s.w[k]) ∧
    (∃ lo hi, returns .tbitsLo lo ∧ returns .tbitsHi hi ∧ s.totalbits.toNat = lo.toNat + 2 ^ 32 * hi.toNat) ∧
    (∃ lo hi, returns .bitcntLo lo ∧ returns .bitcntHi hi ∧ s.bitcnt.toNat = lo.toNat + 2 ^ 32 * hi.toNat) ∧
    (∃ x, returns .status x ∧
      x.extractLsb' 0 3 = (match s.mode with | .idle => 0 | .count => 1 | .pack => 2 | .unpack => 3 | .error => 7) ∧
      x.getLsbD 3 = s.wv ∧ x.getLsbD 4 = s.tv ∧ x.getLsbD 5 = s.cv ∧ x.getLsbD 6 = s.ce ∧
      x.getLsbD 7 = decide (s.mode = .error) ∧ x.getLsbD 8 = decide (s.ofifo.length ≤ 8) ∧
      x.getLsbD 9 = decide (s.ofifo ≠ []) ∧ x.extractLsb' 10 6 = 0 ∧
      x.extractLsb' 16 16 = BitVec.ofNat 16 s.ofifo.length) ∧
    (∃ x, returns .dbg x ∧ x.extractLsb' 0 7 = s.curLen ∧ x.getLsbD 7 = false ∧
      (s.accn.toNat < 8 → x.extractLsb' 8 3 = s.accn.setWidth 3 ∧ x.getLsbD 11 = s.pendv) ∧ x.extractLsb' 12 4 = 0 ∧
      x.extractLsb' 16 8 = s.acc ∧ x.extractLsb' 24 8 = s.pend)

/-- 46_bus_access.md R268: GET pops OFIFO's head and returns it with bit 8 set, or returns 0 when OFIFO is empty; nothing
else changes, in every MODE. -/
def Obligations.GetPopsTheHead : Prop :=
  ∀ s : State,
    (s.ofifo = [] → exec .get s = .next { s with returned := s.returned ++ [0x00000000] }) ∧
    (∀ b rest, s.ofifo = b :: rest → exec .get s =
      .next { s with ofifo := rest, returned := s.returned ++ [0x00000100 ||| b.setWidth 32] })

/-- 46_bus_access.md R270, R271: CBWR stores v[7:0] in CBUF[i], every other byte reads as before, and nothing else changes;
CBRD returns a byte and changes nothing. -/
def Obligations.CbufReadsWhatWasWritten : Prop :=
  ∀ (s : State) (i : Nat) (v : Word), i ≤ 650 →
    exec (.cbrd i) s = .next { s with returned := s.returned ++ [(Memory.read s.cbuf i).setWidth 32] } ∧
    ∃ t, exec (.cbwr i v) s = .next t ∧ t = { s with cbuf := t.cbuf } ∧
      (∀ a, a ≠ i → Memory.read t.cbuf a = Memory.read s.cbuf a) ∧
      (Memory.wf s.cbuf = true → Memory.wf t.cbuf = true ∧ Memory.read t.cbuf i = v.extractLsb' 0 8)

/-- 46_bus_access.md R272, R273: a WRIGN changes nothing, and an RDZERO returns 0 and changes nothing. -/
def Obligations.IgnoredAccessesChangeNothing : Prop :=
  ∀ (s : State) (a : WordIndex) (v : Word),
    exec (.wrign a v) s = .next s ∧ exec (.rdzero a) s = .next { s with returned := s.returned ++ [0x00000000] }

/-- 20_memory.md R82: a read of any offset but DOUT's has no side effect: it returns one value and changes nothing. -/
def Obligations.ReadsButDoutHaveNoSideEffect : Prop :=
  ∀ (s : State) (off : Offset), byteOffset (wordIndex off) ≠ 0x014 →
    ∃ v, runTransaction (.read off) s = .next { s with returned := s.returned ++ [v] }

/-! ### Rules of the whole machine -/

/-- 10_state.md R46: beside CNT_BEGIN and SRST, W is written only by DIN writes in COUNT, one entry by one: that of the byte
written. The DIN operation that COUNT selects is CNT_PUT; that the others, which no step runs in COUNT, count there too is
the model's choice, log 6. -/
def Obligations.OnlyCountingWritesWeights : Prop :=
  ∀ (i : Instr) (s t : State), exec i s = .next t → i ≠ .cntBegin → i ≠ .srst →
    t.w = s.w ∨ (s.mode = .count ∧ ∃ (v : Word) (k : Symbol),
      (i = .cntPut v ∨ i = .packPut v ∨ i = .unpackPut v ∨ i = .putIdle v ∨ i = .putErr v) ∧
      (i.selectedIn s.mode = true → i = .cntPut v) ∧ idx (v.extractLsb' 0 8) = some k ∧
      t.w[k] = s.w[k] + 1 ∧ ∀ j : Symbol, j ≠ k → t.w[j] = s.w[j])

/-- 10_state.md R25 to R28: which operations set and clear WV, TV, CV and CE; no other writes them. -/
def Obligations.FlagsHaveTheirWritersOnly : Prop :=
  ∀ (i : Instr) (s t : State), exec i s = .next t → i ≠ .srst → i ≠ .cntBegin →
    (t.wv = s.wv ∨ (i = .cntEnd ∧ t.wv = true)) ∧
    (t.tv = s.tv ∨ (i = .build ∧ t.tv = true) ∨ (i = .teardown ∧ t.tv = false)) ∧
    (t.cv = s.cv ∨ ((i = .gencode ∨ i = .load) ∧ t.cv = true)) ∧
    (t.ce = s.ce ∨ (i = .gencode ∧ t.ce = true) ∨ (i = .load ∧ t.ce = false))

/-- 60_exceptions.md R305: an error stays until SRST or the reset line; while MODE is ERROR no step changes ERR or leaves
ERROR but those. -/
def Obligations.ErrorStaysUntilReset : Prop :=
  ∀ s t : State, s.mode = .error → step s = .next t →
    (t.mode = .error ∧ t.err = s.err) ∨
      (HasResetValues t ∧ ((∃ off rest, s.pending = .bus (.write off 0x00000001) :: rest ∧
        byteOffset (wordIndex off) = 0x004) ∨ ∃ rest, s.pending = .resetRise :: rest))

/-- 10_state.md R55: the bytes of CBUF are changed by a CBUF write, at its index alone, by GENCODE, within the 651 bytes,
and by SRST; by nothing else. -/
def Obligations.CbufHasItsWritersOnly : Prop :=
  ∀ (i : Instr) (s t : State), exec i s = .next t → i ≠ .srst → ∀ a : Nat,
    Memory.read t.cbuf a = Memory.read s.cbuf a ∨ (i = .gencode ∧ a ≤ 650) ∨ ∃ v, i = .cbwr a v ∧ a ≤ 650

/-- 60_exceptions.md R300 (a): an operation that raises an error other than E_MALFORMED sub 6 and sub 7 changes ERR and MODE
only. -/
def Obligations.FailedChecksChangeOnlyErrAndMode : Prop :=
  ∀ (i : Instr) (s t : State), exec i s = .next t → s.mode ≠ .error → t.mode = .error →
    t.err.extractLsb' 0 16 ≠ 0x0606 → t.err.extractLsb' 0 16 ≠ 0x0706 → t = { s with err := t.err, mode := .error }

/-! ### Invariants -/

/-- The reset state meets every invariant. -/
def Obligations.ResetMeetsTheInvariants : Prop := Inv State.reset

/-- 10_state.md R29: every step keeps the flags in agreement. -/
def Obligations.StepsKeepFlagsAgreeing : Prop :=
  ∀ s t : State, FlagsAgree s → step s = .next t → FlagsAgree t

/-- 10_state.md R35: every step keeps NSYM the sum of W. -/
def Obligations.StepsKeepNsymTheSumOfWeights : Prop :=
  ∀ s t : State, CountAgrees s → step s = .next t → CountAgrees t

/-- 10_state.md R26, R42: every step keeps the arena what TV says it is. -/
def Obligations.StepsKeepTheTreeThatOfTheWeights : Prop :=
  ∀ s t : State, TreeAgrees s → step s = .next t → TreeAgrees t

/-- 10_state.md R28: every step keeps CB, TOTALBITS and PAD computed from W while CE is 1. -/
def Obligations.StepsKeepTheEncodeCodebook : Prop :=
  ∀ s t : State, TreeAgrees s → EncodeAgrees s → step s = .next t → EncodeAgrees t

/-- 10_state.md R50, R51: every step keeps CB a valid codebook while CV is 1, and cleared while it is 0. -/
def Obligations.StepsKeepTheCodebookValid : Prop :=
  ∀ s t : State, TreeAgrees s → CodebookAgrees s → step s = .next t → CodebookAgrees t

/-- 10_state.md R56, R57; 43_pack.md R202: no step overfills OFIFO or the accumulator, or packs more symbols than counted. -/
def Obligations.StepsKeepTheFifoBounded : Prop :=
  ∀ s t : State, FifoBounded s → step s = .next t → FifoBounded t

/-- 10_state.md R58, R59; 44_unpack.md R228: every step keeps the walk at a position of the codebook. -/
def Obligations.StepsKeepTheWalkBounded : Prop :=
  ∀ s t : State, WalkBounded s → step s = .next t → WalkBounded t

/-- 10_state.md R31, 60_exceptions.md R290: every step keeps ERR 0 outside ERROR and one of the eight codes in it. -/
def Obligations.StepsKeepErrAgreeingWithMode : Prop :=
  ∀ s t : State, ErrorAgrees s → step s = .next t → ErrorAgrees t

/-- 10_state.md R55: every step keeps CBUF canonical and within its 651 bytes. -/
def Obligations.StepsKeepCbufCanonical : Prop :=
  ∀ s t : State, CbufCanonical s → step s = .next t → CbufCanonical t
end

