-- ==== Sys2Proof/Laws/Memory.lean ====
section
/-! SUPPORT. CBUF as a memory: what is read after a write, and the canonical form kept by every write. -/

namespace Sys2Proof.Machine

@[simp] theorem Memory.read_nil (a : Nat) : Memory.read [] a = Memory.unlisted := rfl

@[simp] theorem Memory.wf_nil : Memory.wf [] = true := rfl

/-- Canonical form, said of the first cell and the rest. -/
theorem Memory.wf_cons {a : Nat} {x : Byte} {m : Memory} :
    Memory.wf ((a, x) :: m) = true ↔ x ≠ Memory.unlisted ∧ (∀ c ∈ m.head?, a < c.1) ∧ Memory.wf m = true := by
  cases m with
  | nil => simp [Memory.wf]
  | cons c m => obtain ⟨b, y⟩ := c; simp [Memory.wf, and_assoc]

/-- In canonical form every later address is above the first. -/
theorem Memory.wf_lt {a : Nat} {x : Byte} {m : Memory} (h : Memory.wf ((a, x) :: m) = true) : ∀ c ∈ m, a < c.1 := by
  induction m generalizing a x with
  | nil => simp
  | cons c m ih =>
    obtain ⟨b, y⟩ := c
    obtain ⟨-, hb, hm⟩ := Memory.wf_cons.1 h
    have hab : a < b := hb (b, y) (by simp)
    intro c hc
    rcases List.mem_cons.1 hc with rfl | hc
    · exact hab
    · exact hab.trans (ih hm c hc)

/-- An address that no cell has reads as an unlisted one. -/
theorem Memory.read_eq_unlisted {m : Memory} {a : Nat} (h : ∀ c ∈ m, c.1 ≠ a) : Memory.read m a = Memory.unlisted := by
  induction m with
  | nil => rfl
  | cons c m ih =>
    obtain ⟨b, y⟩ := c
    have hb : b ≠ a := h (b, y) (by simp)
    simp only [Memory.read, if_neg hb]
    exact ih fun c hc => h c (List.mem_cons_of_mem _ hc)

/-- A byte reads as it was last written. -/
theorem Memory.read_write_same {m : Memory} (h : Memory.wf m = true) (a : Nat) (v : Byte) :
    Memory.read (Memory.write m a v) a = v := by
  induction m with
  | nil => by_cases hv : v = Memory.unlisted <;> simp [Memory.write, Memory.read, hv]
  | cons c m ih =>
    obtain ⟨b, y⟩ := c
    have hlt := Memory.wf_lt h
    obtain ⟨-, -, hm⟩ := Memory.wf_cons.1 h
    rcases Nat.lt_trichotomy a b with hab | rfl | hab
    · by_cases hv : v = Memory.unlisted
      · simp only [Memory.write, if_pos hab, if_pos hv]
        rw [Memory.read_eq_unlisted, hv]
        intro c hc
        rcases List.mem_cons.1 hc with rfl | hc
        · exact hab.ne'
        · exact (hab.trans (hlt c hc)).ne'
      · simp [Memory.write, Memory.read, hab, hv]
    · by_cases hv : v = Memory.unlisted
      · simp only [Memory.write, lt_irrefl, if_false, if_true, if_pos hv]
        rw [Memory.read_eq_unlisted, hv]
        exact fun c hc => (hlt c hc).ne'
      · simp [Memory.write, Memory.read, hv]
    · simp [Memory.write, Memory.read, hab.not_gt, hab.ne', hab.ne, ih hm]

/-- A write leaves every other byte alone. -/
theorem Memory.read_write_other {m : Memory} {a b : Nat} (v : Byte) (hab : b ≠ a) :
    Memory.read (Memory.write m a v) b = Memory.read m b := by
  induction m with
  | nil => by_cases hv : v = Memory.unlisted <;> simp [Memory.write, Memory.read, hv, hab.symm]
  | cons c m ih =>
    obtain ⟨d, y⟩ := c
    unfold Memory.write
    split
    · split
      · rfl
      · simp [Memory.read, hab.symm]
    · split
      · next heq =>
        subst heq
        split <;> simp [Memory.read, hab.symm]
      · simp [Memory.read, ih]

/-- Every cell of a written memory was there, or is the one written. -/
theorem Memory.mem_write {m : Memory} {a : Nat} {v : Byte} {c : Host.Cell} (h : c ∈ Memory.write m a v) :
    c ∈ m ∨ c = (a, v) := by
  induction m with
  | nil => unfold Memory.write at h; split at h <;> simp_all
  | cons d m ih =>
    obtain ⟨b, y⟩ := d
    unfold Memory.write at h
    split at h
    · split at h
      · exact .inl h
      · rcases List.mem_cons.1 h with rfl | h
        · exact .inr rfl
        · exact .inl h
    · split at h
      · split at h
        · exact .inl (List.mem_cons_of_mem _ h)
        · rcases List.mem_cons.1 h with rfl | h
          · exact .inr rfl
          · exact .inl (List.mem_cons_of_mem _ h)
      · rcases List.mem_cons.1 h with rfl | h
        · exact .inl (by simp)
        · exact (ih h).imp_left (List.mem_cons_of_mem _)

/-- A write keeps the canonical form. -/
theorem Memory.wf_write {m : Memory} (h : Memory.wf m = true) (a : Nat) (v : Byte) :
    Memory.wf (Memory.write m a v) = true := by
  induction m with
  | nil =>
    unfold Memory.write
    split
    · rfl
    · next hv => simpa [Memory.wf] using hv
  | cons c m ih =>
    obtain ⟨b, y⟩ := c
    obtain ⟨hy, hb, hm⟩ := Memory.wf_cons.1 h
    have hlt := Memory.wf_lt h
    unfold Memory.write
    split
    · next hab =>
      split
      · exact h
      · next hv => exact Memory.wf_cons.2 ⟨hv, by simpa using hab, h⟩
    · split
      · next hnab heq =>
        subst heq
        split
        · exact hm
        · next hv => exact Memory.wf_cons.2 ⟨hv, hb, hm⟩
      · next hnab hne =>
        refine Memory.wf_cons.2 ⟨hy, ?_, ih hm⟩
        intro c hc
        rcases Memory.mem_write (List.mem_of_mem_head? hc) with hc | rfl
        · exact hlt c hc
        · exact lt_of_le_of_ne (not_lt.1 hnab) (Ne.symm hne)

/-- Bytes written one after another keep the canonical form. -/
theorem Memory.wf_writeFrom {m : Memory} (h : Memory.wf m = true) (a : Nat) (vs : List Byte) :
    Memory.wf (Memory.writeFrom a vs m) = true := by
  induction vs generalizing m a with
  | nil => exact h
  | cons v vs ih => exact ih (Memory.wf_write h a v) (a + 1)

/-- Below and above the bytes written one after another, nothing changes. -/
theorem Memory.read_writeFrom_outside (m : Memory) (a b : Nat) (vs : List Byte) (h : b < a ∨ a + vs.length ≤ b) :
    Memory.read (Memory.writeFrom a vs m) b = Memory.read m b := by
  induction vs generalizing m a with
  | nil => rfl
  | cons v vs ih =>
    rw [List.length_cons] at h
    rw [Memory.writeFrom, ih _ _ (by omega), Memory.read_write_other v (by omega)]

/-- Byte i of the bytes written one after another reads back. -/
theorem Memory.read_writeFrom_inside {m : Memory} (h : Memory.wf m = true) (a i : Nat) (vs : List Byte)
    (hi : i < vs.length) : Memory.read (Memory.writeFrom a vs m) (a + i) = vs[i] := by
  induction vs generalizing m a i with
  | nil => simp at hi
  | cons v vs ih =>
    cases i with
    | zero =>
      rw [Memory.writeFrom, Memory.read_writeFrom_outside _ _ _ _ (by omega)]
      exact Memory.read_write_same h a v
    | succ i =>
      rw [Memory.writeFrom, show a + (i + 1) = a + 1 + i by omega]
      simpa using ih (Memory.wf_write h a v) (a + 1) i (by simpa using hi)

/-- Every cell after bytes written one after another was there, or lies among them. -/
theorem Memory.mem_writeFrom {m : Memory} {a : Nat} {vs : List Byte} {c : Host.Cell}
    (h : c ∈ Memory.writeFrom a vs m) : c ∈ m ∨ (a ≤ c.1 ∧ c.1 < a + vs.length) := by
  induction vs generalizing m a with
  | nil => exact .inl h
  | cons v vs ih =>
    rw [List.length_cons]
    rcases ih h with h | h
    · rcases Memory.mem_write h with h | rfl
      · exact .inl h
      · exact .inr ⟨le_rfl, by simp⟩
    · exact .inr (by omega)

end Sys2Proof.Machine
end

