-- ==== Sys2Proof/Laws/State.lean ====
section
/-! SUPPORT. What each named update does to each field of the state: one lemma per field per update. -/

namespace Sys2Proof.Machine

@[simp] theorem State.push_mode (b : Byte) (s : State) : (s.push b).mode = s.mode := rfl
@[simp] theorem State.push_wv (b : Byte) (s : State) : (s.push b).wv = s.wv := rfl
@[simp] theorem State.push_tv (b : Byte) (s : State) : (s.push b).tv = s.tv := rfl
@[simp] theorem State.push_cv (b : Byte) (s : State) : (s.push b).cv = s.cv := rfl
@[simp] theorem State.push_ce (b : Byte) (s : State) : (s.push b).ce = s.ce := rfl
@[simp] theorem State.push_err (b : Byte) (s : State) : (s.push b).err = s.err := rfl
@[simp] theorem State.push_pad (b : Byte) (s : State) : (s.push b).pad = s.pad := rfl
@[simp] theorem State.push_nsym (b : Byte) (s : State) : (s.push b).nsym = s.nsym := rfl
@[simp] theorem State.push_totalbits (b : Byte) (s : State) : (s.push b).totalbits = s.totalbits := rfl
@[simp] theorem State.push_bitcnt (b : Byte) (s : State) : (s.push b).bitcnt = s.bitcnt := rfl
@[simp] theorem State.push_dincnt (b : Byte) (s : State) : (s.push b).dincnt = s.dincnt := rfl
@[simp] theorem State.push_pnsym (b : Byte) (s : State) : (s.push b).pnsym = s.pnsym := rfl
@[simp] theorem State.push_ocnt (b : Byte) (s : State) : (s.push b).ocnt = s.ocnt + 1 := rfl
@[simp] theorem State.push_w (b : Byte) (s : State) : (s.push b).w = s.w := rfl
@[simp] theorem State.push_arena (b : Byte) (s : State) : (s.push b).arena = s.arena := rfl
@[simp] theorem State.push_cb (b : Byte) (s : State) : (s.push b).cb = s.cb := rfl
@[simp] theorem State.push_cbuf (b : Byte) (s : State) : (s.push b).cbuf = s.cbuf := rfl
@[simp] theorem State.push_ofifo (b : Byte) (s : State) : (s.push b).ofifo = s.ofifo ++ [b] := rfl
@[simp] theorem State.push_acc (b : Byte) (s : State) : (s.push b).acc = s.acc := rfl
@[simp] theorem State.push_accn (b : Byte) (s : State) : (s.push b).accn = s.accn := rfl
@[simp] theorem State.push_pend (b : Byte) (s : State) : (s.push b).pend = s.pend := rfl
@[simp] theorem State.push_pendv (b : Byte) (s : State) : (s.push b).pendv = s.pendv := rfl
@[simp] theorem State.push_curLen (b : Byte) (s : State) : (s.push b).curLen = s.curLen := rfl
@[simp] theorem State.push_curVal (b : Byte) (s : State) : (s.push b).curVal = s.curVal := rfl
@[simp] theorem State.push_rstN (b : Byte) (s : State) : (s.push b).rstN = s.rstN := rfl
@[simp] theorem State.push_pending (b : Byte) (s : State) : (s.push b).pending = s.pending := rfl
@[simp] theorem State.push_returned (b : Byte) (s : State) : (s.push b).returned = s.returned := rfl

@[simp] theorem State.countDin_mode (s : State) : s.countDin.mode = s.mode := rfl
@[simp] theorem State.countDin_wv (s : State) : s.countDin.wv = s.wv := rfl
@[simp] theorem State.countDin_tv (s : State) : s.countDin.tv = s.tv := rfl
@[simp] theorem State.countDin_cv (s : State) : s.countDin.cv = s.cv := rfl
@[simp] theorem State.countDin_ce (s : State) : s.countDin.ce = s.ce := rfl
@[simp] theorem State.countDin_err (s : State) : s.countDin.err = s.err := rfl
@[simp] theorem State.countDin_pad (s : State) : s.countDin.pad = s.pad := rfl
@[simp] theorem State.countDin_nsym (s : State) : s.countDin.nsym = s.nsym := rfl
@[simp] theorem State.countDin_totalbits (s : State) : s.countDin.totalbits = s.totalbits := rfl
@[simp] theorem State.countDin_bitcnt (s : State) : s.countDin.bitcnt = s.bitcnt := rfl
@[simp] theorem State.countDin_dincnt (s : State) : s.countDin.dincnt = s.dincnt + 1 := rfl
@[simp] theorem State.countDin_pnsym (s : State) : s.countDin.pnsym = s.pnsym := rfl
@[simp] theorem State.countDin_ocnt (s : State) : s.countDin.ocnt = s.ocnt := rfl
@[simp] theorem State.countDin_w (s : State) : s.countDin.w = s.w := rfl
@[simp] theorem State.countDin_arena (s : State) : s.countDin.arena = s.arena := rfl
@[simp] theorem State.countDin_cb (s : State) : s.countDin.cb = s.cb := rfl
@[simp] theorem State.countDin_cbuf (s : State) : s.countDin.cbuf = s.cbuf := rfl
@[simp] theorem State.countDin_ofifo (s : State) : s.countDin.ofifo = s.ofifo := rfl
@[simp] theorem State.countDin_acc (s : State) : s.countDin.acc = s.acc := rfl
@[simp] theorem State.countDin_accn (s : State) : s.countDin.accn = s.accn := rfl
@[simp] theorem State.countDin_pend (s : State) : s.countDin.pend = s.pend := rfl
@[simp] theorem State.countDin_pendv (s : State) : s.countDin.pendv = s.pendv := rfl
@[simp] theorem State.countDin_curLen (s : State) : s.countDin.curLen = s.curLen := rfl
@[simp] theorem State.countDin_curVal (s : State) : s.countDin.curVal = s.curVal := rfl
@[simp] theorem State.countDin_rstN (s : State) : s.countDin.rstN = s.rstN := rfl
@[simp] theorem State.countDin_pending (s : State) : s.countDin.pending = s.pending := rfl
@[simp] theorem State.countDin_returned (s : State) : s.countDin.returned = s.returned := rfl

@[simp] theorem State.answer_mode (v : Word) (s : State) : (s.answer v).mode = s.mode := rfl
@[simp] theorem State.answer_wv (v : Word) (s : State) : (s.answer v).wv = s.wv := rfl
@[simp] theorem State.answer_tv (v : Word) (s : State) : (s.answer v).tv = s.tv := rfl
@[simp] theorem State.answer_cv (v : Word) (s : State) : (s.answer v).cv = s.cv := rfl
@[simp] theorem State.answer_ce (v : Word) (s : State) : (s.answer v).ce = s.ce := rfl
@[simp] theorem State.answer_err (v : Word) (s : State) : (s.answer v).err = s.err := rfl
@[simp] theorem State.answer_pad (v : Word) (s : State) : (s.answer v).pad = s.pad := rfl
@[simp] theorem State.answer_nsym (v : Word) (s : State) : (s.answer v).nsym = s.nsym := rfl
@[simp] theorem State.answer_totalbits (v : Word) (s : State) : (s.answer v).totalbits = s.totalbits := rfl
@[simp] theorem State.answer_bitcnt (v : Word) (s : State) : (s.answer v).bitcnt = s.bitcnt := rfl
@[simp] theorem State.answer_dincnt (v : Word) (s : State) : (s.answer v).dincnt = s.dincnt := rfl
@[simp] theorem State.answer_pnsym (v : Word) (s : State) : (s.answer v).pnsym = s.pnsym := rfl
@[simp] theorem State.answer_ocnt (v : Word) (s : State) : (s.answer v).ocnt = s.ocnt := rfl
@[simp] theorem State.answer_w (v : Word) (s : State) : (s.answer v).w = s.w := rfl
@[simp] theorem State.answer_arena (v : Word) (s : State) : (s.answer v).arena = s.arena := rfl
@[simp] theorem State.answer_cb (v : Word) (s : State) : (s.answer v).cb = s.cb := rfl
@[simp] theorem State.answer_cbuf (v : Word) (s : State) : (s.answer v).cbuf = s.cbuf := rfl
@[simp] theorem State.answer_ofifo (v : Word) (s : State) : (s.answer v).ofifo = s.ofifo := rfl
@[simp] theorem State.answer_acc (v : Word) (s : State) : (s.answer v).acc = s.acc := rfl
@[simp] theorem State.answer_accn (v : Word) (s : State) : (s.answer v).accn = s.accn := rfl
@[simp] theorem State.answer_pend (v : Word) (s : State) : (s.answer v).pend = s.pend := rfl
@[simp] theorem State.answer_pendv (v : Word) (s : State) : (s.answer v).pendv = s.pendv := rfl
@[simp] theorem State.answer_curLen (v : Word) (s : State) : (s.answer v).curLen = s.curLen := rfl
@[simp] theorem State.answer_curVal (v : Word) (s : State) : (s.answer v).curVal = s.curVal := rfl
@[simp] theorem State.answer_rstN (v : Word) (s : State) : (s.answer v).rstN = s.rstN := rfl
@[simp] theorem State.answer_pending (v : Word) (s : State) : (s.answer v).pending = s.pending := rfl
@[simp] theorem State.answer_returned (v : Word) (s : State) : (s.answer v).returned = s.returned ++ [v] := rfl

@[simp] theorem State.take_mode (rest : List Event) (s : State) : (s.take rest).mode = s.mode := rfl
@[simp] theorem State.take_wv (rest : List Event) (s : State) : (s.take rest).wv = s.wv := rfl
@[simp] theorem State.take_tv (rest : List Event) (s : State) : (s.take rest).tv = s.tv := rfl
@[simp] theorem State.take_cv (rest : List Event) (s : State) : (s.take rest).cv = s.cv := rfl
@[simp] theorem State.take_ce (rest : List Event) (s : State) : (s.take rest).ce = s.ce := rfl
@[simp] theorem State.take_err (rest : List Event) (s : State) : (s.take rest).err = s.err := rfl
@[simp] theorem State.take_pad (rest : List Event) (s : State) : (s.take rest).pad = s.pad := rfl
@[simp] theorem State.take_nsym (rest : List Event) (s : State) : (s.take rest).nsym = s.nsym := rfl
@[simp] theorem State.take_totalbits (rest : List Event) (s : State) : (s.take rest).totalbits = s.totalbits := rfl
@[simp] theorem State.take_bitcnt (rest : List Event) (s : State) : (s.take rest).bitcnt = s.bitcnt := rfl
@[simp] theorem State.take_dincnt (rest : List Event) (s : State) : (s.take rest).dincnt = s.dincnt := rfl
@[simp] theorem State.take_pnsym (rest : List Event) (s : State) : (s.take rest).pnsym = s.pnsym := rfl
@[simp] theorem State.take_ocnt (rest : List Event) (s : State) : (s.take rest).ocnt = s.ocnt := rfl
@[simp] theorem State.take_w (rest : List Event) (s : State) : (s.take rest).w = s.w := rfl
@[simp] theorem State.take_arena (rest : List Event) (s : State) : (s.take rest).arena = s.arena := rfl
@[simp] theorem State.take_cb (rest : List Event) (s : State) : (s.take rest).cb = s.cb := rfl
@[simp] theorem State.take_cbuf (rest : List Event) (s : State) : (s.take rest).cbuf = s.cbuf := rfl
@[simp] theorem State.take_ofifo (rest : List Event) (s : State) : (s.take rest).ofifo = s.ofifo := rfl
@[simp] theorem State.take_acc (rest : List Event) (s : State) : (s.take rest).acc = s.acc := rfl
@[simp] theorem State.take_accn (rest : List Event) (s : State) : (s.take rest).accn = s.accn := rfl
@[simp] theorem State.take_pend (rest : List Event) (s : State) : (s.take rest).pend = s.pend := rfl
@[simp] theorem State.take_pendv (rest : List Event) (s : State) : (s.take rest).pendv = s.pendv := rfl
@[simp] theorem State.take_curLen (rest : List Event) (s : State) : (s.take rest).curLen = s.curLen := rfl
@[simp] theorem State.take_curVal (rest : List Event) (s : State) : (s.take rest).curVal = s.curVal := rfl
@[simp] theorem State.take_rstN (rest : List Event) (s : State) : (s.take rest).rstN = s.rstN := rfl
@[simp] theorem State.take_pending (rest : List Event) (s : State) : (s.take rest).pending = rest := rfl
@[simp] theorem State.take_returned (rest : List Event) (s : State) : (s.take rest).returned = s.returned := rfl

@[simp] theorem State.resetFall_mode (s : State) : s.resetFall.mode = s.mode := rfl
@[simp] theorem State.resetFall_wv (s : State) : s.resetFall.wv = s.wv := rfl
@[simp] theorem State.resetFall_tv (s : State) : s.resetFall.tv = s.tv := rfl
@[simp] theorem State.resetFall_cv (s : State) : s.resetFall.cv = s.cv := rfl
@[simp] theorem State.resetFall_ce (s : State) : s.resetFall.ce = s.ce := rfl
@[simp] theorem State.resetFall_err (s : State) : s.resetFall.err = s.err := rfl
@[simp] theorem State.resetFall_pad (s : State) : s.resetFall.pad = s.pad := rfl
@[simp] theorem State.resetFall_nsym (s : State) : s.resetFall.nsym = s.nsym := rfl
@[simp] theorem State.resetFall_totalbits (s : State) : s.resetFall.totalbits = s.totalbits := rfl
@[simp] theorem State.resetFall_bitcnt (s : State) : s.resetFall.bitcnt = s.bitcnt := rfl
@[simp] theorem State.resetFall_dincnt (s : State) : s.resetFall.dincnt = s.dincnt := rfl
@[simp] theorem State.resetFall_pnsym (s : State) : s.resetFall.pnsym = s.pnsym := rfl
@[simp] theorem State.resetFall_ocnt (s : State) : s.resetFall.ocnt = s.ocnt := rfl
@[simp] theorem State.resetFall_w (s : State) : s.resetFall.w = s.w := rfl
@[simp] theorem State.resetFall_arena (s : State) : s.resetFall.arena = s.arena := rfl
@[simp] theorem State.resetFall_cb (s : State) : s.resetFall.cb = s.cb := rfl
@[simp] theorem State.resetFall_cbuf (s : State) : s.resetFall.cbuf = s.cbuf := rfl
@[simp] theorem State.resetFall_ofifo (s : State) : s.resetFall.ofifo = s.ofifo := rfl
@[simp] theorem State.resetFall_acc (s : State) : s.resetFall.acc = s.acc := rfl
@[simp] theorem State.resetFall_accn (s : State) : s.resetFall.accn = s.accn := rfl
@[simp] theorem State.resetFall_pend (s : State) : s.resetFall.pend = s.pend := rfl
@[simp] theorem State.resetFall_pendv (s : State) : s.resetFall.pendv = s.pendv := rfl
@[simp] theorem State.resetFall_curLen (s : State) : s.resetFall.curLen = s.curLen := rfl
@[simp] theorem State.resetFall_curVal (s : State) : s.resetFall.curVal = s.curVal := rfl
@[simp] theorem State.resetFall_rstN (s : State) : s.resetFall.rstN = false := rfl
@[simp] theorem State.resetFall_pending (s : State) : s.resetFall.pending = s.pending := rfl
@[simp] theorem State.resetFall_returned (s : State) : s.resetFall.returned = s.returned := rfl

@[simp] theorem State.present_mode (t : Transaction) (s : State) : (s.present t).mode = s.mode := rfl
@[simp] theorem State.present_wv (t : Transaction) (s : State) : (s.present t).wv = s.wv := rfl
@[simp] theorem State.present_tv (t : Transaction) (s : State) : (s.present t).tv = s.tv := rfl
@[simp] theorem State.present_cv (t : Transaction) (s : State) : (s.present t).cv = s.cv := rfl
@[simp] theorem State.present_ce (t : Transaction) (s : State) : (s.present t).ce = s.ce := rfl
@[simp] theorem State.present_err (t : Transaction) (s : State) : (s.present t).err = s.err := rfl
@[simp] theorem State.present_pad (t : Transaction) (s : State) : (s.present t).pad = s.pad := rfl
@[simp] theorem State.present_nsym (t : Transaction) (s : State) : (s.present t).nsym = s.nsym := rfl
@[simp] theorem State.present_totalbits (t : Transaction) (s : State) : (s.present t).totalbits = s.totalbits := rfl
@[simp] theorem State.present_bitcnt (t : Transaction) (s : State) : (s.present t).bitcnt = s.bitcnt := rfl
@[simp] theorem State.present_dincnt (t : Transaction) (s : State) : (s.present t).dincnt = s.dincnt := rfl
@[simp] theorem State.present_pnsym (t : Transaction) (s : State) : (s.present t).pnsym = s.pnsym := rfl
@[simp] theorem State.present_ocnt (t : Transaction) (s : State) : (s.present t).ocnt = s.ocnt := rfl
@[simp] theorem State.present_w (t : Transaction) (s : State) : (s.present t).w = s.w := rfl
@[simp] theorem State.present_arena (t : Transaction) (s : State) : (s.present t).arena = s.arena := rfl
@[simp] theorem State.present_cb (t : Transaction) (s : State) : (s.present t).cb = s.cb := rfl
@[simp] theorem State.present_cbuf (t : Transaction) (s : State) : (s.present t).cbuf = s.cbuf := rfl
@[simp] theorem State.present_ofifo (t : Transaction) (s : State) : (s.present t).ofifo = s.ofifo := rfl
@[simp] theorem State.present_acc (t : Transaction) (s : State) : (s.present t).acc = s.acc := rfl
@[simp] theorem State.present_accn (t : Transaction) (s : State) : (s.present t).accn = s.accn := rfl
@[simp] theorem State.present_pend (t : Transaction) (s : State) : (s.present t).pend = s.pend := rfl
@[simp] theorem State.present_pendv (t : Transaction) (s : State) : (s.present t).pendv = s.pendv := rfl
@[simp] theorem State.present_curLen (t : Transaction) (s : State) : (s.present t).curLen = s.curLen := rfl
@[simp] theorem State.present_curVal (t : Transaction) (s : State) : (s.present t).curVal = s.curVal := rfl
@[simp] theorem State.present_rstN (t : Transaction) (s : State) : (s.present t).rstN = true := rfl
@[simp] theorem State.present_pending (t : Transaction) (s : State) : (s.present t).pending = .bus t :: s.pending := rfl
@[simp] theorem State.present_returned (t : Transaction) (s : State) : (s.present t).returned = s.returned := rfl

@[simp] theorem stepCur_mode (x : Bool) (s : State) : (stepCur x s).mode = s.mode := rfl
@[simp] theorem stepCur_wv (x : Bool) (s : State) : (stepCur x s).wv = s.wv := rfl
@[simp] theorem stepCur_tv (x : Bool) (s : State) : (stepCur x s).tv = s.tv := rfl
@[simp] theorem stepCur_cv (x : Bool) (s : State) : (stepCur x s).cv = s.cv := rfl
@[simp] theorem stepCur_ce (x : Bool) (s : State) : (stepCur x s).ce = s.ce := rfl
@[simp] theorem stepCur_err (x : Bool) (s : State) : (stepCur x s).err = s.err := rfl
@[simp] theorem stepCur_pad (x : Bool) (s : State) : (stepCur x s).pad = s.pad := rfl
@[simp] theorem stepCur_nsym (x : Bool) (s : State) : (stepCur x s).nsym = s.nsym := rfl
@[simp] theorem stepCur_totalbits (x : Bool) (s : State) : (stepCur x s).totalbits = s.totalbits := rfl
@[simp] theorem stepCur_bitcnt (x : Bool) (s : State) : (stepCur x s).bitcnt = s.bitcnt + 1 := rfl
@[simp] theorem stepCur_dincnt (x : Bool) (s : State) : (stepCur x s).dincnt = s.dincnt := rfl
@[simp] theorem stepCur_pnsym (x : Bool) (s : State) : (stepCur x s).pnsym = s.pnsym := rfl
@[simp] theorem stepCur_ocnt (x : Bool) (s : State) : (stepCur x s).ocnt = s.ocnt := rfl
@[simp] theorem stepCur_w (x : Bool) (s : State) : (stepCur x s).w = s.w := rfl
@[simp] theorem stepCur_arena (x : Bool) (s : State) : (stepCur x s).arena = s.arena := rfl
@[simp] theorem stepCur_cb (x : Bool) (s : State) : (stepCur x s).cb = s.cb := rfl
@[simp] theorem stepCur_cbuf (x : Bool) (s : State) : (stepCur x s).cbuf = s.cbuf := rfl
@[simp] theorem stepCur_ofifo (x : Bool) (s : State) : (stepCur x s).ofifo = s.ofifo := rfl
@[simp] theorem stepCur_acc (x : Bool) (s : State) : (stepCur x s).acc = s.acc := rfl
@[simp] theorem stepCur_accn (x : Bool) (s : State) : (stepCur x s).accn = s.accn := rfl
@[simp] theorem stepCur_pend (x : Bool) (s : State) : (stepCur x s).pend = s.pend := rfl
@[simp] theorem stepCur_pendv (x : Bool) (s : State) : (stepCur x s).pendv = s.pendv := rfl
@[simp] theorem stepCur_curLen (x : Bool) (s : State) : (stepCur x s).curLen = s.curLen + 1 := rfl
@[simp] theorem stepCur_curVal (x : Bool) (s : State) : (stepCur x s).curVal = s.curVal * 2 + (BitVec.ofBool x).setWidth 64 := rfl
@[simp] theorem stepCur_rstN (x : Bool) (s : State) : (stepCur x s).rstN = s.rstN := rfl
@[simp] theorem stepCur_pending (x : Bool) (s : State) : (stepCur x s).pending = s.pending := rfl
@[simp] theorem stepCur_returned (x : Bool) (s : State) : (stepCur x s).returned = s.returned := rfl

@[simp] theorem State.clearAll_mode (s : State) : s.clearAll.mode = State.reset.mode := rfl
@[simp] theorem State.clearAll_wv (s : State) : s.clearAll.wv = State.reset.wv := rfl
@[simp] theorem State.clearAll_tv (s : State) : s.clearAll.tv = State.reset.tv := rfl
@[simp] theorem State.clearAll_cv (s : State) : s.clearAll.cv = State.reset.cv := rfl
@[simp] theorem State.clearAll_ce (s : State) : s.clearAll.ce = State.reset.ce := rfl
@[simp] theorem State.clearAll_err (s : State) : s.clearAll.err = State.reset.err := rfl
@[simp] theorem State.clearAll_pad (s : State) : s.clearAll.pad = State.reset.pad := rfl
@[simp] theorem State.clearAll_nsym (s : State) : s.clearAll.nsym = State.reset.nsym := rfl
@[simp] theorem State.clearAll_totalbits (s : State) : s.clearAll.totalbits = State.reset.totalbits := rfl
@[simp] theorem State.clearAll_bitcnt (s : State) : s.clearAll.bitcnt = State.reset.bitcnt := rfl
@[simp] theorem State.clearAll_dincnt (s : State) : s.clearAll.dincnt = State.reset.dincnt := rfl
@[simp] theorem State.clearAll_pnsym (s : State) : s.clearAll.pnsym = State.reset.pnsym := rfl
@[simp] theorem State.clearAll_ocnt (s : State) : s.clearAll.ocnt = State.reset.ocnt := rfl
@[simp] theorem State.clearAll_w (s : State) : s.clearAll.w = State.reset.w := rfl
@[simp] theorem State.clearAll_arena (s : State) : s.clearAll.arena = State.reset.arena := rfl
@[simp] theorem State.clearAll_cb (s : State) : s.clearAll.cb = State.reset.cb := rfl
@[simp] theorem State.clearAll_cbuf (s : State) : s.clearAll.cbuf = State.reset.cbuf := rfl
@[simp] theorem State.clearAll_ofifo (s : State) : s.clearAll.ofifo = State.reset.ofifo := rfl
@[simp] theorem State.clearAll_acc (s : State) : s.clearAll.acc = State.reset.acc := rfl
@[simp] theorem State.clearAll_accn (s : State) : s.clearAll.accn = State.reset.accn := rfl
@[simp] theorem State.clearAll_pend (s : State) : s.clearAll.pend = State.reset.pend := rfl
@[simp] theorem State.clearAll_pendv (s : State) : s.clearAll.pendv = State.reset.pendv := rfl
@[simp] theorem State.clearAll_curLen (s : State) : s.clearAll.curLen = State.reset.curLen := rfl
@[simp] theorem State.clearAll_curVal (s : State) : s.clearAll.curVal = State.reset.curVal := rfl
@[simp] theorem State.clearAll_rstN (s : State) : s.clearAll.rstN = s.rstN := rfl
@[simp] theorem State.clearAll_pending (s : State) : s.clearAll.pending = s.pending := rfl
@[simp] theorem State.clearAll_returned (s : State) : s.clearAll.returned = s.returned := rfl

@[simp] theorem raise_wv (e : HceError) (s : State) : (raise e s).wv = s.wv := by unfold raise; split <;> rfl
@[simp] theorem raise_tv (e : HceError) (s : State) : (raise e s).tv = s.tv := by unfold raise; split <;> rfl
@[simp] theorem raise_cv (e : HceError) (s : State) : (raise e s).cv = s.cv := by unfold raise; split <;> rfl
@[simp] theorem raise_ce (e : HceError) (s : State) : (raise e s).ce = s.ce := by unfold raise; split <;> rfl
@[simp] theorem raise_pad (e : HceError) (s : State) : (raise e s).pad = s.pad := by unfold raise; split <;> rfl
@[simp] theorem raise_nsym (e : HceError) (s : State) : (raise e s).nsym = s.nsym := by unfold raise; split <;> rfl
@[simp] theorem raise_totalbits (e : HceError) (s : State) : (raise e s).totalbits = s.totalbits := by unfold raise; split <;> rfl
@[simp] theorem raise_bitcnt (e : HceError) (s : State) : (raise e s).bitcnt = s.bitcnt := by unfold raise; split <;> rfl
@[simp] theorem raise_dincnt (e : HceError) (s : State) : (raise e s).dincnt = s.dincnt := by unfold raise; split <;> rfl
@[simp] theorem raise_pnsym (e : HceError) (s : State) : (raise e s).pnsym = s.pnsym := by unfold raise; split <;> rfl
@[simp] theorem raise_ocnt (e : HceError) (s : State) : (raise e s).ocnt = s.ocnt := by unfold raise; split <;> rfl
@[simp] theorem raise_w (e : HceError) (s : State) : (raise e s).w = s.w := by unfold raise; split <;> rfl
@[simp] theorem raise_arena (e : HceError) (s : State) : (raise e s).arena = s.arena := by unfold raise; split <;> rfl
@[simp] theorem raise_cb (e : HceError) (s : State) : (raise e s).cb = s.cb := by unfold raise; split <;> rfl
@[simp] theorem raise_cbuf (e : HceError) (s : State) : (raise e s).cbuf = s.cbuf := by unfold raise; split <;> rfl
@[simp] theorem raise_ofifo (e : HceError) (s : State) : (raise e s).ofifo = s.ofifo := by unfold raise; split <;> rfl
@[simp] theorem raise_acc (e : HceError) (s : State) : (raise e s).acc = s.acc := by unfold raise; split <;> rfl
@[simp] theorem raise_accn (e : HceError) (s : State) : (raise e s).accn = s.accn := by unfold raise; split <;> rfl
@[simp] theorem raise_pend (e : HceError) (s : State) : (raise e s).pend = s.pend := by unfold raise; split <;> rfl
@[simp] theorem raise_pendv (e : HceError) (s : State) : (raise e s).pendv = s.pendv := by unfold raise; split <;> rfl
@[simp] theorem raise_curLen (e : HceError) (s : State) : (raise e s).curLen = s.curLen := by unfold raise; split <;> rfl
@[simp] theorem raise_curVal (e : HceError) (s : State) : (raise e s).curVal = s.curVal := by unfold raise; split <;> rfl
@[simp] theorem raise_rstN (e : HceError) (s : State) : (raise e s).rstN = s.rstN := by unfold raise; split <;> rfl
@[simp] theorem raise_pending (e : HceError) (s : State) : (raise e s).pending = s.pending := by unfold raise; split <;> rfl
@[simp] theorem raise_returned (e : HceError) (s : State) : (raise e s).returned = s.returned := by unfold raise; split <;> rfl

@[simp] theorem raise_mode (e : HceError) (s : State) : (raise e s).mode = .error := by
  unfold raise; split <;> simp [*]

/-- In ERROR an error has no effect: ERR keeps the first (60_exceptions.md R299). -/
@[simp] theorem raise_of_error (e : HceError) {s : State} (h : s.mode = .error) : raise e s = s := if_pos h

/-- Outside ERROR an error writes ERR and MODE and nothing else (60_exceptions.md R299). -/
theorem raise_of_running (e : HceError) {s : State} (h : s.mode ≠ .error) :
    raise e s = { s with err := errWord e.code e.sub e.arg, mode := .error } := if_neg h

end Sys2Proof.Machine
end

