-- ==== Sys2Proof/Laws/Ops.lean ====
section
/-! SUPPORT. What the shared operations can do, said once each. -/

namespace Sys2Proof.Machine

@[simp] theorem firstFailure_nil : firstFailure [] = none := rfl

theorem firstFailure_cons (c : Check) (cs : List Check) :
    firstFailure (c :: cs) = if c.cond then firstFailure cs else some c.error := rfl

/-- No failure is found exactly when every check holds. -/
theorem firstFailure_eq_none {cs : List Check} : firstFailure cs = none ↔ ∀ c ∈ cs, c.cond = true := by
  induction cs with
  | nil => simp
  | cons c cs ih => by_cases h : c.cond = true <;> simp [firstFailure_cons, h, ih]

/-- The failure found is that of a check that does not hold. -/
theorem firstFailure_eq_some {cs : List Check} {e : HceError} (h : firstFailure cs = some e) :
    ∃ c ∈ cs, c.cond = false ∧ c.error = e := by
  induction cs with
  | nil => simp at h
  | cons c cs ih =>
    rw [firstFailure_cons] at h
    split at h
    · obtain ⟨d, hd, hc⟩ := ih h
      exact ⟨d, List.mem_cons_of_mem _ hd, hc⟩
    · next hc => exact ⟨c, by simp, by simpa using hc, by simpa using h⟩

@[simp] theorem attempt_none (s effect : State) : attempt none s effect = effect := rfl

@[simp] theorem attempt_some (e : HceError) (s effect : State) : attempt (some e) s effect = raise e s := rfl

/-- An attempt has its effect, or raises the error found. -/
theorem attempt_cases (failure : Option HceError) (s effect : State) :
    (failure = none ∧ attempt failure s effect = effect) ∨
      ∃ e, failure = some e ∧ attempt failure s effect = raise e s := by
  cases failure with
  | none => exact .inl ⟨rfl, rfl⟩
  | some e => exact .inr ⟨e, rfl, rfl⟩

/-- Everything a command can do: nothing in ERROR, else its error, else its effect. -/
theorem command_cases {s effect t : State} {failure : Option HceError} (h : command s failure effect = .next t) :
    (s.mode = .error ∧ t = s) ∨
      (s.mode ≠ .error ∧ ∃ e, failure = some e ∧ t = { s with err := errWord e.code e.sub e.arg, mode := .error }) ∨
      (s.mode ≠ .error ∧ failure = none ∧ t = effect) := by
  unfold command at h
  split at h
  · next hm => exact .inl ⟨hm, by simpa using h.symm⟩
  · next hm =>
    cases failure with
    | none => exact .inr (.inr ⟨hm, rfl, by simpa using h.symm⟩)
    | some e => exact .inr (.inl ⟨hm, e, rfl, by simpa [raise_of_running e hm] using h.symm⟩)

/-- A command always answers a next state. -/
theorem command_next (s : State) (failure : Option HceError) (effect : State) :
    ∃ t, command s failure effect = .next t := by
  unfold command; split <;> exact ⟨_, rfl⟩

/-- Everything the error of an illegal CMD word does. -/
theorem badCommand_cases (r : DecodeReject) (s : State) :
    (s.mode = .error ∧ badCommand r s = s) ∨
      (s.mode ≠ .error ∧
        badCommand r s = { s with
          err := errWord (rejectError r).code (rejectError r).sub (rejectError r).arg, mode := .error }) := by
  by_cases h : s.mode = .error
  · exact .inl ⟨h, if_pos h⟩
  · exact .inr ⟨h, by rw [badCommand, if_neg h, raise_of_running _ h]⟩

end Sys2Proof.Machine
end

