-- ==== Sys2Proof/Laws/Streams.lean ====
section
/-! SUPPORT. What packing bits and walking bits can do: each operation's cases once, and the fields it leaves. -/

namespace Sys2Proof.Machine

/-- Everything one appended bit does: it fills the accumulator, or completes a byte (43_pack.md R201). -/
theorem appendBit_cases (b : Bool) (s : State) :
    (s.accn + 1 = 8 ∧ appendBit b s =
        { s with ofifo := s.ofifo ++ [s.acc <<< 1 ||| (BitVec.ofBool b).setWidth 8], ocnt := s.ocnt + 1,
                 acc := 0, accn := 0 }) ∨
      (s.accn + 1 ≠ 8 ∧ appendBit b s =
        { s with acc := s.acc <<< 1 ||| (BitVec.ofBool b).setWidth 8, accn := s.accn + 1 }) := by
  by_cases h : s.accn + 1 = 8
  · exact .inl ⟨h, by simp only [appendBit, if_pos h]; rfl⟩
  · exact .inr ⟨h, by simp only [appendBit, if_neg h]⟩

@[simp] theorem appendBits_nil (s : State) : appendBits [] s = s := rfl

@[simp] theorem appendBits_cons (b : Bool) (bs : List Bool) (s : State) :
    appendBits (b :: bs) s = appendBits bs (appendBit b s) := rfl

theorem appendBits_append (xs ys : List Bool) (s : State) :
    appendBits (xs ++ ys) s = appendBits ys (appendBits xs s) := by
  induction xs generalizing s with
  | nil => rfl
  | cons x xs ih => exact ih (appendBit x s)

@[simp] theorem appendBit_mode (b : Bool) (s : State) : (appendBit b s).mode = s.mode := by
  unfold appendBit; dsimp only; split <;> rfl
@[simp] theorem appendBit_wv (b : Bool) (s : State) : (appendBit b s).wv = s.wv := by
  unfold appendBit; dsimp only; split <;> rfl
@[simp] theorem appendBit_tv (b : Bool) (s : State) : (appendBit b s).tv = s.tv := by
  unfold appendBit; dsimp only; split <;> rfl
@[simp] theorem appendBit_cv (b : Bool) (s : State) : (appendBit b s).cv = s.cv := by
  unfold appendBit; dsimp only; split <;> rfl
@[simp] theorem appendBit_ce (b : Bool) (s : State) : (appendBit b s).ce = s.ce := by
  unfold appendBit; dsimp only; split <;> rfl
@[simp] theorem appendBit_err (b : Bool) (s : State) : (appendBit b s).err = s.err := by
  unfold appendBit; dsimp only; split <;> rfl
@[simp] theorem appendBit_pad (b : Bool) (s : State) : (appendBit b s).pad = s.pad := by
  unfold appendBit; dsimp only; split <;> rfl
@[simp] theorem appendBit_nsym (b : Bool) (s : State) : (appendBit b s).nsym = s.nsym := by
  unfold appendBit; dsimp only; split <;> rfl
@[simp] theorem appendBit_totalbits (b : Bool) (s : State) : (appendBit b s).totalbits = s.totalbits := by
  unfold appendBit; dsimp only; split <;> rfl
@[simp] theorem appendBit_bitcnt (b : Bool) (s : State) : (appendBit b s).bitcnt = s.bitcnt := by
  unfold appendBit; dsimp only; split <;> rfl
@[simp] theorem appendBit_dincnt (b : Bool) (s : State) : (appendBit b s).dincnt = s.dincnt := by
  unfold appendBit; dsimp only; split <;> rfl
@[simp] theorem appendBit_pnsym (b : Bool) (s : State) : (appendBit b s).pnsym = s.pnsym := by
  unfold appendBit; dsimp only; split <;> rfl
@[simp] theorem appendBit_w (b : Bool) (s : State) : (appendBit b s).w = s.w := by
  unfold appendBit; dsimp only; split <;> rfl
@[simp] theorem appendBit_arena (b : Bool) (s : State) : (appendBit b s).arena = s.arena := by
  unfold appendBit; dsimp only; split <;> rfl
@[simp] theorem appendBit_cb (b : Bool) (s : State) : (appendBit b s).cb = s.cb := by
  unfold appendBit; dsimp only; split <;> rfl
@[simp] theorem appendBit_cbuf (b : Bool) (s : State) : (appendBit b s).cbuf = s.cbuf := by
  unfold appendBit; dsimp only; split <;> rfl
@[simp] theorem appendBit_pend (b : Bool) (s : State) : (appendBit b s).pend = s.pend := by
  unfold appendBit; dsimp only; split <;> rfl
@[simp] theorem appendBit_pendv (b : Bool) (s : State) : (appendBit b s).pendv = s.pendv := by
  unfold appendBit; dsimp only; split <;> rfl
@[simp] theorem appendBit_curLen (b : Bool) (s : State) : (appendBit b s).curLen = s.curLen := by
  unfold appendBit; dsimp only; split <;> rfl
@[simp] theorem appendBit_curVal (b : Bool) (s : State) : (appendBit b s).curVal = s.curVal := by
  unfold appendBit; dsimp only; split <;> rfl
@[simp] theorem appendBit_rstN (b : Bool) (s : State) : (appendBit b s).rstN = s.rstN := by
  unfold appendBit; dsimp only; split <;> rfl
@[simp] theorem appendBit_pending (b : Bool) (s : State) : (appendBit b s).pending = s.pending := by
  unfold appendBit; dsimp only; split <;> rfl
@[simp] theorem appendBit_returned (b : Bool) (s : State) : (appendBit b s).returned = s.returned := by
  unfold appendBit; dsimp only; split <;> rfl

@[simp] theorem appendBits_mode (bs : List Bool) (s : State) : (appendBits bs s).mode = s.mode := by
  induction bs generalizing s with
  | nil => rfl
  | cons b bs ih => simp [ih]
@[simp] theorem appendBits_wv (bs : List Bool) (s : State) : (appendBits bs s).wv = s.wv := by
  induction bs generalizing s with
  | nil => rfl
  | cons b bs ih => simp [ih]
@[simp] theorem appendBits_tv (bs : List Bool) (s : State) : (appendBits bs s).tv = s.tv := by
  induction bs generalizing s with
  | nil => rfl
  | cons b bs ih => simp [ih]
@[simp] theorem appendBits_cv (bs : List Bool) (s : State) : (appendBits bs s).cv = s.cv := by
  induction bs generalizing s with
  | nil => rfl
  | cons b bs ih => simp [ih]
@[simp] theorem appendBits_ce (bs : List Bool) (s : State) : (appendBits bs s).ce = s.ce := by
  induction bs generalizing s with
  | nil => rfl
  | cons b bs ih => simp [ih]
@[simp] theorem appendBits_err (bs : List Bool) (s : State) : (appendBits bs s).err = s.err := by
  induction bs generalizing s with
  | nil => rfl
  | cons b bs ih => simp [ih]
@[simp] theorem appendBits_pad (bs : List Bool) (s : State) : (appendBits bs s).pad = s.pad := by
  induction bs generalizing s with
  | nil => rfl
  | cons b bs ih => simp [ih]
@[simp] theorem appendBits_nsym (bs : List Bool) (s : State) : (appendBits bs s).nsym = s.nsym := by
  induction bs generalizing s with
  | nil => rfl
  | cons b bs ih => simp [ih]
@[simp] theorem appendBits_totalbits (bs : List Bool) (s : State) : (appendBits bs s).totalbits = s.totalbits := by
  induction bs generalizing s with
  | nil => rfl
  | cons b bs ih => simp [ih]
@[simp] theorem appendBits_bitcnt (bs : List Bool) (s : State) : (appendBits bs s).bitcnt = s.bitcnt := by
  induction bs generalizing s with
  | nil => rfl
  | cons b bs ih => simp [ih]
@[simp] theorem appendBits_dincnt (bs : List Bool) (s : State) : (appendBits bs s).dincnt = s.dincnt := by
  induction bs generalizing s with
  | nil => rfl
  | cons b bs ih => simp [ih]
@[simp] theorem appendBits_pnsym (bs : List Bool) (s : State) : (appendBits bs s).pnsym = s.pnsym := by
  induction bs generalizing s with
  | nil => rfl
  | cons b bs ih => simp [ih]
@[simp] theorem appendBits_w (bs : List Bool) (s : State) : (appendBits bs s).w = s.w := by
  induction bs generalizing s with
  | nil => rfl
  | cons b bs ih => simp [ih]
@[simp] theorem appendBits_arena (bs : List Bool) (s : State) : (appendBits bs s).arena = s.arena := by
  induction bs generalizing s with
  | nil => rfl
  | cons b bs ih => simp [ih]
@[simp] theorem appendBits_cb (bs : List Bool) (s : State) : (appendBits bs s).cb = s.cb := by
  induction bs generalizing s with
  | nil => rfl
  | cons b bs ih => simp [ih]
@[simp] theorem appendBits_cbuf (bs : List Bool) (s : State) : (appendBits bs s).cbuf = s.cbuf := by
  induction bs generalizing s with
  | nil => rfl
  | cons b bs ih => simp [ih]
@[simp] theorem appendBits_pend (bs : List Bool) (s : State) : (appendBits bs s).pend = s.pend := by
  induction bs generalizing s with
  | nil => rfl
  | cons b bs ih => simp [ih]
@[simp] theorem appendBits_pendv (bs : List Bool) (s : State) : (appendBits bs s).pendv = s.pendv := by
  induction bs generalizing s with
  | nil => rfl
  | cons b bs ih => simp [ih]
@[simp] theorem appendBits_curLen (bs : List Bool) (s : State) : (appendBits bs s).curLen = s.curLen := by
  induction bs generalizing s with
  | nil => rfl
  | cons b bs ih => simp [ih]
@[simp] theorem appendBits_curVal (bs : List Bool) (s : State) : (appendBits bs s).curVal = s.curVal := by
  induction bs generalizing s with
  | nil => rfl
  | cons b bs ih => simp [ih]
@[simp] theorem appendBits_rstN (bs : List Bool) (s : State) : (appendBits bs s).rstN = s.rstN := by
  induction bs generalizing s with
  | nil => rfl
  | cons b bs ih => simp [ih]
@[simp] theorem appendBits_pending (bs : List Bool) (s : State) : (appendBits bs s).pending = s.pending := by
  induction bs generalizing s with
  | nil => rfl
  | cons b bs ih => simp [ih]
@[simp] theorem appendBits_returned (bs : List Bool) (s : State) : (appendBits bs s).returned = s.returned := by
  induction bs generalizing s with
  | nil => rfl
  | cons b bs ih => simp [ih]

@[simp] theorem flush_mode (s : State) : (flush s).mode = s.mode := by unfold flush; split <;> rfl
@[simp] theorem flush_wv (s : State) : (flush s).wv = s.wv := by unfold flush; split <;> rfl
@[simp] theorem flush_tv (s : State) : (flush s).tv = s.tv := by unfold flush; split <;> rfl
@[simp] theorem flush_cv (s : State) : (flush s).cv = s.cv := by unfold flush; split <;> rfl
@[simp] theorem flush_ce (s : State) : (flush s).ce = s.ce := by unfold flush; split <;> rfl
@[simp] theorem flush_err (s : State) : (flush s).err = s.err := by unfold flush; split <;> rfl
@[simp] theorem flush_pad (s : State) : (flush s).pad = s.pad := by unfold flush; split <;> rfl
@[simp] theorem flush_nsym (s : State) : (flush s).nsym = s.nsym := by unfold flush; split <;> rfl
@[simp] theorem flush_totalbits (s : State) : (flush s).totalbits = s.totalbits := by unfold flush; split <;> rfl
@[simp] theorem flush_bitcnt (s : State) : (flush s).bitcnt = s.bitcnt := by unfold flush; split <;> rfl
@[simp] theorem flush_dincnt (s : State) : (flush s).dincnt = s.dincnt := by unfold flush; split <;> rfl
@[simp] theorem flush_pnsym (s : State) : (flush s).pnsym = s.pnsym := by unfold flush; split <;> rfl
@[simp] theorem flush_w (s : State) : (flush s).w = s.w := by unfold flush; split <;> rfl
@[simp] theorem flush_arena (s : State) : (flush s).arena = s.arena := by unfold flush; split <;> rfl
@[simp] theorem flush_cb (s : State) : (flush s).cb = s.cb := by unfold flush; split <;> rfl
@[simp] theorem flush_cbuf (s : State) : (flush s).cbuf = s.cbuf := by unfold flush; split <;> rfl
@[simp] theorem flush_acc (s : State) : (flush s).acc = s.acc := by unfold flush; split <;> rfl
@[simp] theorem flush_accn (s : State) : (flush s).accn = s.accn := by unfold flush; split <;> rfl
@[simp] theorem flush_pend (s : State) : (flush s).pend = s.pend := by unfold flush; split <;> rfl
@[simp] theorem flush_pendv (s : State) : (flush s).pendv = s.pendv := by unfold flush; split <;> rfl
@[simp] theorem flush_curLen (s : State) : (flush s).curLen = s.curLen := by unfold flush; split <;> rfl
@[simp] theorem flush_curVal (s : State) : (flush s).curVal = s.curVal := by unfold flush; split <;> rfl
@[simp] theorem flush_rstN (s : State) : (flush s).rstN = s.rstN := by unfold flush; split <;> rfl
@[simp] theorem flush_pending (s : State) : (flush s).pending = s.pending := by unfold flush; split <;> rfl
@[simp] theorem flush_returned (s : State) : (flush s).returned = s.returned := by unfold flush; split <;> rfl

/-- The state a walk ends in. -/
def Walk.state : Walk → State
  | .going s => s
  | .stopped s => s

@[simp] theorem Walk.state_going (s : State) : (Walk.going s).state = s := rfl

@[simp] theorem Walk.state_stopped (s : State) : (Walk.stopped s).state = s := rfl

/-- Everything one walked bit does: a symbol, an inner position, or DEAD_PATH (44_unpack.md R228). -/
theorem walkBit_cases (x : Bool) (s : State) :
    (∃ k, symbolOf s.cb ⟨(stepCur x s).curLen, (stepCur x s).curVal⟩ = some k ∧
        walkBit x s = .going { (stepCur x s).push (chr k) with curLen := 0, curVal := 0 }) ∨
      (symbolOf s.cb ⟨(stepCur x s).curLen, (stepCur x s).curVal⟩ = none ∧
        beginsLonger s.cb ⟨(stepCur x s).curLen, (stepCur x s).curVal⟩ = true ∧ walkBit x s = .going (stepCur x s)) ∨
      (symbolOf s.cb ⟨(stepCur x s).curLen, (stepCur x s).curVal⟩ = none ∧
        beginsLonger s.cb ⟨(stepCur x s).curLen, (stepCur x s).curVal⟩ = false ∧
        walkBit x s = .stopped (raise (eMalformed 6 ((stepCur x s).curLen.setWidth 16)) (stepCur x s))) := by
  have hcb : (stepCur x s).cb = s.cb := rfl
  cases hs : symbolOf s.cb ⟨(stepCur x s).curLen, (stepCur x s).curVal⟩ with
  | some k => exact .inl ⟨k, rfl, by simp only [walkBit, hcb, hs]⟩
  | none =>
    cases hb : beginsLonger s.cb ⟨(stepCur x s).curLen, (stepCur x s).curVal⟩ with
    | true => exact .inr (.inl ⟨rfl, rfl, by simp only [walkBit, hcb, hs, hb, if_true]⟩)
    | false => exact .inr (.inr ⟨rfl, rfl, by simp only [walkBit, hcb, hs, hb, Bool.false_eq_true, if_false]⟩)

/-- The symbol found has the code asked for, and no earlier symbol has it. -/
theorem symbolOf_eq_some {cb : Codebook} {c : Code} {k : Symbol} :
    symbolOf cb c = some k ↔ cb[k] = c ∧ ∀ j < k, cb[j] ≠ c := by
  simp [symbolOf, symbols, List.find?_eq_some_iff_getElem, Fin.forall_iff]
  rintro -
  constructor
  · rintro ⟨i, hi, rfl, hall⟩ j hj hjk
    exact hall j hjk
  · intro hall
    exact ⟨k.val, k.isLt, rfl, fun j hj => hall j (by omega) hj⟩

@[simp] theorem walkBits_nil (s : State) : walkBits [] s = .going s := rfl

theorem walkBits_cons (x : Bool) (xs : List Bool) (s : State) :
    walkBits (x :: xs) s = match walkBit x s with
      | .going t => walkBits xs t
      | .stopped t => .stopped t := rfl

/-- Walking two stretches of bits is walking one and then, if it went through, the other. -/
theorem walkBits_append (xs ys : List Bool) (s : State) :
    walkBits (xs ++ ys) s = match walkBits xs s with
      | .going t => walkBits ys t
      | .stopped t => .stopped t := by
  induction xs generalizing s with
  | nil => rfl
  | cons x xs ih =>
    rw [List.cons_append, walkBits_cons, walkBits_cons]
    cases walkBit x s with
    | going t => exact ih t
    | stopped t => rfl

@[simp] theorem walkBit_wv (x : Bool) (s : State) : (walkBit x s).state.wv = s.wv := by
  rcases walkBit_cases x s with ⟨k, -, h⟩ | ⟨-, -, h⟩ | ⟨-, -, h⟩ <;> simp [h]
@[simp] theorem walkBit_tv (x : Bool) (s : State) : (walkBit x s).state.tv = s.tv := by
  rcases walkBit_cases x s with ⟨k, -, h⟩ | ⟨-, -, h⟩ | ⟨-, -, h⟩ <;> simp [h]
@[simp] theorem walkBit_cv (x : Bool) (s : State) : (walkBit x s).state.cv = s.cv := by
  rcases walkBit_cases x s with ⟨k, -, h⟩ | ⟨-, -, h⟩ | ⟨-, -, h⟩ <;> simp [h]
@[simp] theorem walkBit_ce (x : Bool) (s : State) : (walkBit x s).state.ce = s.ce := by
  rcases walkBit_cases x s with ⟨k, -, h⟩ | ⟨-, -, h⟩ | ⟨-, -, h⟩ <;> simp [h]
@[simp] theorem walkBit_pad (x : Bool) (s : State) : (walkBit x s).state.pad = s.pad := by
  rcases walkBit_cases x s with ⟨k, -, h⟩ | ⟨-, -, h⟩ | ⟨-, -, h⟩ <;> simp [h]
@[simp] theorem walkBit_nsym (x : Bool) (s : State) : (walkBit x s).state.nsym = s.nsym := by
  rcases walkBit_cases x s with ⟨k, -, h⟩ | ⟨-, -, h⟩ | ⟨-, -, h⟩ <;> simp [h]
@[simp] theorem walkBit_totalbits (x : Bool) (s : State) : (walkBit x s).state.totalbits = s.totalbits := by
  rcases walkBit_cases x s with ⟨k, -, h⟩ | ⟨-, -, h⟩ | ⟨-, -, h⟩ <;> simp [h]
@[simp] theorem walkBit_dincnt (x : Bool) (s : State) : (walkBit x s).state.dincnt = s.dincnt := by
  rcases walkBit_cases x s with ⟨k, -, h⟩ | ⟨-, -, h⟩ | ⟨-, -, h⟩ <;> simp [h]
@[simp] theorem walkBit_pnsym (x : Bool) (s : State) : (walkBit x s).state.pnsym = s.pnsym := by
  rcases walkBit_cases x s with ⟨k, -, h⟩ | ⟨-, -, h⟩ | ⟨-, -, h⟩ <;> simp [h]
@[simp] theorem walkBit_w (x : Bool) (s : State) : (walkBit x s).state.w = s.w := by
  rcases walkBit_cases x s with ⟨k, -, h⟩ | ⟨-, -, h⟩ | ⟨-, -, h⟩ <;> simp [h]
@[simp] theorem walkBit_arena (x : Bool) (s : State) : (walkBit x s).state.arena = s.arena := by
  rcases walkBit_cases x s with ⟨k, -, h⟩ | ⟨-, -, h⟩ | ⟨-, -, h⟩ <;> simp [h]
@[simp] theorem walkBit_cb (x : Bool) (s : State) : (walkBit x s).state.cb = s.cb := by
  rcases walkBit_cases x s with ⟨k, -, h⟩ | ⟨-, -, h⟩ | ⟨-, -, h⟩ <;> simp [h]
@[simp] theorem walkBit_cbuf (x : Bool) (s : State) : (walkBit x s).state.cbuf = s.cbuf := by
  rcases walkBit_cases x s with ⟨k, -, h⟩ | ⟨-, -, h⟩ | ⟨-, -, h⟩ <;> simp [h]
@[simp] theorem walkBit_acc (x : Bool) (s : State) : (walkBit x s).state.acc = s.acc := by
  rcases walkBit_cases x s with ⟨k, -, h⟩ | ⟨-, -, h⟩ | ⟨-, -, h⟩ <;> simp [h]
@[simp] theorem walkBit_accn (x : Bool) (s : State) : (walkBit x s).state.accn = s.accn := by
  rcases walkBit_cases x s with ⟨k, -, h⟩ | ⟨-, -, h⟩ | ⟨-, -, h⟩ <;> simp [h]
@[simp] theorem walkBit_pend (x : Bool) (s : State) : (walkBit x s).state.pend = s.pend := by
  rcases walkBit_cases x s with ⟨k, -, h⟩ | ⟨-, -, h⟩ | ⟨-, -, h⟩ <;> simp [h]
@[simp] theorem walkBit_pendv (x : Bool) (s : State) : (walkBit x s).state.pendv = s.pendv := by
  rcases walkBit_cases x s with ⟨k, -, h⟩ | ⟨-, -, h⟩ | ⟨-, -, h⟩ <;> simp [h]
@[simp] theorem walkBit_rstN (x : Bool) (s : State) : (walkBit x s).state.rstN = s.rstN := by
  rcases walkBit_cases x s with ⟨k, -, h⟩ | ⟨-, -, h⟩ | ⟨-, -, h⟩ <;> simp [h]
@[simp] theorem walkBit_pending (x : Bool) (s : State) : (walkBit x s).state.pending = s.pending := by
  rcases walkBit_cases x s with ⟨k, -, h⟩ | ⟨-, -, h⟩ | ⟨-, -, h⟩ <;> simp [h]
@[simp] theorem walkBit_returned (x : Bool) (s : State) : (walkBit x s).state.returned = s.returned := by
  rcases walkBit_cases x s with ⟨k, -, h⟩ | ⟨-, -, h⟩ | ⟨-, -, h⟩ <;> simp [h]

@[simp] theorem walkBits_wv (xs : List Bool) (s : State) : (walkBits xs s).state.wv = s.wv := by
  induction xs generalizing s with
  | nil => rfl
  | cons x xs ih =>
    have h := walkBit_wv x s
    rw [walkBits_cons]
    cases hw : walkBit x s with
    | going t => rw [hw] at h; exact (ih t).trans h
    | stopped t => rw [hw] at h; exact h
@[simp] theorem walkBits_tv (xs : List Bool) (s : State) : (walkBits xs s).state.tv = s.tv := by
  induction xs generalizing s with
  | nil => rfl
  | cons x xs ih =>
    have h := walkBit_tv x s
    rw [walkBits_cons]
    cases hw : walkBit x s with
    | going t => rw [hw] at h; exact (ih t).trans h
    | stopped t => rw [hw] at h; exact h
@[simp] theorem walkBits_cv (xs : List Bool) (s : State) : (walkBits xs s).state.cv = s.cv := by
  induction xs generalizing s with
  | nil => rfl
  | cons x xs ih =>
    have h := walkBit_cv x s
    rw [walkBits_cons]
    cases hw : walkBit x s with
    | going t => rw [hw] at h; exact (ih t).trans h
    | stopped t => rw [hw] at h; exact h
@[simp] theorem walkBits_ce (xs : List Bool) (s : State) : (walkBits xs s).state.ce = s.ce := by
  induction xs generalizing s with
  | nil => rfl
  | cons x xs ih =>
    have h := walkBit_ce x s
    rw [walkBits_cons]
    cases hw : walkBit x s with
    | going t => rw [hw] at h; exact (ih t).trans h
    | stopped t => rw [hw] at h; exact h
@[simp] theorem walkBits_pad (xs : List Bool) (s : State) : (walkBits xs s).state.pad = s.pad := by
  induction xs generalizing s with
  | nil => rfl
  | cons x xs ih =>
    have h := walkBit_pad x s
    rw [walkBits_cons]
    cases hw : walkBit x s with
    | going t => rw [hw] at h; exact (ih t).trans h
    | stopped t => rw [hw] at h; exact h
@[simp] theorem walkBits_nsym (xs : List Bool) (s : State) : (walkBits xs s).state.nsym = s.nsym := by
  induction xs generalizing s with
  | nil => rfl
  | cons x xs ih =>
    have h := walkBit_nsym x s
    rw [walkBits_cons]
    cases hw : walkBit x s with
    | going t => rw [hw] at h; exact (ih t).trans h
    | stopped t => rw [hw] at h; exact h
@[simp] theorem walkBits_totalbits (xs : List Bool) (s : State) : (walkBits xs s).state.totalbits = s.totalbits := by
  induction xs generalizing s with
  | nil => rfl
  | cons x xs ih =>
    have h := walkBit_totalbits x s
    rw [walkBits_cons]
    cases hw : walkBit x s with
    | going t => rw [hw] at h; exact (ih t).trans h
    | stopped t => rw [hw] at h; exact h
@[simp] theorem walkBits_dincnt (xs : List Bool) (s : State) : (walkBits xs s).state.dincnt = s.dincnt := by
  induction xs generalizing s with
  | nil => rfl
  | cons x xs ih =>
    have h := walkBit_dincnt x s
    rw [walkBits_cons]
    cases hw : walkBit x s with
    | going t => rw [hw] at h; exact (ih t).trans h
    | stopped t => rw [hw] at h; exact h
@[simp] theorem walkBits_pnsym (xs : List Bool) (s : State) : (walkBits xs s).state.pnsym = s.pnsym := by
  induction xs generalizing s with
  | nil => rfl
  | cons x xs ih =>
    have h := walkBit_pnsym x s
    rw [walkBits_cons]
    cases hw : walkBit x s with
    | going t => rw [hw] at h; exact (ih t).trans h
    | stopped t => rw [hw] at h; exact h
@[simp] theorem walkBits_w (xs : List Bool) (s : State) : (walkBits xs s).state.w = s.w := by
  induction xs generalizing s with
  | nil => rfl
  | cons x xs ih =>
    have h := walkBit_w x s
    rw [walkBits_cons]
    cases hw : walkBit x s with
    | going t => rw [hw] at h; exact (ih t).trans h
    | stopped t => rw [hw] at h; exact h
@[simp] theorem walkBits_arena (xs : List Bool) (s : State) : (walkBits xs s).state.arena = s.arena := by
  induction xs generalizing s with
  | nil => rfl
  | cons x xs ih =>
    have h := walkBit_arena x s
    rw [walkBits_cons]
    cases hw : walkBit x s with
    | going t => rw [hw] at h; exact (ih t).trans h
    | stopped t => rw [hw] at h; exact h
@[simp] theorem walkBits_cb (xs : List Bool) (s : State) : (walkBits xs s).state.cb = s.cb := by
  induction xs generalizing s with
  | nil => rfl
  | cons x xs ih =>
    have h := walkBit_cb x s
    rw [walkBits_cons]
    cases hw : walkBit x s with
    | going t => rw [hw] at h; exact (ih t).trans h
    | stopped t => rw [hw] at h; exact h
@[simp] theorem walkBits_cbuf (xs : List Bool) (s : State) : (walkBits xs s).state.cbuf = s.cbuf := by
  induction xs generalizing s with
  | nil => rfl
  | cons x xs ih =>
    have h := walkBit_cbuf x s
    rw [walkBits_cons]
    cases hw : walkBit x s with
    | going t => rw [hw] at h; exact (ih t).trans h
    | stopped t => rw [hw] at h; exact h
@[simp] theorem walkBits_acc (xs : List Bool) (s : State) : (walkBits xs s).state.acc = s.acc := by
  induction xs generalizing s with
  | nil => rfl
  | cons x xs ih =>
    have h := walkBit_acc x s
    rw [walkBits_cons]
    cases hw : walkBit x s with
    | going t => rw [hw] at h; exact (ih t).trans h
    | stopped t => rw [hw] at h; exact h
@[simp] theorem walkBits_accn (xs : List Bool) (s : State) : (walkBits xs s).state.accn = s.accn := by
  induction xs generalizing s with
  | nil => rfl
  | cons x xs ih =>
    have h := walkBit_accn x s
    rw [walkBits_cons]
    cases hw : walkBit x s with
    | going t => rw [hw] at h; exact (ih t).trans h
    | stopped t => rw [hw] at h; exact h
@[simp] theorem walkBits_pend (xs : List Bool) (s : State) : (walkBits xs s).state.pend = s.pend := by
  induction xs generalizing s with
  | nil => rfl
  | cons x xs ih =>
    have h := walkBit_pend x s
    rw [walkBits_cons]
    cases hw : walkBit x s with
    | going t => rw [hw] at h; exact (ih t).trans h
    | stopped t => rw [hw] at h; exact h
@[simp] theorem walkBits_pendv (xs : List Bool) (s : State) : (walkBits xs s).state.pendv = s.pendv := by
  induction xs generalizing s with
  | nil => rfl
  | cons x xs ih =>
    have h := walkBit_pendv x s
    rw [walkBits_cons]
    cases hw : walkBit x s with
    | going t => rw [hw] at h; exact (ih t).trans h
    | stopped t => rw [hw] at h; exact h
@[simp] theorem walkBits_rstN (xs : List Bool) (s : State) : (walkBits xs s).state.rstN = s.rstN := by
  induction xs generalizing s with
  | nil => rfl
  | cons x xs ih =>
    have h := walkBit_rstN x s
    rw [walkBits_cons]
    cases hw : walkBit x s with
    | going t => rw [hw] at h; exact (ih t).trans h
    | stopped t => rw [hw] at h; exact h
@[simp] theorem walkBits_pending (xs : List Bool) (s : State) : (walkBits xs s).state.pending = s.pending := by
  induction xs generalizing s with
  | nil => rfl
  | cons x xs ih =>
    have h := walkBit_pending x s
    rw [walkBits_cons]
    cases hw : walkBit x s with
    | going t => rw [hw] at h; exact (ih t).trans h
    | stopped t => rw [hw] at h; exact h
@[simp] theorem walkBits_returned (xs : List Bool) (s : State) : (walkBits xs s).state.returned = s.returned := by
  induction xs generalizing s with
  | nil => rfl
  | cons x xs ih =>
    have h := walkBit_returned x s
    rw [walkBits_cons]
    cases hw : walkBit x s with
    | going t => rw [hw] at h; exact (ih t).trans h
    | stopped t => rw [hw] at h; exact h

/-- A walk that goes through leaves MODE and ERR; one that is stopped is in ERROR. -/
theorem walkBits_mode (xs : List Bool) (s : State) :
    (∀ t, walkBits xs s = .going t → t.mode = s.mode ∧ t.err = s.err) ∧
      ∀ t, walkBits xs s = .stopped t → t.mode = .error := by
  induction xs generalizing s with
  | nil => exact ⟨fun t h => by cases h; exact ⟨rfl, rfl⟩, fun t h => by cases h⟩
  | cons x xs ih =>
    simp only [walkBits_cons]
    rcases walkBit_cases x s with ⟨k, -, h⟩ | ⟨-, -, h⟩ | ⟨-, -, h⟩
    · rw [h]; exact ih _
    · rw [h]; exact ih _
    · rw [h]
      exact ⟨fun t ht => (by cases ht), fun t ht => by cases ht; exact raise_mode _ _⟩

/-- Walking pushes at most one byte a bit (44_unpack.md R227). -/
theorem walkBits_level (xs : List Bool) (s : State) :
    (walkBits xs s).state.ofifo.length ≤ s.ofifo.length + xs.length := by
  induction xs generalizing s with
  | nil => simp
  | cons x xs ih =>
    rw [walkBits_cons, List.length_cons]
    rcases walkBit_cases x s with ⟨k, -, h⟩ | ⟨-, -, h⟩ | ⟨-, -, h⟩
    · rw [h]
      have := ih { (stepCur x s).push (chr k) with curLen := 0, curVal := 0 }
      simp only [State.push_ofifo, stepCur_ofifo, List.length_append, List.length_singleton] at this ⊢
      omega
    · rw [h]
      have := ih (stepCur x s)
      rw [stepCur_ofifo] at this
      dsimp only
      omega
    · rw [h]
      simp

end Sys2Proof.Machine
end

