-- ==== Sys2Proof/Laws/Tree.lean ====
section
/-! SUPPORT. The sort and the merge rounds of BUILD. -/

namespace Sys2Proof.Machine

theorem insertByKey_perm {α : Type} (key : α → Nat) (x : α) (l : List α) : (insertByKey key x l).Perm (x :: l) := by
  induction l with
  | nil => exact .refl _
  | cons y ys ih =>
    unfold insertByKey
    split
    · exact .refl _
    · exact (ih.cons y).trans (.swap x y ys)

/-- Sorting rearranges. -/
theorem stableSortBy_perm {α : Type} (key : α → Nat) (l : List α) : (stableSortBy key l).Perm l := by
  induction l with
  | nil => exact .refl _
  | cons x xs ih => exact (insertByKey_perm key x _).trans (ih.cons x)

@[simp] theorem stableSortBy_length {α : Type} (key : α → Nat) (l : List α) : (stableSortBy key l).length = l.length :=
  (stableSortBy_perm key l).length_eq

theorem insertByKey_pairwise {α : Type} (key : α → Nat) (x : α) {l : List α}
    (h : l.Pairwise fun y z => key y ≤ key z) : (insertByKey key x l).Pairwise fun y z => key y ≤ key z := by
  induction l with
  | nil => simp [insertByKey]
  | cons y ys ih =>
    obtain ⟨hy, hys⟩ := List.pairwise_cons.1 h
    unfold insertByKey
    split
    · next hxy =>
      refine List.pairwise_cons.2 ⟨fun z hz => ?_, h⟩
      rcases List.mem_cons.1 hz with rfl | hz
      · exact hxy
      · exact hxy.trans (hy z hz)
    · next hxy =>
      refine List.pairwise_cons.2 ⟨fun z hz => ?_, ih hys⟩
      rcases List.mem_cons.1 ((insertByKey_perm key x ys).mem_iff.1 hz) with rfl | hz
      · omega
      · exact hy z hz

/-- Sorting puts the keys in ascending order (00_scope.md R13). -/
theorem stableSortBy_pairwise {α : Type} (key : α → Nat) (l : List α) :
    (stableSortBy key l).Pairwise fun x y => key x ≤ key y := by
  induction l with
  | nil => exact List.Pairwise.nil
  | cons x xs ih => exact insertByKey_pairwise key x ih

theorem insertByKey_filter {α : Type} (key : α → Nat) (x : α) (l : List α) (m : Nat) :
    (insertByKey key x l).filter (fun y => key y == m) = (x :: l).filter fun y => key y == m := by
  induction l with
  | nil => rfl
  | cons y ys ih =>
    unfold insertByKey
    split
    · rfl
    · rw [List.filter_cons, ih]
      simp only [List.filter_cons]
      by_cases h1 : key x = m <;> by_cases h2 : key y = m <;> simp [h1, h2]
      omega

/-- Sorting keeps the order of the elements of one key (00_scope.md R13). -/
theorem stableSortBy_filter {α : Type} (key : α → Nat) (l : List α) (m : Nat) :
    (stableSortBy key l).filter (fun y => key y == m) = l.filter fun y => key y == m := by
  induction l with
  | nil => rfl
  | cons x xs ih => rw [stableSortBy, insertByKey_filter, List.filter_cons, ih, List.filter_cons]

theorem insertByKey_congr {α : Type} {f g : α → Nat} {x : α} {l : List α} (hx : f x = g x)
    (hl : ∀ y ∈ l, f y = g y) : insertByKey f x l = insertByKey g x l := by
  induction l with
  | nil => rfl
  | cons y ys ih =>
    have hy := hl y (by simp)
    unfold insertByKey
    rw [hx, hy, ih fun z hz => hl z (List.mem_cons_of_mem _ hz)]

/-- The sort depends on the keys of the elements sorted alone. -/
theorem stableSortBy_congr {α : Type} {f g : α → Nat} {l : List α} (h : ∀ y ∈ l, f y = g y) :
    stableSortBy f l = stableSortBy g l := by
  induction l with
  | nil => rfl
  | cons x xs ih =>
    have hxs : ∀ y ∈ xs, f y = g y := fun y hy => h y (List.mem_cons_of_mem _ hy)
    unfold stableSortBy
    rw [ih hxs]
    exact insertByKey_congr (h x (by simp)) fun y hy => hxs y ((stableSortBy_perm g xs).mem_iff.1 hy)

/-- Everything a merge round does to a forest of at least two nodes. -/
theorem mergeRound_cases (k : Nat) (st : Arena × List Slot) (h : 2 ≤ st.2.length) :
    ∃ a b rest, stableSortBy (weightOf st.1) st.2 = a :: b :: rest ∧
      mergeRound k st = (join a b (mergeSlot k) st.1, rest ++ [mergeSlot k]) := by
  have hl := stableSortBy_length (weightOf st.1) st.2
  match hs : stableSortBy (weightOf st.1) st.2 with
  | [] => rw [hs] at hl; simp at hl; omega
  | [a] => rw [hs] at hl; simp at hl; omega
  | a :: b :: rest => exact ⟨a, b, rest, rfl, by simp [mergeRound, hs]⟩

/-- After k rounds the forest has 65 - k nodes (41_tree_builder.md R163). -/
theorem mergeRounds_length (w : Weights) (arena : Arena) (k : Nat) (hk : k ≤ 64) :
    (mergeRounds w arena k).2.length = 65 - k := by
  induction k with
  | zero => simp [mergeRounds, symbols]
  | succ k ih =>
    have ih := ih (by omega)
    obtain ⟨a, b, rest, hs, hr⟩ := mergeRound_cases k (mergeRounds w arena k) (by omega)
    have hl := stableSortBy_length (weightOf (mergeRounds w arena k).1) (mergeRounds w arena k).2
    rw [hs] at hl
    simp only [List.length_cons] at hl
    rw [mergeRounds, hr]
    simp only [List.length_append, List.length_singleton]
    omega

/-- A slot other than a is as before when a gets a parent. -/
theorem setParent_get_other {a n i : Slot} (side : Bool) (arena : Arena) (h : i ≠ a) :
    (setParent a n side arena)[i] = arena[i] := by
  have h' : a.val ≠ i.val := fun e => h (Fin.ext e.symm)
  simp [setParent, h']

/-- Slot a gets its parent and side and keeps the rest. -/
theorem setParent_get_self (a n : Slot) (side : Bool) (arena : Arena) :
    (setParent a n side arena)[a] = { arena[a] with np := some n, ns := side } := by
  simp [setParent]

/-- Every slot after a join of three different slots. -/
theorem join_get {a b n : Slot} (arena : Arena) (hab : a ≠ b) (han : a ≠ n) (hbn : b ≠ n) (i : Slot) :
    (join a b n arena)[i] =
      if i = n then { arena[n] with nw := arena[a].nw + arena[b].nw, nl := some a, nr := some b }
      else if i = b then { arena[b] with np := some n, ns := true }
      else if i = a then { arena[a] with np := some n, ns := false }
      else arena[i] := by
  have made (j : Slot) (hj : j ≠ n) (x : Node) : (arena.set n x)[j] = arena[j] := by
    have h' : n.val ≠ j.val := fun e => hj (Fin.ext e.symm)
    simp [h']
  unfold join
  by_cases hin : i = n
  · subst hin
    rw [if_pos rfl, setParent_get_other _ _ (Ne.symm hbn), setParent_get_other _ _ (Ne.symm han)]
    simp
  · rw [if_neg hin]
    by_cases hib : i = b
    · subst hib
      rw [if_pos rfl, setParent_get_self, setParent_get_other _ _ (Ne.symm hab), made _ hbn]
    · rw [if_neg hib, setParent_get_other _ _ hib]
      by_cases hia : i = a
      · subst hia
        rw [if_pos rfl, setParent_get_self, made _ han]
      · rw [if_neg hia, setParent_get_other _ _ hia, made _ hin]

@[simp] theorem leafSlot_val (k : Symbol) : (leafSlot k).val = k.val := by
  simp only [leafSlot, Fin.ofNat]
  omega

theorem mergeSlot_val {k : Nat} (hk : k < 64) : (mergeSlot k).val = 65 + k := by
  simp only [mergeSlot, Fin.ofNat]
  omega

/-- In every round the forest holds slots already made, each once (41_tree_builder.md R161, R162). -/
theorem mergeRounds_forest (w : Weights) (arena : Arena) (k : Nat) (hk : k ≤ 64) :
    (mergeRounds w arena k).2.Nodup ∧ ∀ n ∈ (mergeRounds w arena k).2, n.val < 65 + k := by
  induction k with
  | zero =>
    constructor
    · refine List.Nodup.map (fun x y h => Fin.ext ?_) (List.nodup_finRange 65)
      simpa using congrArg Fin.val h
    · intro n hn
      obtain ⟨x, -, rfl⟩ := List.mem_map.1 hn
      rw [leafSlot_val]
      exact x.isLt
  | succ k ih =>
    obtain ⟨hnd, hlt⟩ := ih (by omega)
    have hlen := mergeRounds_length w arena k (by omega)
    obtain ⟨a, b, rest, hs, hr⟩ := mergeRound_cases k (mergeRounds w arena k) (by omega)
    have hp := stableSortBy_perm (weightOf (mergeRounds w arena k).1) (mergeRounds w arena k).2
    rw [hs] at hp
    have hsub : ∀ n ∈ rest, n.val < 65 + k := fun n hn => hlt n (hp.mem_iff.1 (by simp [hn]))
    have hm := mergeSlot_val (k := k) (by omega)
    have hrest : rest.Nodup := (List.nodup_cons.1 (List.nodup_cons.1 (hp.nodup_iff.2 hnd)).2).2
    rw [mergeRounds, hr]
    constructor
    · refine List.nodup_append.2 ⟨hrest, List.nodup_singleton _, ?_⟩
      intro x hx y hy
      rw [List.mem_singleton.1 hy]
      intro e
      have := hsub x hx
      rw [e, hm] at this
      omega
    · intro n hn
      rcases List.mem_append.1 hn with hn | hn
      · have := hsub n hn
        omega
      · rw [List.mem_singleton.1 hn, hm]
        omega

/-- The two nodes a round joins and the node it makes are three different slots, and the forest is those two and the
rest. -/
theorem mergeRounds_round (w : Weights) (arena : Arena) (k : Nat) (hk : k < 64) :
    ∃ a b rest, stableSortBy (weightOf (mergeRounds w arena k).1) (mergeRounds w arena k).2 = a :: b :: rest ∧
      mergeRounds w arena (k + 1) = (join a b (mergeSlot k) (mergeRounds w arena k).1, rest ++ [mergeSlot k]) ∧
      (a :: b :: rest).Perm (mergeRounds w arena k).2 ∧ a ≠ b ∧ a.val < 65 + k ∧ b.val < 65 + k ∧
      a ≠ mergeSlot k ∧ b ≠ mergeSlot k := by
  obtain ⟨hnd, hlt⟩ := mergeRounds_forest w arena k (by omega)
  have hlen := mergeRounds_length w arena k (by omega)
  obtain ⟨a, b, rest, hs, hr⟩ := mergeRound_cases k (mergeRounds w arena k) (by omega)
  have hp := stableSortBy_perm (weightOf (mergeRounds w arena k).1) (mergeRounds w arena k).2
  rw [hs] at hp
  have hm := mergeSlot_val hk
  have ha := hlt a (hp.mem_iff.1 (by simp))
  have hb := hlt b (hp.mem_iff.1 (by simp))
  refine ⟨a, b, rest, hs, hr, hp, ?_, ha, hb, ?_, ?_⟩
  · intro e
    exact (List.nodup_cons.1 (hp.nodup_iff.2 hnd)).1 (by simp [e])
  · intro e
    rw [e, hm] at ha
    omega
  · intro e
    rw [e, hm] at hb
    omega

/-- Two arenas agree on a slot but, perhaps, for its parent and side. -/
def SameBelow (x y : Node) : Prop := x.nw = y.nw ∧ x.nl = y.nl ∧ x.nr = y.nr

/-- The rounds do not depend on the arena they start from: the forests are equal, the slots made agree, and those no
longer in the forest agree on parent and side too. -/
theorem mergeRounds_agree (w : Weights) (A B : Arena) (k : Nat) (hk : k ≤ 64) :
    (mergeRounds w A k).2 = (mergeRounds w B k).2 ∧
      ∀ n : Slot, n.val < 65 + k → SameBelow (mergeRounds w A k).1[n] (mergeRounds w B k).1[n] ∧
        (n ∉ (mergeRounds w A k).2 → (mergeRounds w A k).1[n] = (mergeRounds w B k).1[n]) := by
  induction k with
  | zero =>
    refine ⟨rfl, fun n hn => ⟨?_, fun h => absurd ?_ h⟩⟩
    · have hn : n.val < 65 := hn
      simp [mergeRounds, setLeaves, SameBelow, hn]
    · exact List.mem_map.2 ⟨⟨n.val, hn⟩, by simp [symbols], Fin.ext (by simp)⟩
  | succ k ih =>
    have hk' : k < 64 := by omega
    obtain ⟨hF, hA⟩ := ih (by omega)
    obtain ⟨-, hlt⟩ := mergeRounds_forest w A k (by omega)
    obtain ⟨a, b, rest, hs, hr, hp, hab, ha, hb, han, hbn⟩ := mergeRounds_round w A k hk'
    obtain ⟨a', b', rest', hs', hr', -⟩ := mergeRounds_round w B k hk'
    have hsort : stableSortBy (weightOf (mergeRounds w A k).1) (mergeRounds w A k).2 =
        stableSortBy (weightOf (mergeRounds w B k).1) (mergeRounds w B k).2 := by
      rw [← hF]
      refine stableSortBy_congr fun y hy => ?_
      simp only [weightOf, (hA y (hlt y hy)).1.1]
    rw [hs, hs'] at hsort
    obtain ⟨rfl, rfl, rfl⟩ : a = a' ∧ b = b' ∧ rest = rest' := by simpa using hsort
    rw [hr, hr']
    refine ⟨rfl, fun n hn => ?_⟩
    have hm := mergeSlot_val hk'
    have hAa := (hA a ha).1
    have hAb := (hA b hb).1
    simp only [join_get _ hab han hbn]
    by_cases hin : n = mergeSlot k
    · subst hin
      refine ⟨?_, fun h => absurd (by simp) h⟩
      rw [if_pos rfl, if_pos rfl]
      exact ⟨congrArg₂ (· + ·) hAa.1 hAb.1, rfl, rfl⟩
    · simp only [if_neg hin]
      have hn' : n.val < 65 + k := by
        have : n.val ≠ (mergeSlot k).val := fun e => hin (Fin.ext e)
        omega
      by_cases hib : n = b
      · subst hib
        rw [if_pos rfl, if_pos rfl]
        refine ⟨hAb, fun _ => ?_⟩
        simp only [Node.mk.injEq]
        exact ⟨hAb.1, hAb.2.1, hAb.2.2, trivial, trivial⟩
      · simp only [if_neg hib]
        by_cases hia : n = a
        · subst hia
          rw [if_pos rfl, if_pos rfl]
          refine ⟨hAa, fun _ => ?_⟩
          simp only [Node.mk.injEq]
          exact ⟨hAa.1, hAa.2.1, hAa.2.2, trivial, trivial⟩
        · simp only [if_neg hia]
          refine ⟨(hA n hn').1, fun h => (hA n hn').2 fun hf => h ?_⟩
          have := hp.mem_iff.2 hf
          simp only [List.mem_cons, hia, hib, false_or] at this
          simp [this]

/-- After the 64 rounds the root alone is left (41_tree_builder.md R163). -/
theorem mergeRounds_end (w : Weights) (arena : Arena) : (mergeRounds w arena 64).2 = [rootSlot] := by
  obtain ⟨a, b, rest, hs, hr, -⟩ := mergeRounds_round w arena 63 (by omega)
  have hlen := mergeRounds_length w arena 63 (by omega)
  have hl := stableSortBy_length (weightOf (mergeRounds w arena 63).1) (mergeRounds w arena 63).2
  rw [hs, hlen] at hl
  obtain rfl : rest = [] := List.eq_nil_of_length_eq_zero (by simpa using hl)
  rw [hr]
  rfl

/-- Every field of every slot is written by BUILD: the arena it leaves does not depend on the one before. -/
theorem buildArena_irrelevant (w : Weights) (A B : Arena) : buildArena w A = buildArena w B := by
  have hagree := mergeRounds_agree w A B 64 le_rfl
  apply Vector.ext
  intro i hi
  have h := hagree.2 ⟨i, hi⟩ (by simp; omega)
  rw [mergeRounds_end] at h
  simp only [buildArena, Config.nMerges, Vector.getElem_set]
  by_cases hroot : rootSlot.val = i
  · subst hroot
    obtain ⟨⟨h1, h2, h3⟩, -⟩ := h
    simp only [if_true, Node.mk.injEq, and_true]
    exact ⟨h1, h2, h3⟩
  · simp only [if_neg hroot]
    exact h.2 fun hm => hroot (by simpa using (congrArg Fin.val (List.mem_singleton.1 hm)).symm)

end Sys2Proof.Machine
end

