-- ==== Sys2Proof/Tests/Slice0.lean ====
section
/-! SUPPORT. Tests: ill-formed operands refused, words written out from the spec's encodings decoded, one operation on a
small state with the result 95_test_vectors.md gives, and for each statement with hypotheses a state that meets them. -/

namespace Sys2Proof.Tests

open Sys2Proof.Machine

/-! ### Helpers -/

/-- The reset state in another mode. -/
def inMode (m : Mode) : State := { State.reset with mode := m }

/-- W of the text "TWFu" (95_test_vectors.md X1). -/
def weightsTWFu : Weights := Vector.ofFn fun k => if k ∈ ([5, 19, 22, 46] : List Symbol) then 1 else 0

/-- The codes of T, W, F and u (T-GEN-2); the other symbols have none here. -/
def codesTWFu : Codebook :=
  Vector.ofFn fun k => if k = 19 then ⟨2, 0⟩ else if k = 22 then ⟨2, 1⟩ else if k = 46 then ⟨2, 2⟩
    else if k = 5 then ⟨3, 7⟩ else ⟨0, 0⟩

/-- The parents and sides of T-BLD-2's last merges, (125,124,5), (126,19,22), (127,46,125) and (128,126,127). -/
def treeTWFu : Arena :=
  Vector.ofFn fun n => if n = 5 then { Node.cleared with np := some 125, ns := true }
    else if n = 125 then { Node.cleared with np := some 127, ns := true }
    else if n = 19 then { Node.cleared with np := some 126 }
    else if n = 22 then { Node.cleared with np := some 126, ns := true }
    else if n = 46 then { Node.cleared with np := some 127 }
    else if n = 126 then { Node.cleared with np := some 128 }
    else if n = 127 then { Node.cleared with np := some 128, ns := true }
    else Node.cleared

/-- IDLE after GENCODE of "TWFu", as far as the tests need it. -/
def generated : State :=
  { State.reset with wv := true, tv := true, cv := true, ce := true, w := weightsTWFu, arena := treeTWFu, nsym := 4,
                     cb := codesTWFu, totalbits := 9, pad := 7 }

/-- The bytes of the codebook of T-UNP-5: record k has length 7 and value k, the header is 0. -/
def cbufSeven : Memory :=
  symbols.flatMap fun k => [(1 + 10 * k.val, chr k), (2 + 10 * k.val, 7)] ++
    (if k = 0 then [] else [(10 + 10 * k.val, BitVec.ofNat 8 k.val)])

/-- The codebook of T-UNP-5. -/
def codesSeven : Codebook := Vector.ofFn fun k => ⟨7, BitVec.ofNat 64 k.val⟩

/-- One field after one operation. -/
def after {α : Type} (i : Instr) (s : State) (f : State → α) : Option α := (execAll [i] s).map f

/-- One field after one step. -/
def stepped {α : Type} (s : State) (f : State → α) : Option α :=
  match step s with
  | .next t => some (f t)
  | .fault _ => none
  | .refused _ => none

/-! ### Ill-formed operands (opcode_table.json; 20_memory.md R71 to R74) -/

theorem test_weight_above_64_refused : (Instr.rdreg (.weight 65)).wf = false := by decide
theorem test_weight_64_admitted : (Instr.rdreg (.weight 64)).wf = true := by decide
theorem test_cbrd_above_650_refused : (Instr.cbrd 651).wf = false := by decide
theorem test_cbwr_above_650_refused : (Instr.cbwr 651 0).wf = false := by decide
theorem test_wrign_at_cmd_refused : (Instr.wrign 0x001 0).wf = false := by decide
theorem test_wrign_at_din_refused : (Instr.wrign 0x004 0).wf = false := by decide
theorem test_wrign_in_cbuf_refused : (Instr.wrign 0x68A 0).wf = false := by decide
theorem test_rdzero_at_id_refused : (Instr.rdzero 0x000).wf = false := by decide
theorem test_rdzero_at_dout_refused : (Instr.rdzero 0x005).wf = false := by decide
theorem test_rdzero_in_weights_refused : (Instr.rdzero 0x080).wf = false := by decide

/-! ### Words written out from 30_encoding.md R101 and R102 -/

theorem test_decode_control :
    decode .idle (.write 0b0000000000100 0b00000000000000000000000000000000) = .ok .nop ∧
    decode .error (.write 0b0000000000100 0b00000000000000000000000000000001) = .ok .srst ∧
    decode .idle (.write 0b0000000000100 0b00000000000000000000000000100001) = .ok .teardown := by decide

theorem test_decode_count :
    decode .idle (.write 0b0000000000100 0b00000000000000000000000000010000) = .ok .cntBegin ∧
    decode .count (.write 0b0000000000100 0b00000000000000000000000000010001) = .ok .cntEnd ∧
    decode .count (.write 0b0000000010000 0b00000000000000000000000001010100) = .ok (.cntPut 0x54) := by decide

theorem test_decode_build_and_gencode :
    decode .idle (.write 0b0000000000100 0b00000000000000000000000000100000) = .ok .build ∧
    decode .idle (.write 0b0000000000100 0b00000000000000000000000000110000) = .ok .gencode := by decide

theorem test_decode_pack :
    decode .idle (.write 0b0000000000100 0b00000000000000000000000001000000) = .ok .packBegin ∧
    decode .pack (.write 0b0000000000100 0b00000000000000000000000001000001) = .ok .packEnd ∧
    decode .pack (.write 0b0000000010000 0b00000000000000000000000001010100) = .ok (.packPut 0x54) := by decide

theorem test_decode_load_and_unpack :
    decode .idle (.write 0b0000000000100 0b00000000000000000000000001010000) = .ok .load ∧
    decode .idle (.write 0b0000000000100 0b00000000000000000000000001100000) = .ok .unpackBegin ∧
    decode .unpack (.write 0b0000000000100 0b00000000000000000000000001100001) = .ok .unpackEnd ∧
    decode .unpack (.write 0b0000000010000 0b00000000000000000000000000011111) = .ok (.unpackPut 0x1F) := by decide

theorem test_decode_din_without_a_run :
    decode .idle (.write 0b0000000010000 0b00000000000000000000000001000001) = .ok (.putIdle 0x41) ∧
    decode .error (.write 0b0000000010000 0b00000000000000000000000001000001) = .ok (.putErr 0x41) := by decide

theorem test_decode_reads :
    decode .idle (.read 0b0000000010100) = .ok .get ∧ decode .idle (.read 0b0000000001000) = .ok (.rdreg .status) ∧
    decode .idle (.read 0b0000000111100) = .ok (.rdreg .dbg) ∧
    decode .idle (.read 0b0000100000000) = .ok (.rdreg (.weight 0)) ∧
    decode .idle (.read 0b0001000000000) = .ok (.rdreg (.weight 64)) ∧
    decode .idle (.read 0b1000000000000) = .ok (.cbrd 0) ∧ decode .idle (.read 0b1101000101000) = .ok (.cbrd 650) ∧
    decode .idle (.read 0b1101000101100) = .ok (.rdzero 0x68B) ∧
    decode .idle (.read 0b0000000000100) = .ok (.rdzero 0x001) := by decide

theorem test_decode_writes :
    decode .idle (.write 0b1000000000000 0x107) = .ok (.cbwr 0 0x107) ∧
    decode .idle (.write 0b1101000101011 5) = .ok (.cbwr 650 5) ∧
    decode .idle (.write 0b0000000001100 0) = .ok (.wrign 0x003 0) ∧
    decode .idle (.write 0b1111111111100 0) = .ok (.wrign 0x7FF 0) := by decide

theorem test_decode_table_words :
    decodeTableWord 32 0x21 = some .teardown ∧ decodeTableWord 32 0x121 = none ∧ decodeTableWord 16 0x14 = some .get ∧
    decodeTableWord 16 0x10 = some (.putIdle 0) := by decide

/-- 30_encoding.md R103's table. -/
theorem test_alphabet : symbols.map chr =
    "ABCDEFGHIJKLMNOPQRSTUVWXYZabcdefghijklmnopqrstuvwxyz0123456789+/=".toList.map fun c =>
      BitVec.ofNat 8 c.toNat := by decide +kernel

/-- The inverse of chr, and the bytes just outside each range (T-CNT-7). -/
theorem test_idx : (∀ k : Symbol, idx (chr k) = some k) ∧
    ([0x00, 0x40, 0x5B, 0x60, 0x7B, 0x2C, 0x2E, 0x3A, 0x3E, 0xC1] : List Byte).all fun c => idx c == none := by
  decide +kernel

/-! ### One operation each, with the results of 95_test_vectors.md -/

theorem test_nop_keeps_status : after .nop (inMode .count) State.statusWord = some 0x00000101 := by decide

theorem test_srst_clears_an_error :
    after .srst { inMode .error with err := 0x002D0003, nsym := 3 } (fun t => (t.statusWord, t.err, t.nsym)) =
      some (0x00000100, 0, 0) := by decide

theorem test_cnt_begin_enters_count : after .cntBegin generated State.statusWord = some 0x00000101 := by decide
theorem test_cnt_begin_in_count : after .cntBegin (inMode .count) State.err = some 0x00100102 := by decide

theorem test_cnt_end_sets_wv : after .cntEnd (inMode .count) State.statusWord = some 0x00000108 := by decide
theorem test_cnt_end_in_idle : after .cntEnd State.reset State.err = some 0x00110102 := by decide

/-- T-CNT-4. -/
theorem test_cnt_put_ignores_high_bits :
    after (.cntPut 0x154) (inMode .count) (fun t => (t.w[19], t.nsym, t.dincnt)) = some (1, 1, 1) := by decide
/-- T-CNT-8. -/
theorem test_cnt_put_overflows :
    after (.cntPut 0x41) { inMode .count with nsym := 0xFFFFFFFF } (fun t => (t.err, t.nsym, t.w[0])) =
      some (0x00000004, 0xFFFFFFFF, 0) := by decide

/-- T-BLD-2: the third merge passes leaf 5. -/
theorem test_build_third_merge :
    (mergeRounds weightsTWFu clearedArena 3).1[67] = ⟨0, some 4, some 6, none, false⟩ := by decide +kernel
theorem test_build_without_weights : after .build State.reset State.err = some 0x00200202 := by decide

theorem test_teardown_keeps_the_codebook :
    after .teardown generated (fun t => (t.statusWord, t.pad, t.arena[5])) =
      some (0x00000168, 7, ⟨0, none, none, none, false⟩) := by decide
theorem test_teardown_without_tree : after .teardown State.reset State.err = some 0x00210302 := by decide

/-- T-GEN-2: F is 111, TOTALBITS 9, PAD 7, and record 5 ends in 03 .. 07. -/
theorem test_gencode_of_twfu :
    after .gencode { generated with cv := false, ce := false, totalbits := 0, pad := 0 } (fun t =>
      (t.cb[5].val, t.totalbits, t.pad, Memory.read t.cbuf 52, Memory.read t.cbuf 60)) = some (7, 9, 7, 0x03, 0x07) := by
  decide +kernel
theorem test_gencode_without_tree : after .gencode State.reset State.err = some 0x00300302 := by decide

theorem test_pack_begin_enters_pack : after .packBegin generated State.statusWord = some 0x0000017A := by decide
theorem test_pack_begin_of_a_loaded_codebook :
    after .packBegin { State.reset with cv := true } (fun t => (t.err, t.statusWord)) =
      some (0x00400502, 0x000001A7) := by decide

/-- T-PK-1, the PUT of F: bits 0001 are in ACC. -/
theorem test_pack_put_appends :
    after (.packPut 0x46) { generated with mode := .pack, acc := 1, accn := 4, bitcnt := 4, pnsym := 2 } (fun t =>
      (t.dbgWord, t.bitcnt, t.ofifo)) = some (0x000F0700, 7, []) := by decide +kernel
/-- T-PK-5. -/
theorem test_pack_put_beyond_the_count :
    after (.packPut 0x54) { generated with mode := .pack, pnsym := 4, ofifo := [0x1F] } (fun t =>
      (t.err, t.statusWord)) = some (0x00130107, 0x000103FF) := by decide

/-- T-PK-1. -/
theorem test_pack_end_flushes :
    after .packEnd { generated with mode := .pack, accn := 1, bitcnt := 9, pnsym := 4, ofifo := [0x1F], ocnt := 1 }
      (fun t => (t.statusWord, t.ofifo, t.ocnt, t.dbgWord)) = some (0x00020378, [0x1F, 0x00], 2, 0) := by decide
/-- T-PK-6. -/
theorem test_pack_end_short :
    after .packEnd { generated with mode := .pack, acc := 0xF, accn := 7, bitcnt := 7, pnsym := 3 } (fun t =>
      (t.err, t.dbgWord)) = some (0x00410207, 0x000F0700) := by decide

/-- T-LD-2. -/
theorem test_load_bad_pad : after .load { State.reset with cbuf := [(0, 8)] } (fun t => (t.err, t.statusWord)) =
    some (0x00080106, 0x00000187) := by decide
theorem test_load_of_reset_cbuf : after .load State.reset State.err = some 0x00000206 := by decide

theorem test_unpack_begin_enters_unpack :
    after .unpackBegin { State.reset with cv := true, ofifo := [1] } State.statusWord = some 0x00000123 := by decide
theorem test_unpack_begin_without_codebook : after .unpackBegin State.reset State.err = some 0x00600402 := by decide

/-- T-UNP-1: PUT 0x00 walks the held 0x1F. -/
theorem test_unpack_put_walks_the_held_byte :
    after (.unpackPut 0) { inMode .unpack with cv := true, cb := codesTWFu, pad := 7, pend := 0x1F, pendv := true }
      (fun t => (t.dbgWord, t.statusWord, t.bitcnt, t.ofifo)) =
      some (0x00000801, 0x00030323, 8, [0x54, 0x57, 0x46]) := by decide +kernel
/-- T-UNP-5: the second bit of the held 0xFF is a dead path. -/
theorem test_unpack_end_dead_path :
    after .unpackEnd { inMode .unpack with cv := true, cb := codesSeven, pend := 0xFF, pendv := true } (fun t =>
      (t.err, t.dbgWord, t.bitcnt)) = some (0x00020606, 0xFF000802, 2) := by decide +kernel

/-- T-UNP-2. -/
theorem test_unpack_end_incomplete :
    after .unpackEnd { inMode .unpack with cv := true, cb := codesTWFu, pad := 7, pend := 0x1F, pendv := true }
      (fun t => (t.err, t.statusWord)) = some (0x00010706, 0x000001A7) := by decide +kernel

theorem test_put_idle : after (.putIdle 0x54) State.reset (fun t => (t.err, t.statusWord)) =
    some (0x01000102, 0x00000187) := by decide
theorem test_put_err : after (.putErr 0x54) { inMode .error with err := 0x00020101 } (fun t => (t.err, t.dincnt)) =
    some (0x00020101, 0) := by decide

/-- T-PK-1. -/
theorem test_get_pops : after .get { State.reset with ofifo := [0x1F, 0x00] } (fun t => (t.returned, t.ofifo)) =
    some ([0x0000011F], [0x00]) := by decide
theorem test_get_empty : after .get State.reset State.returned = some [0x00000000] := by decide

theorem test_rdreg_id : after (.rdreg .id) (inMode .error) State.returned = some [0x48554646] := by decide
theorem test_rdreg_weight : after (.rdreg (.weight 19)) generated State.returned = some [1] := by decide

/-- 46_bus_access.md R271's example. -/
theorem test_cbwr_stores_the_low_byte :
    after (.cbwr 0 0x107) (inMode .error) (fun t => Memory.read t.cbuf 0) = some 0x07 := by decide
theorem test_cbwr_of_zero_unlists : after (.cbwr 5 0x100) { State.reset with cbuf := [(5, 9)] } State.cbuf =
    some [] := by decide
theorem test_cbrd : after (.cbrd 650) { State.reset with cbuf := [(650, 0xC2)] } State.returned =
    some [0x000000C2] := by decide

/-- 46_bus_access.md R272's example. -/
theorem test_wrign_err : after (.wrign 0x003 0) { inMode .error with err := 0x00020101 } State.err =
    some 0x00020101 := by decide
theorem test_rdzero_unmapped : after (.rdzero 0x010) State.reset State.returned = some [0x00000000] := by decide

/-- T-CTL-5, T-CTL-6. -/
theorem test_step_of_bad_command :
    stepped (State.reset.withFetchWord 32 0x00000002) State.err = some 0x00020101 ∧
    stepped (State.reset.withFetchWord 32 0x00000110) State.err = some 0x00100201 := by decide

/-- 70_reset_and_hazards.md R330. -/
theorem test_step_ignores_transactions_in_reset :
    stepped { State.reset with rstN := false, pending := [.bus (.write 0x004 0x10)] } State.statusWord =
      some 0x00000100 := by decide
theorem test_step_of_the_rising_edge :
    stepped { inMode .error with rstN := false, pending := [.resetRise], cbuf := [(0, 1)] } (fun t =>
      (t.statusWord, t.cbuf, t.rstN)) = some (0x00000100, [], true) := by decide

/-! ### Witnesses: states and operands that meet the hypotheses of each statement, at the edges of their ranges -/

/-- A leaf 0 under 64 parents, the longest code there can be. -/
def chainOf64 : Arena :=
  Vector.ofFn fun n => if n = 0 then { Node.cleared with np := some 65 }
    else if 65 ≤ n.val ∧ n.val < 128 then { Node.cleared with np := some (Fin.ofNat 129 (n.val + 1)) } else Node.cleared

/-- A leaf 0 under 65 parents, one too many. -/
def chainOf65 : Arena := chainOf64.set 0 { Node.cleared with np := some 1 } |>.set 1 { Node.cleared with np := some 65 }

/-- IDLE with the tree of W. -/
def withTree (w : Weights) : State :=
  { State.reset with wv := true, tv := true, w := w, arena := buildArena w clearedArena }

/-- IDLE with the tree, the codebook and the totals of W. -/
def withCodebook (w : Weights) (nsym : BitVec 32) : State :=
  { withTree w with
    cv := true, ce := true, nsym := nsym, cb := codebookOf (buildArena w clearedArena),
    totalbits := BitVec.ofNat 38 (payloadBits w (buildArena w clearedArena)),
    pad := padOf (BitVec.ofNat 38 (payloadBits w (buildArena w clearedArena))) }

theorem withTree_ready (w : Weights) :
    (withTree w).mode = .idle ∧ (withTree w).wv = true ∧ (withTree w).tv = true ∧
    (withTree w).arena = buildArena (withTree w).w clearedArena ∧ Memory.wf (withTree w).cbuf = true ∧
    TreeAgrees (withTree w) :=
  have h : (withTree w).arena = buildArena (withTree w).w clearedArena := by simp only [withTree]
  ⟨rfl, rfl, rfl, h, rfl, ⟨fun _ => by contradiction, fun _ => by contradiction, fun _ => h⟩⟩

theorem withCodebook_ready (w : Weights) (nsym : BitVec 32) :
    (withCodebook w nsym).mode = .idle ∧ (withCodebook w nsym).cv = true ∧ (withCodebook w nsym).ce = true ∧
    (withCodebook w nsym).cb = codebookOf (buildArena (withCodebook w nsym).w clearedArena) ∧
    (withCodebook w nsym).totalbits =
      BitVec.ofNat 38 (payloadBits (withCodebook w nsym).w (buildArena (withCodebook w nsym).w clearedArena)) ∧
    (withCodebook w nsym).pad = padOf (withCodebook w nsym).totalbits ∧
    (withCodebook w nsym).nsym = nsym ∧ (withCodebook w nsym).w = w := by
  simp only [withCodebook, withTree, State.reset, and_self]

/-- T-UNP-5's records, each read from its bytes. -/
theorem cbufSeven_records : ∀ k : Symbol, Memory.read cbufSeven (recordBase k) = chr k ∧ recordLen cbufSeven k = 7 ∧
    recordVal cbufSeven k = k.val := by decide +kernel

theorem cbufSeven_valid (k : Symbol) : RecordValid cbufSeven k := by
  obtain ⟨h1, h2, h3⟩ := cbufSeven_records k
  have hk := k.isLt
  refine ⟨h1, ?_, ?_⟩
  · omega
  · rw [h2, h3]
    omega

theorem loadedCodebook_cbufSeven : loadedCodebook cbufSeven = codesSeven := by
  apply Vector.ext
  intro k hk
  obtain ⟨-, h2, h3⟩ := cbufSeven_records ⟨k, hk⟩
  simp [loadedCodebook, codesSeven, h2, h3]

/-- Different codes of one length are prefix-free. -/
theorem codesSeven_prefixFree : codesSeven.prefixFree := by
  have hl : ∀ k : Symbol, codesSeven[k].bits.length = 7 := by decide +kernel
  have hi : ∀ i j : Symbol, codesSeven[i].bits = codesSeven[j].bits → i = j := by decide +kernel
  intro i j hij hp
  exact hij (hi i j (hp.eq_of_length (by rw [hl, hl])))

/-- T-UNP-5's records but for record 1, whose value is 0: the code of record 0. -/
def cbufClash : Memory := Memory.write cbufSeven 20 0

theorem cbufClash_read {a : Nat} (h : a ≠ 20) : Memory.read cbufClash a = Memory.read cbufSeven a :=
  Memory.read_write_other 0 h

theorem cbufClash_valid (k : Symbol) : RecordValid cbufClash k := by
  have hk := k.isLt
  obtain ⟨h1, h2, h3⟩ := cbufSeven_records k
  have hlen : recordLen cbufClash k = 7 := by
    rw [← h2]
    unfold recordLen
    rw [cbufClash_read]
    simp only [recordBase, Config.recordSize]
    omega
  have hsym : Memory.read cbufClash (recordBase k) = chr k := by
    rw [← h1]
    apply cbufClash_read
    simp only [recordBase, Config.recordSize]
    omega
  refine ⟨hsym, by omega, ?_⟩
  rw [hlen]
  by_cases h : k = 1
  · subst h
    decide +kernel
  · have hval : recordVal cbufClash k = recordVal cbufSeven k := by
      have hk1 : k.val ≠ 1 := fun e => h (Fin.ext e)
      unfold recordVal
      refine congrArg List.sum (List.map_congr_left fun j hj => ?_)
      rw [cbufClash_read]
      have := List.mem_range.1 hj
      simp only [recordBase, Config.recordSize]
      omega
    rw [hval, h3]
    omega

/-- The codebook 0, 10, which is prefix-free as far as it goes. -/
def codesTwo : Codebook := Vector.ofFn fun k => if k = 0 then ⟨1, 0⟩ else if k = 1 then ⟨2, 2⟩ else ⟨0, 0⟩

theorem witness_DecodeOfEncodeIsTheOperation :
    (Instr.cbwr 650 0).wf = true ∧ (Instr.rdreg (.weight 64)).wf = true ∧ (Instr.cntPut 0xFFFFFFFF).wf = true ∧
    (Instr.cntPut 0xFFFFFFFF).selectedIn .count = true ∧ (Instr.rdzero 0x7FF).wf = true := by decide

theorem witness_EncodeOfDecodeIsTheTransaction :
    decode .idle (.read 0x1A2B) = .ok (.cbrd 650) ∧ decode .idle (.read 0x1A2C) = .ok (.rdzero 0x68B) ∧
    decode .idle (.read 0x203) = .ok (.rdreg (.weight 64)) ∧ decode .idle (.read 0x204) = .ok (.rdzero 0x081) := by decide

theorem witness_CommandWordIsDecodedOpcodeFirst :
    byteOffset (wordIndex 0x007) = 0x004 ∧
    (0x62 : Byte) ∉ ([0x00, 0x01, 0x10, 0x11, 0x20, 0x21, 0x30, 0x40, 0x41, 0x50, 0x60, 0x61] : List Byte) ∧
    (0x61 : Byte) ∈ ([0x00, 0x01, 0x10, 0x11, 0x20, 0x21, 0x30, 0x40, 0x41, 0x50, 0x60, 0x61] : List Byte) ∧
    (0x00000161 : Word).extractLsb' 8 24 ≠ 0 ∧ (0x00000061 : Word).extractLsb' 8 24 = 0 := by decide

theorem witness_StepRunsTheDecodedOperation :
    (let s := { State.reset with pending := [.bus (.write 0x004 0x10)] }
     s.rstN = true ∧ s.pending = [.bus (.write 0x004 0x10)] ∧ decode s.mode (.write 0x004 0x10) = .ok .cntBegin) ∧
    (let s := { State.reset with rstN := false, pending := [.bus (.read 0x014)] }
     s.rstN = false ∧ s.pending = [.bus (.read 0x014)]) ∧ State.reset.pending = [] := by decide

theorem witness_BadCommandWordRaisesBadCmd :
    let s := { inMode .unpack with pending := [.bus (.write 0x005 0xFFFFFFFF), .resetFall] }
    s.rstN = true ∧ s.pending = .bus (.write 0x005 0xFFFFFFFF) :: [.resetFall] ∧ byteOffset (wordIndex 0x005) = 0x004 ∧
      s.mode ≠ .error ∧
      (0xFF : Byte) ∉ ([0x00, 0x01, 0x10, 0x11, 0x20, 0x21, 0x30, 0x40, 0x41, 0x50, 0x60, 0x61] : List Byte) := by decide

theorem witness_ErrorModeIgnoresAllCommandsButReset :
    (let s := { inMode .error with pending := [.bus (.write 0x004 0x00000101)] }
     s.rstN = true ∧ s.pending = [.bus (.write 0x004 0x00000101)] ∧ byteOffset (wordIndex 0x004) = 0x004 ∧
       s.mode = .error ∧ (0x00000101 : Word) ≠ 0x00000001) ∧
    (let s := { inMode .error with pending := [.bus (.write 0x004 0x00000001)] }
     s.rstN = true ∧ s.pending = [.bus (.write 0x004 0x00000001)] ∧ s.mode = .error) := by decide

theorem witness_ResetLineRestoresResetState :
    { inMode .pack with pending := [.resetFall, .bus (.write 0x004 0x10), .resetRise, .bus (.read 0)] }.pending =
      .resetFall :: (([.write 0x004 0x10] : List Transaction).map Event.bus ++ .resetRise :: [.bus (.read 0)]) := by
  decide

theorem witness_NopHasNoEffect :
    (0x00000100 : Word).extractLsb' 0 8 = (0x00 : BitVec 8) ∧ (0x00000100 : Word) ≠ 0x00000000 ∧
    (inMode .count).mode ≠ .error := by decide

theorem witness_TeardownClearsTheArena :
    (inMode .error).mode = .error ∧ (inMode .pack).mode = .pack ∧ (State.reset.mode = .idle ∧ State.reset.tv = false) ∧
    (generated.mode = .idle ∧ generated.tv = true) := by decide

theorem witness_CntBeginClearsCountTreeAndCodebook :
    (inMode .error).mode = .error ∧ (inMode .count).mode = .count ∧ generated.mode = .idle := by decide

theorem witness_CntPutCountsOneSymbol :
    (inMode .count).mode = .count ∧ idx ((0x0000002D : Word).extractLsb' 0 8) = none ∧
    idx ((0xFFFFFF3D : Word).extractLsb' 0 8) = some 64 ∧
    { inMode .count with nsym := 0xFFFFFFFF }.nsym = 0xFFFFFFFF ∧
    { inMode .count with nsym := 0xFFFFFFFE }.nsym ≠ 0xFFFFFFFF := by decide

theorem witness_CntEndValidatesTheCount :
    (inMode .error).mode = .error ∧ (inMode .unpack).mode = .unpack ∧ (inMode .count).mode = .count := by decide

theorem witness_CountingIsOrderIndependent :
    State.reset.mode = .idle ∧ ([0x41, 0x100003D, 0x41] : List Word).length < 2 ^ 32 ∧
    ∀ v ∈ ([0x41, 0x100003D, 0x41] : List Word), idx (v.extractLsb' 0 8) ≠ none := by
  refine ⟨rfl, by simp, ?_⟩
  simp only [List.mem_cons, List.not_mem_nil, or_false]
  rintro v (rfl | rfl | rfl) <;> decide

theorem witness_BuildWritesArenaAndTv :
    (inMode .error).mode = .error ∧ (inMode .count).mode = .count ∧ (State.reset.mode = .idle ∧ State.reset.wv = false) ∧
    (generated.mode = .idle ∧ generated.wv = true) := by decide

theorem witness_MergeRoundJoinsTheTwoLightest : (0 : Nat) < 64 ∧ (63 : Nat) < 64 := by decide

theorem witness_BuildMakesAStrictTree :
    generated.mode = .idle ∧ generated.wv = true ∧ CountAgrees generated := by
  refine ⟨rfl, rfl, ?_⟩
  unfold CountAgrees
  decide +kernel

theorem witness_RebuildGivesTheSameArena :
    (withTree weightsTWFu).mode = .idle ∧ (withTree weightsTWFu).wv = true ∧ (withTree weightsTWFu).tv = true ∧
    TreeAgrees (withTree weightsTWFu) :=
  have h := withTree_ready weightsTWFu
  ⟨h.1, h.2.1, h.2.2.1, h.2.2.2.2.2⟩

theorem witness_GencodeWritesCodebookAndTotals :
    (inMode .error).mode = .error ∧ (inMode .pack).mode = .pack ∧ (State.reset.mode = .idle ∧ State.reset.tv = false) ∧
    (let s := { generated with arena := chainOf65 }
     s.mode = .idle ∧ s.tv = true ∧ 64 < codeLength s.arena 0 ∧ ∀ j < (0 : Symbol), codeLength s.arena j ≤ 64) ∧
    (let s := { generated with arena := chainOf64 }
     s.mode = .idle ∧ s.tv = true ∧ codeLength s.arena 0 = 64 ∧ ∀ k : Symbol, codeLength s.arena k ≤ 64) := by
  decide +kernel

theorem witness_GencodeCodebookIsPrefixFreeAndComplete :
    (withTree weightsTWFu).mode = .idle ∧ (withTree weightsTWFu).tv = true ∧
    (withTree weightsTWFu).arena = buildArena (withTree weightsTWFu).w clearedArena :=
  have h := withTree_ready weightsTWFu
  ⟨h.1, h.2.2.1, h.2.2.2.1⟩

theorem witness_CodeLeadsFromRootToLeaf :
    (withTree (Vector.replicate 65 0)).mode = .idle ∧ (withTree (Vector.replicate 65 0)).tv = true ∧
    (withTree (Vector.replicate 65 0)).arena = buildArena (withTree (Vector.replicate 65 0)).w clearedArena :=
  have h := withTree_ready (Vector.replicate 65 0)
  ⟨h.1, h.2.2.1, h.2.2.2.1⟩

theorem witness_GencodeTotalsAndPadding :
    generated.mode = .idle ∧ generated.tv = true ∧ (∀ k : Symbol, codeLength generated.arena k ≤ 64) ∧
    CountAgrees generated := by
  unfold CountAgrees
  decide +kernel

theorem witness_GencodeSerializesTheCodebook :
    let s := { generated with arena := chainOf64, cbuf := [(0, 9), (651, 1)] }
    s.mode = .idle ∧ s.tv = true ∧ (∀ k : Symbol, codeLength s.arena k ≤ 64) ∧ Memory.wf s.cbuf = true := by
  decide +kernel

theorem witness_LoadAfterGencodeReproducesTheCodebook :
    (withTree weightsTWFu).mode = .idle ∧ (withTree weightsTWFu).tv = true ∧
    (withTree weightsTWFu).arena = buildArena (withTree weightsTWFu).w clearedArena ∧
    Memory.wf (withTree weightsTWFu).cbuf = true :=
  have h := withTree_ready weightsTWFu
  ⟨h.1, h.2.2.1, h.2.2.2.1, h.2.2.2.2.1⟩

theorem witness_PackBeginStartsAnEmptyPayload :
    (inMode .error).mode = .error ∧ (inMode .unpack).mode = .unpack ∧
    (State.reset.mode = .idle ∧ State.reset.cv = false) ∧
    (let s := { State.reset with cv := true }
     s.mode = .idle ∧ s.cv = true ∧ s.ce = false) ∧
    (generated.mode = .idle ∧ generated.cv = true ∧ generated.ce = true) := by decide

/-- OFIFO at 9 and 8 bytes, PNSYM at NSYM and one below, ACC at 7 bits, a code of 64 bits. -/
theorem witness_PackPutAppendsTheCode :
    (let s := { inMode .pack with ofifo := List.replicate 9 0 }
     s.mode = .pack ∧ 8 < s.ofifo.length) ∧
    (let s := { inMode .pack with ofifo := List.replicate 8 0 }
     s.mode = .pack ∧ s.ofifo.length ≤ 8 ∧ idx ((0x2D : Word).extractLsb' 0 8) = none) ∧
    (let s := { inMode .pack with nsym := 4, pnsym := 4 }
     s.mode = .pack ∧ s.ofifo.length ≤ 8 ∧ idx ((0x54 : Word).extractLsb' 0 8) = some 19 ∧
       s.nsym.toNat ≤ s.pnsym.toNat) ∧
    (let s := { inMode .pack with
                nsym := 4, pnsym := 3, accn := 7, ofifo := List.replicate 8 0, cb := Vector.replicate 65 ⟨64, 1⟩ }
     s.mode = .pack ∧ s.ofifo.length ≤ 8 ∧ s.pnsym.toNat < s.nsym.toNat ∧ s.accn.toNat < 8 ∧
       s.cb[19].len.toNat ≤ 64) := by decide

theorem witness_PackEndFlushesTheLastByte :
    (inMode .error).mode = .error ∧ (inMode .count).mode = .count ∧
    (let s := { inMode .pack with ofifo := List.replicate 9 0 }
     s.mode = .pack ∧ 8 < s.ofifo.length) ∧
    (let s := { inMode .pack with nsym := 1 }
     s.mode = .pack ∧ s.ofifo.length ≤ 8 ∧ s.pnsym ≠ s.nsym) ∧
    (let s := { inMode .pack with bitcnt := 10, totalbits := 9 }
     s.mode = .pack ∧ s.ofifo.length ≤ 8 ∧ s.pnsym = s.nsym ∧ s.bitcnt.toNat ≠ s.totalbits.toNat) ∧
    (let s := { inMode .pack with ofifo := List.replicate 8 0, bitcnt := 9, totalbits := 9, accn := 7 }
     s.mode = .pack ∧ s.ofifo.length ≤ 8 ∧ s.pnsym = s.nsym ∧ s.bitcnt.toNat = s.totalbits.toNat ∧
       s.accn.toNat < 8) := by decide

theorem witness_PackingDeliversThePayload :
    generated.mode = .idle ∧ generated.cv = true ∧ generated.ce = true ∧
    (∀ k : Symbol, generated.cb[k].len.toNat ≤ 64) ∧ generated.nsym.toNat = ([19, 22, 5, 46] : List Symbol).length ∧
    generated.totalbits.toNat = (textBits generated.cb [19, 22, 5, 46]).length ∧
    generated.pad = padOf generated.totalbits := by decide +kernel

theorem witness_LoadTakesExactlyValidCodebooks :
    (inMode .error).mode = .error ∧ (inMode .pack).mode = .pack ∧
    { State.reset with cbuf := cbufSeven }.mode = .idle ∧ CbufValid cbufSeven ∧ ¬ CbufValid State.reset.cbuf := by
  refine ⟨rfl, rfl, rfl, ?_, fun h => absurd (h.2.1 0).1 (by decide)⟩
  exact ⟨by decide +kernel, cbufSeven_valid, by rw [loadedCodebook_cbufSeven]; exact codesSeven_prefixFree⟩

/-- The header at 8 and 7; SYM, LEN 0 and 65, and VAL = 2^LEN wrong in a record after valid ones; the pair (0, 1) equal. -/
theorem witness_LoadReportsTheFirstFailure :
    State.reset.mode = .idle ∧ 7 < (Memory.read [(0, 8)] 0).toNat ∧ (Memory.read [(0, 7)] 0).toNat ≤ 7 ∧
    (let m : Memory := [(1, 0x41), (2, 1)]
     (∀ j < (1 : Symbol), RecordValid m j) ∧ Memory.read m (recordBase 1) ≠ chr 1) ∧
    (let m : Memory := [(1, 0x41), (2, 1), (11, 0x42)]
     (∀ j < (1 : Symbol), RecordValid m j) ∧ Memory.read m (recordBase 1) = chr 1 ∧
       ¬ (1 ≤ recordLen m 1 ∧ recordLen m 1 ≤ 64)) ∧
    (let m : Memory := [(1, 0x41), (2, 1), (11, 0x42), (12, 65)]
     (∀ j < (1 : Symbol), RecordValid m j) ∧ ¬ (1 ≤ recordLen m 1 ∧ recordLen m 1 ≤ 64)) ∧
    (let m : Memory := [(1, 0x41), (2, 1), (11, 0x42), (12, 2), (20, 4)]
     (∀ j < (1 : Symbol), RecordValid m j) ∧ Memory.read m (recordBase 1) = chr 1 ∧
       (1 ≤ recordLen m 1 ∧ recordLen m 1 ≤ 64) ∧ 2 ^ recordLen m 1 ≤ recordVal m 1) := by
  unfold RecordValid
  decide +kernel

theorem witness_LoadReportsTheFirstFailure_pair :
    (∀ k : Symbol, RecordValid cbufClash k) ∧ (0 : Symbol) < 1 ∧ RecordsClash cbufClash 0 1 ∧
      ∀ i' j' : Symbol, i' < j' → i' < 0 ∨ (i' = 0 ∧ j' < 1) → ¬ RecordsClash cbufClash i' j' := by
  refine ⟨cbufClash_valid, by decide, ?_, ?_⟩
  · unfold RecordsClash
    decide +kernel
  · intro i' j' h hl
    simp only [Fin.lt_def, Fin.ext_iff] at h hl
    simp only [Fin.val_zero, Fin.val_one] at hl
    omega

theorem witness_UnpackBeginStartsAtTheRoot :
    (inMode .error).mode = .error ∧ (inMode .pack).mode = .pack ∧ (State.reset.mode = .idle ∧ State.reset.cv = false) ∧
    (generated.mode = .idle ∧ generated.cv = true) := by decide

theorem witness_UnpackPutWalksTheHeldByte :
    (let s := { inMode .unpack with ofifo := List.replicate 9 0 }
     s.mode = .unpack ∧ 8 < s.ofifo.length) ∧
    (let s := { inMode .unpack with ofifo := List.replicate 8 0 }
     s.mode = .unpack ∧ s.ofifo.length ≤ 8 ∧ s.pendv = false) ∧
    (let s := { inMode .unpack with cb := codesTWFu, pend := 0x1F, pendv := true }
     s.mode = .unpack ∧ s.ofifo.length ≤ 8 ∧ s.pendv = true ∧ ∃ t, walkByte s.pend 8 s = .going t) ∧
    (let s := { inMode .unpack with cb := codesSeven, pend := 0xFF, pendv := true }
     s.mode = .unpack ∧ s.ofifo.length ≤ 8 ∧ s.pendv = true ∧ ∃ t, walkByte s.pend 8 s = .stopped t) := by
  refine ⟨by decide, by decide, ⟨rfl, by decide, rfl, ?_⟩, ⟨rfl, by decide, rfl, ?_⟩⟩ <;> exact ⟨_, rfl⟩

/-- A code is complete, is begun, or neither. -/
theorem witness_WalkBitFollowsTheCodebook :
    (let s := { inMode .unpack with cb := codesTwo }
     s.mode ≠ .error ∧ s.cb[(0 : Symbol)] = ⟨s.curLen + 1, s.curVal * 2 + 0⟩ ∧
       ∀ j < (0 : Symbol), s.cb[j] ≠ ⟨s.curLen + 1, s.curVal * 2 + 0⟩) ∧
    (let s := { inMode .unpack with cb := codesTwo }
     (∀ k : Symbol, s.cb[k] ≠ ⟨s.curLen + 1, s.curVal * 2 + 1⟩) ∧
       ∃ k : Symbol, (s.curLen + 1).toNat < s.cb[k].len.toNat ∧
         s.cb[k].val.toNat / 2 ^ (s.cb[k].len.toNat - (s.curLen + 1).toNat) = (s.curVal * 2 + 1).toNat) ∧
    (let s := { inMode .unpack with cb := codesTwo, curLen := 1, curVal := 1 }
     (∀ k : Symbol, s.cb[k] ≠ ⟨s.curLen + 1, s.curVal * 2 + 1⟩) ∧
       ¬ ∃ k : Symbol, (s.curLen + 1).toNat < s.cb[k].len.toNat ∧
         s.cb[k].val.toNat / 2 ^ (s.cb[k].len.toNat - (s.curLen + 1).toNat) = (s.curVal * 2 + 1).toNat) := by
  decide +kernel

/-- A byte's walk of up to 7 bits that goes on, and one that has stopped. -/
theorem witness_WalkBitFollowsTheCodebook_byte :
    (∃ t, walkByte 0x1F 7 { inMode .unpack with cb := codesTWFu } = .going t) ∧
    ∃ t, walkByte 0xFF 7 { inMode .unpack with cb := codesSeven } = .stopped t := ⟨⟨_, rfl⟩, ⟨_, rfl⟩⟩

/-- T-UNP-5: 1 begins the code 1000000, and 11 begins none. -/
theorem witness_WalkIsTheTrieOfTheCodebook :
    let s := { inMode .unpack with cb := codesSeven }
    s.cb.valid ∧ s.mode ≠ .error ∧ s.curLen = 0 ∧ s.curVal = 0 ∧ InnerPosition s.cb [true] ∧
      ∀ k : Symbol, ¬ ([true] ++ [true]) <+: s.cb[k].bits := by
  refine ⟨⟨?_, codesSeven_prefixFree⟩, ?_⟩
  · unfold Codebook.inRange
    decide +kernel
  · unfold InnerPosition
    decide +kernel

theorem witness_UnpackEndWalksTheLastByte :
    (inMode .error).mode = .error ∧ (inMode .count).mode = .count ∧
    (let s := { inMode .unpack with ofifo := List.replicate 9 0 }
     s.mode = .unpack ∧ 8 < s.ofifo.length) ∧
    (let s := { inMode .unpack with pad := 7 }
     s.mode = .unpack ∧ s.ofifo.length ≤ 8 ∧ s.pendv = false ∧ s.pad ≠ 0) ∧
    (let s := { inMode .unpack with curLen := 1 }
     s.mode = .unpack ∧ s.ofifo.length ≤ 8 ∧ s.pendv = false ∧ s.pad = 0 ∧ s.curLen ≠ 0) ∧
    (let s := { inMode .unpack with ofifo := List.replicate 8 0 }
     s.mode = .unpack ∧ s.ofifo.length ≤ 8 ∧ s.pendv = false ∧ s.pad = 0 ∧ s.curLen = 0) := by decide

/-- The last byte's walk stops, ends inside a code, or ends at the root. -/
theorem witness_UnpackEndWalksTheLastByte_held :
    (let s := { inMode .unpack with cb := codesSeven, pend := 0xFF, pendv := true }
     s.mode = .unpack ∧ s.ofifo.length ≤ 8 ∧ s.pendv = true ∧ ∃ t, walkByte s.pend (8 - s.pad.toNat) s = .stopped t) ∧
    (let s := { inMode .unpack with cb := codesTWFu, pend := 0x1F, pendv := true, pad := 7 }
     s.mode = .unpack ∧ s.ofifo.length ≤ 8 ∧ s.pendv = true ∧
       ∃ t, walkByte s.pend (8 - s.pad.toNat) s = .going t ∧ t.curLen ≠ 0) ∧
    (let s := { inMode .unpack with cb := codesTWFu, pendv := true, pad := 7, curLen := 1, curVal := 1 }
     s.mode = .unpack ∧ s.ofifo.length ≤ 8 ∧ s.pendv = true ∧
       ∃ t, walkByte s.pend (8 - s.pad.toNat) s = .going t ∧ t.curLen = 0) := by
  refine ⟨⟨rfl, by decide, rfl, ⟨_, rfl⟩⟩, ⟨rfl, by decide, rfl, ⟨_, rfl, ?_⟩⟩, ⟨rfl, by decide, rfl, ⟨_, rfl, ?_⟩⟩⟩ <;>
    decide +kernel

theorem witness_UnpackOfPackIsTheText :
    let s := withCodebook weightsTWFu 4
    let text : List Symbol := [19, 22, 5, 46]
    s.mode = .idle ∧ s.cv = true ∧ s.ce = true ∧ s.cb = codebookOf (buildArena s.w clearedArena) ∧
      s.totalbits = BitVec.ofNat 38 (payloadBits s.w (buildArena s.w clearedArena)) ∧ s.pad = padOf s.totalbits ∧
      s.nsym.toNat = text.length ∧ ∀ k : Symbol, s.w[k].toNat = text.count k := by
  obtain ⟨h1, h2, h3, h4, h5, h6, h7, h8⟩ := withCodebook_ready weightsTWFu 4
  refine ⟨h1, h2, h3, h4, h5, h6, by rw [h7]; rfl, ?_⟩
  rw [h8]
  decide +kernel

theorem witness_DecodeOfEncodeIsTheText :
    State.reset.mode = .idle ∧ State.reset.ofifo = [] ∧ Memory.wf State.reset.cbuf = true ∧
    ([19, 22, 5, 46] : List Symbol).length < 2 ^ 32 := by decide

theorem witness_DinWriteIsTheOperationOfTheMode :
    byteOffset (wordIndex 0x013) = 0x010 ∧ (inMode .idle).mode = .idle ∧ (inMode .error).mode = .error ∧
    (inMode .count).mode = .count ∧ (inMode .pack).mode = .pack ∧ (inMode .unpack).mode = .unpack := by decide

theorem witness_RdregReturnsTheRegister : ({ State.reset with accn := 7 }).accn.toNat < 8 := by decide

theorem witness_GetPopsTheHead :
    State.reset.ofifo = [] ∧ { State.reset with ofifo := [0x1F, 0] }.ofifo = 0x1F :: [0] := by decide

theorem witness_CbufReadsWhatWasWritten :
    (650 : Nat) ≤ 650 ∧ Memory.wf [(5, 9), (650, 0xC2)] = true ∧ (649 : Nat) ≠ 650 := by decide

theorem witness_ReadsButDoutHaveNoSideEffect :
    byteOffset (wordIndex 0x013) ≠ 0x014 ∧ byteOffset (wordIndex 0x018) ≠ 0x014 := by decide

theorem witness_OnlyCountingWritesWeights :
    (∃ t, exec (.cntPut 0x41) (inMode .count) = .next t) ∧ Instr.cntPut 0x41 ≠ .cntBegin ∧ Instr.cntPut 0x41 ≠ .srst ∧
    (Instr.cntPut 0x41).selectedIn (inMode .count).mode = true := ⟨⟨_, rfl⟩, by decide, by decide, rfl⟩

theorem witness_FlagsHaveTheirWritersOnly :
    (∃ t, exec .cntEnd (inMode .count) = .next t) ∧ Instr.cntEnd ≠ .srst ∧ Instr.cntEnd ≠ .cntBegin :=
  ⟨⟨_, rfl⟩, by decide, by decide⟩

theorem witness_ErrorStaysUntilReset :
    (inMode .error).mode = .error ∧
    ∃ t, step { inMode .error with pending := [.bus (.write 0x004 0x20)] } = .next t := ⟨rfl, _, rfl⟩

theorem witness_CbufHasItsWritersOnly :
    (∃ t, exec (.cbwr 650 7) State.reset = .next t) ∧ Instr.cbwr 650 7 ≠ .srst := ⟨⟨_, rfl⟩, by decide⟩

/-- E_SEQ and NEG_BITS, whose words are neither 0x0606 nor 0x0706. -/
theorem witness_FailedChecksChangeOnlyErrAndMode :
    (∃ t, exec .build State.reset = .next t ∧ State.reset.mode ≠ .error ∧ t.mode = .error ∧
      t.err.extractLsb' 0 16 ≠ 0x0606 ∧ t.err.extractLsb' 0 16 ≠ 0x0706) ∧
    (let s := { inMode .unpack with pad := 7 }
     ∃ t, exec .unpackEnd s = .next t ∧ s.mode ≠ .error ∧ t.mode = .error ∧
      t.err.extractLsb' 0 16 ≠ 0x0606 ∧ t.err.extractLsb' 0 16 ≠ 0x0706) := by
  exact ⟨⟨_, rfl, by decide, rfl, by decide, by decide⟩, ⟨_, rfl, by decide, rfl, by decide, by decide⟩⟩

/-! The invariants' statements: a state not reset, that meets the invariant and is about to take a transaction. -/

/-- COUNT with one 'A' counted and another presented. -/
def counting : State :=
  { inMode .count with w := Vector.ofFn fun k => if k = 0 then 1 else 0, nsym := 1, dincnt := 1,
                       pending := [.bus (.write 0x010 0x41)] }

theorem witness_StepsKeepFlagsAgreeing : FlagsAgree counting ∧ ∃ t, step counting = .next t :=
  ⟨⟨by decide, by decide, by decide, by decide, by decide⟩, _, rfl⟩

theorem witness_StepsKeepNsymTheSumOfWeights : CountAgrees counting ∧ ∃ t, step counting = .next t := by
  refine ⟨?_, _, rfl⟩
  unfold CountAgrees
  decide +kernel

/-- IDLE with the tree of W and TEARDOWN presented. -/
def aboutToTearDown (w : Weights) : State := { withTree w with pending := [.bus (.write 0x004 0x21)] }

theorem aboutToTearDown_ready (w : Weights) :
    TreeAgrees (aboutToTearDown w) ∧ ∃ t, step (aboutToTearDown w) = .next t :=
  ⟨⟨fun _ => by contradiction, fun _ => by contradiction, fun _ => by simp only [aboutToTearDown, withTree]⟩, ⟨_, rfl⟩⟩

theorem witness_StepsKeepTheTreeThatOfTheWeights :
    TreeAgrees (aboutToTearDown weightsTWFu) ∧ ∃ t, step (aboutToTearDown weightsTWFu) = .next t :=
  aboutToTearDown_ready weightsTWFu

/-- IDLE with the codebook of W and PACK_BEGIN presented. -/
def aboutToPack (w : Weights) (nsym : BitVec 32) : State :=
  { withCodebook w nsym with pending := [.bus (.write 0x004 0x40)] }

theorem aboutToPack_ready (w : Weights) (nsym : BitVec 32) :
    TreeAgrees (aboutToPack w nsym) ∧ EncodeAgrees (aboutToPack w nsym) ∧ ∃ t, step (aboutToPack w nsym) = .next t :=
  ⟨⟨fun _ => by contradiction, fun _ => by contradiction, fun _ => by simp only [aboutToPack, withCodebook, withTree]⟩,
    ⟨fun _ => by contradiction, fun _ => by simp only [aboutToPack, withCodebook, withTree, and_self]⟩, ⟨_, rfl⟩⟩

theorem witness_StepsKeepTheEncodeCodebook :
    TreeAgrees (aboutToPack weightsTWFu 4) ∧ EncodeAgrees (aboutToPack weightsTWFu 4) ∧
    ∃ t, step (aboutToPack weightsTWFu 4) = .next t := aboutToPack_ready weightsTWFu 4

/-- IDLE with T-UNP-5's codebook loaded and UNPACK_BEGIN presented. -/
def aboutToUnpack : State :=
  { State.reset with cv := true, cb := codesSeven, cbuf := cbufSeven, pending := [.bus (.write 0x004 0x60)] }

theorem witness_StepsKeepTheCodebookValid :
    TreeAgrees aboutToUnpack ∧ CodebookAgrees aboutToUnpack ∧ ∃ t, step aboutToUnpack = .next t := by
  refine ⟨⟨by decide, fun _ => rfl, by decide⟩, ⟨fun _ => ?_, by decide⟩, _, rfl⟩
  refine ⟨?_, codesSeven_prefixFree⟩
  unfold Codebook.inRange
  decide +kernel

/-- PACK at the edges: 8 bytes in OFIFO, 7 bits in ACC, one symbol of two packed, and a code of 64 bits to come. -/
def packing : State :=
  { inMode .pack with
    ofifo := List.replicate 8 0xFF, acc := 0x7F, accn := 7, nsym := 2, pnsym := 1,
    cb := Vector.replicate 65 ⟨64, 0xFFFFFFFFFFFFFFFF⟩, pending := [.bus (.write 0x010 0x41)] }

theorem witness_StepsKeepTheFifoBounded : FifoBounded packing ∧ ∃ t, step packing = .next t :=
  ⟨⟨by decide, by decide, by decide +kernel, fun _ => by decide⟩, _, rfl⟩

/-- UNPACK inside a code, with a byte held and another presented. -/
def unpacking : State :=
  { inMode .unpack with cb := codesSeven, curLen := 1, curVal := 1, pend := 0xC3, pendv := true,
                        pending := [.bus (.write 0x010 0x00)] }

theorem witness_StepsKeepTheWalkBounded : WalkBounded unpacking ∧ ∃ t, step unpacking = .next t :=
  ⟨⟨by decide, by decide +kernel, fun _ => .inr (by decide +kernel), by decide, by decide⟩, _, rfl⟩

theorem witness_StepsKeepErrAgreeingWithMode :
    let s := { inMode .error with err := 0x00130008, pending := [.bus (.write 0x004 0x01)] }
    ErrorAgrees s ∧ ∃ t, step s = .next t := ⟨⟨by decide, by decide⟩, _, rfl⟩

theorem witness_StepsKeepCbufCanonical :
    let s := { State.reset with cbuf := [(0, 7), (650, 1)], pending := [.bus (.write 0x004 0x10)] }
    CbufCanonical s ∧ ∃ t, step s = .next t := ⟨⟨by decide, by decide⟩, ⟨_, rfl⟩⟩

end Sys2Proof.Tests
end

/-! PROOFS. What an operation can do, said once; the induction over a step. -/

namespace Sys2Proof.Machine

/-! ### What an operation can do, said once (46_bus_access.md R265, 60_exceptions.md R298 to R300) -/

/-- CODE is one of the eight of 60_exceptions.md R290. -/
def HceError.Known (e : HceError) : Prop := 1 ≤ e.code.toNat ∧ e.code.toNat ≤ 8

@[simp] theorem eBadCmd_known (sub : BitVec 8) (op : Byte) : (eBadCmd sub op).Known := by
  simp [HceError.Known, eBadCmd]

@[simp] theorem eSeq_known (sub : BitVec 8) (arg : BitVec 16) : (eSeq sub arg).Known := by
  simp [HceError.Known, eSeq]

@[simp] theorem eBadSym_known (c : Byte) : (eBadSym c).Known := by
  simp [HceError.Known, eBadSym]

@[simp] theorem eOverflow_known (k : Symbol) : (eOverflow k).Known := by
  simp [HceError.Known, eOverflow]

@[simp] theorem eOverrun_known (arg : BitVec 16) : (eOverrun arg).Known := by
  simp [HceError.Known, eOverrun]

@[simp] theorem eMalformed_known (sub : BitVec 8) (arg : BitVec 16) : (eMalformed sub arg).Known := by
  simp [HceError.Known, eMalformed]

@[simp] theorem eMismatch_known (sub : BitVec 8) (arg : BitVec 16) : (eMismatch sub arg).Known := by
  simp [HceError.Known, eMismatch]

@[simp] theorem eCodeTooLong_known (k : Symbol) : (eCodeTooLong k).Known := by
  simp [HceError.Known, eCodeTooLong]

theorem rejectError_known (r : DecodeReject) : (rejectError r).Known := by
  cases r <;> exact eBadCmd_known _ _

/-- Checks with known errors fail with a known error. -/
theorem firstFailure_known {cs : List Check} {e : HceError} (hcs : ∀ c ∈ cs, c.error.Known)
    (h : firstFailure cs = some e) : e.Known := by
  obtain ⟨c, hc, -, rfl⟩ := firstFailure_eq_some h
  exact hcs c hc

/-! #### The checks of each operation: which errors they raise, and what holds when they pass -/

theorem modeCheck_known {s : State} {m : Mode} {op : BitVec 16} {e : HceError}
    (h : firstFailure [modeCheck s m op] = some e) : e.Known :=
  firstFailure_known (by simp [modeCheck]) h

theorem modeCheck_eq_none {s : State} {m : Mode} {op : BitVec 16} (h : firstFailure [modeCheck s m op] = none) :
    s.mode = m := by
  simpa [firstFailure_eq_none, modeCheck] using h

/-- IN_READY is that OFIFO holds at most 8 bytes (10_state.md R30). -/
theorem inReady_iff (s : State) : s.inReady = true ↔ s.ofifo.length ≤ 8 := by
  have h : s.inReady = decide (8 ≤ 16 - s.ofifo.length) := rfl
  rw [h, decide_eq_true_eq]
  omega

theorem spaceCheck_eq_none {s : State} {arg : BitVec 16} :
    firstFailure [spaceCheck s arg] = none ↔ s.ofifo.length ≤ 8 := by
  simp [firstFailure_eq_none, spaceCheck, inReady_iff]

theorem teardownFailure_known {s : State} {e : HceError} (h : teardownFailure s = some e) : e.Known :=
  firstFailure_known (by simp [modeCheck]) h

theorem teardownFailure_eq_none {s : State} (h : teardownFailure s = none) : s.mode = .idle ∧ s.tv = true := by
  simpa [teardownFailure, firstFailure_eq_none, modeCheck] using h

theorem buildFailure_known {s : State} {e : HceError} (h : buildFailure s = some e) : e.Known :=
  firstFailure_known (by simp [modeCheck]) h

theorem buildFailure_eq_none {s : State} (h : buildFailure s = none) : s.mode = .idle ∧ s.wv = true := by
  simpa [buildFailure, firstFailure_eq_none, modeCheck] using h

theorem packBeginFailure_known {s : State} {e : HceError} (h : packBeginFailure s = some e) : e.Known :=
  firstFailure_known (by simp [modeCheck]) h

theorem packBeginFailure_eq_none {s : State} (h : packBeginFailure s = none) :
    s.mode = .idle ∧ s.cv = true ∧ s.ce = true := by
  simpa [packBeginFailure, firstFailure_eq_none, modeCheck] using h

theorem packEndFailure_known {s : State} {e : HceError} (h : packEndFailure s = some e) : e.Known :=
  firstFailure_known (by simp [modeCheck, spaceCheck]) h

theorem packEndFailure_eq_none {s : State} (h : packEndFailure s = none) :
    s.mode = .pack ∧ s.ofifo.length ≤ 8 ∧ s.pnsym = s.nsym ∧ s.bitcnt.toNat = s.totalbits.toNat := by
  simpa [packEndFailure, firstFailure_eq_none, modeCheck, spaceCheck, inReady_iff] using h

theorem unpackBeginFailure_known {s : State} {e : HceError} (h : unpackBeginFailure s = some e) : e.Known :=
  firstFailure_known (by simp [modeCheck]) h

theorem unpackBeginFailure_eq_none {s : State} (h : unpackBeginFailure s = none) : s.mode = .idle ∧ s.cv = true := by
  simpa [unpackBeginFailure, firstFailure_eq_none, modeCheck] using h

theorem unpackEndFailure_known {s : State} {e : HceError} (h : unpackEndFailure s = some e) : e.Known :=
  firstFailure_known (by simp [modeCheck, spaceCheck]) h

theorem unpackEndFailure_eq_none {s : State} (h : unpackEndFailure s = none) :
    s.mode = .unpack ∧ s.ofifo.length ≤ 8 ∧ (s.pendv = true ∨ s.pad = 0) := by
  simpa [unpackEndFailure, firstFailure_eq_none, modeCheck, spaceCheck, inReady_iff] using h

theorem firstTooLong_eq_none {arena : Arena} : firstTooLong arena = none ↔ ∀ k : Symbol, codeLength arena k ≤ 64 := by
  have h : firstTooLong arena = none ↔ ∀ k : Symbol, codeLength arena k ≤ Config.maxCodeLen := by
    simp [firstTooLong, symbols]
  exact h

theorem gencodeFailure_known {s : State} {e : HceError} (h : gencodeFailure s = some e) : e.Known := by
  unfold gencodeFailure at h
  split at h
  · next e' he =>
    obtain rfl : e' = e := by simpa using h
    exact firstFailure_known (by simp [modeCheck]) he
  · obtain ⟨k, -, rfl⟩ := Option.map_eq_some_iff.1 h
    exact eCodeTooLong_known k

theorem gencodeFailure_eq_none {s : State} (h : gencodeFailure s = none) :
    s.mode = .idle ∧ s.tv = true ∧ ∀ k : Symbol, codeLength s.arena k ≤ 64 := by
  unfold gencodeFailure at h
  split at h
  · simp at h
  · next hc =>
    have hc : s.mode = .idle ∧ s.tv = true := by simpa [firstFailure_eq_none, modeCheck] using hc
    exact ⟨hc.1, hc.2, firstTooLong_eq_none.1 (Option.map_eq_none_iff.1 h)⟩

theorem recordFailure_known {m : Memory} {k : Symbol} {e : HceError} (h : recordFailure m k = some e) : e.Known :=
  firstFailure_known (by simp) h

theorem pairFailure_known {m : Memory} {i j : Symbol} {e : HceError} (h : pairFailure m i j = some e) : e.Known := by
  unfold pairFailure at h
  split at h
  · obtain rfl := Option.some.inj h
    exact eMalformed_known _ _
  · simp at h

theorem codebookFailure_known {m : Memory} {e : HceError} (h : codebookFailure m = some e) : e.Known := by
  unfold codebookFailure at h
  split at h
  · next hc =>
    obtain rfl := Option.some.inj h
    exact firstFailure_known (by simp) hc
  · split at h
    · next hr =>
      obtain rfl := Option.some.inj h
      obtain ⟨k, -, hk⟩ := List.exists_of_findSome?_eq_some hr
      exact recordFailure_known hk
    · obtain ⟨i, -, hi⟩ := List.exists_of_findSome?_eq_some h
      obtain ⟨j, -, hj⟩ := List.exists_of_findSome?_eq_some hi
      exact pairFailure_known hj

theorem loadFailure_known {s : State} {e : HceError} (h : loadFailure s = some e) : e.Known := by
  unfold loadFailure at h
  split at h
  · next hc =>
    obtain rfl := Option.some.inj h
    exact modeCheck_known hc
  · exact codebookFailure_known h

theorem loadFailure_eq_none {s : State} (h : loadFailure s = none) :
    s.mode = .idle ∧ codebookFailure s.cbuf = none := by
  unfold loadFailure at h
  split at h
  · simp at h
  · next hc => exact ⟨modeCheck_eq_none hc, h⟩

/-! #### The inversion of `exec` -/

/-- The five operations a DIN write of v can be, by MODE (30_encoding.md R102). -/
def IsDinWrite (v : Word) (i : Instr) : Prop :=
  i = .cntPut v ∨ i = .packPut v ∨ i = .unpackPut v ∨ i = .putIdle v ∨ i = .putErr v

/-- The effect of an operation whose checks have passed, with what they say of the state before. -/
inductive Effect : Instr → State → State → Prop
  | cntBegin {s : State} (mode : s.mode = .idle) : Effect .cntBegin s
      { s with
        w := Vector.replicate 65 0, nsym := 0, dincnt := 0, wv := false, tv := false, cv := false, ce := false,
        arena := clearedArena, cb := Vector.replicate 65 ⟨0, 0⟩, pad := 0, totalbits := 0, mode := .count }
  | cntEnd {s : State} (mode : s.mode = .count) : Effect .cntEnd s { s with wv := true, mode := .idle }
  | build {s : State} (mode : s.mode = .idle) (wv : s.wv = true) :
      Effect .build s { s with arena := buildArena s.w s.arena, tv := true }
  | teardown {s : State} (mode : s.mode = .idle) (tv : s.tv = true) :
      Effect .teardown s { s with arena := clearedArena, tv := false }
  | gencode {s : State} (mode : s.mode = .idle) (tv : s.tv = true) (short : ∀ k : Symbol, codeLength s.arena k ≤ 64) :
      Effect .gencode s (generate s)
  | packBegin {s : State} (mode : s.mode = .idle) (cv : s.cv = true) (ce : s.ce = true) : Effect .packBegin s
      { s with ofifo := [], acc := 0, accn := 0, bitcnt := 0, pnsym := 0, dincnt := 0, ocnt := 0, mode := .pack }
  | packEnd {s : State} (mode : s.mode = .pack) (space : s.ofifo.length ≤ 8) (symbols : s.pnsym = s.nsym)
      (bits : s.bitcnt.toNat = s.totalbits.toNat) :
      Effect .packEnd s { flush s with acc := 0, accn := 0, mode := .idle }
  | load {s : State} (mode : s.mode = .idle) (sound : codebookFailure s.cbuf = none) : Effect .load s
      { s with cb := loadedCodebook s.cbuf, pad := (Memory.read s.cbuf 0).setWidth 3, cv := true, ce := false }
  | unpackBegin {s : State} (mode : s.mode = .idle) (cv : s.cv = true) : Effect .unpackBegin s
      { s with ofifo := [], pend := 0, pendv := false, curLen := 0, curVal := 0, bitcnt := 0, dincnt := 0, ocnt := 0,
               mode := .unpack }
  | unpackEnd {s : State} (mode : s.mode = .unpack) (space : s.ofifo.length ≤ 8)
      (held : s.pendv = true ∨ s.pad = 0) : Effect .unpackEnd s (finishUnpack s)
  | counted {s : State} {i : Instr} {v : Word} {k : Symbol} (din : IsDinWrite v i) (mode : s.mode = .count)
      (symbol : idx (lowByte v) = some k) (room : s.nsym.toNat < Config.nsymLimit) : Effect i s (countOne k s)
  | packed {s : State} {i : Instr} {v : Word} {k : Symbol} (din : IsDinWrite v i) (mode : s.mode = .pack)
      (space : s.ofifo.length ≤ 8) (symbol : idx (lowByte v) = some k) (room : s.pnsym.toNat < s.nsym.toNat) :
      Effect i s (packOne k s)
  | unpacked {s : State} {i : Instr} {v : Word} (din : IsDinWrite v i) (mode : s.mode = .unpack)
      (space : s.ofifo.length ≤ 8) : Effect i s (unpackByte (lowByte v) s)
  | popped {s : State} {b : Byte} {rest : List Byte} (head : s.ofifo = b :: rest) :
      Effect .get s ({ s with ofifo := rest }.answer (doutWord b))
  | stored {s : State} {a : Nat} {v : Word} (index : a ≤ 650) :
      Effect (.cbwr a v) s { s with cbuf := Memory.write s.cbuf a (lowByte v) }

/-- Everything an operation can do: nothing, answer a read, raise a known error, reset the block, or have its effect. -/
inductive Ran (i : Instr) (s : State) : State → Prop
  | ignored : Ran i s s
  | answered (v : Word) : Ran i s (s.answer v)
  | raised {e : HceError} (known : e.Known) (running : s.mode ≠ .error) : Ran i s (raise e s)
  | cleared (srst : i = .srst) : Ran i s s.clearAll
  | effect {t : State} (h : Effect i s t) : Ran i s t

/-- A command is ignored, raises the error its checks found, or has its effect. -/
theorem command_ran {i : Instr} {s u t : State} {failure : Option HceError} (h : command s failure u = .next t)
    (known : ∀ e, failure = some e → e.Known) (effect : failure = none → Effect i s u) : Ran i s t := by
  rcases command_cases h with ⟨-, rfl⟩ | ⟨hm, e, he, rfl⟩ | ⟨-, hf, rfl⟩
  · exact .ignored
  · rw [← raise_of_running e hm]
    exact .raised (known e he) hm
  · exact .effect (effect hf)

theorem countByte_ran {i : Instr} {v : Word} {s : State} (din : IsDinWrite v i) (mode : s.mode = .count) :
    Ran i s (countByte (lowByte v) s) := by
  have running : s.mode ≠ .error := by simp [mode]
  unfold countByte
  split
  · exact .raised (eBadSym_known _) running
  · next k symbol =>
    rcases attempt_cases (firstFailure [⟨s.nsym.toNat < Config.nsymLimit, eOverflow k⟩]) s (countOne k s) with
      ⟨hf, h⟩ | ⟨e, he, h⟩
    · rw [h]
      exact .effect (.counted din mode symbol (by simpa [firstFailure_eq_none] using hf))
    · rw [h]
      exact .raised (firstFailure_known (by simp) he) running

theorem packByte_ran {i : Instr} {v : Word} {s : State} (din : IsDinWrite v i) (mode : s.mode = .pack) :
    Ran i s (packByte (lowByte v) s) := by
  have running : s.mode ≠ .error := by simp [mode]
  unfold packByte
  split
  · next he => exact .raised (firstFailure_known (by simp [spaceCheck]) he) running
  · next hs =>
    split
    · exact .raised (eBadSym_known _) running
    · next k symbol =>
      rcases attempt_cases (firstFailure [⟨s.pnsym.toNat < s.nsym.toNat, eMismatch 1 (BitVec.ofNat 16 k.val)⟩]) s
        (packOne k s) with ⟨hf, h⟩ | ⟨e, he, h⟩
      · rw [h]
        exact .effect (.packed din mode (spaceCheck_eq_none.1 hs) symbol (by simpa [firstFailure_eq_none] using hf))
      · rw [h]
        exact .raised (firstFailure_known (by simp) he) running

theorem unpackByte_ran {i : Instr} {v : Word} {s : State} (din : IsDinWrite v i) (mode : s.mode = .unpack) :
    Ran i s (unpackByte (lowByte v) s) := by
  cases hf : firstFailure [spaceCheck s 0x0100] with
  | none => exact .effect (.unpacked din mode (spaceCheck_eq_none.1 hf))
  | some e =>
    have h : unpackByte (lowByte v) s = raise e s := by simp only [unpackByte, hf]
    rw [h]
    exact .raised (firstFailure_known (by simp [spaceCheck]) hf) (by simp [mode])

theorem dinWrite_ran {i : Instr} {v : Word} (s : State) (din : IsDinWrite v i) : Ran i s (dinWrite v s) := by
  unfold dinWrite
  split
  · next mode => exact countByte_ran din mode
  · next mode => exact packByte_ran din mode
  · next mode => exact unpackByte_ran din mode
  · next mode => exact .raised (eSeq_known _ _) (by simp [mode])
  · exact .ignored

/-- Each of the five DIN operations is the DIN write of the MODE there is (46_bus_access.md R267; log 6). -/
theorem exec_of_din {i : Instr} {v : Word} (s : State) (din : IsDinWrite v i) : exec i s = .next (dinWrite v s) := by
  rcases din with rfl | rfl | rfl | rfl | rfl <;> cases hm : s.mode <;>
    simp [exec, execCntPut, execPackPut, execUnpackPut, execPutIdle, execPutErr, dinWrite, hm]

/-- The inversion of `exec`: whatever an operation answers, it ran in one of the ways of `Ran`. -/
theorem exec_ran {i : Instr} {s t : State} (h : exec i s = .next t) : Ran i s t := by
  have din {v : Word} (hi : IsDinWrite v i) : Ran i s t := by
    obtain rfl : dinWrite v s = t := by simpa [exec_of_din s hi] using h
    exact dinWrite_ran s hi
  cases i with
  | nop | wrign =>
    obtain rfl := Host.Outcome.next.inj h
    exact .ignored
  | srst =>
    obtain rfl := Host.Outcome.next.inj h
    exact .cleared rfl
  | cntBegin => exact command_ran h (fun _ => modeCheck_known) fun hf => .cntBegin (modeCheck_eq_none hf)
  | cntEnd => exact command_ran h (fun _ => modeCheck_known) fun hf => .cntEnd (modeCheck_eq_none hf)
  | build =>
    exact command_ran h (fun _ => buildFailure_known) fun hf =>
      let ⟨mode, wv⟩ := buildFailure_eq_none hf
      .build mode wv
  | teardown =>
    exact command_ran h (fun _ => teardownFailure_known) fun hf =>
      let ⟨mode, tv⟩ := teardownFailure_eq_none hf
      .teardown mode tv
  | gencode =>
    exact command_ran h (fun _ => gencodeFailure_known) fun hf =>
      let ⟨mode, tv, short⟩ := gencodeFailure_eq_none hf
      .gencode mode tv short
  | packBegin =>
    exact command_ran h (fun _ => packBeginFailure_known) fun hf =>
      let ⟨mode, cv, ce⟩ := packBeginFailure_eq_none hf
      .packBegin mode cv ce
  | packEnd =>
    exact command_ran h (fun _ => packEndFailure_known) fun hf =>
      let ⟨mode, space, symbols, bits⟩ := packEndFailure_eq_none hf
      .packEnd mode space symbols bits
  | load =>
    exact command_ran h (fun _ => loadFailure_known) fun hf =>
      let ⟨mode, sound⟩ := loadFailure_eq_none hf
      .load mode sound
  | unpackBegin =>
    exact command_ran h (fun _ => unpackBeginFailure_known) fun hf =>
      let ⟨mode, cv⟩ := unpackBeginFailure_eq_none hf
      .unpackBegin mode cv
  | unpackEnd =>
    exact command_ran h (fun _ => unpackEndFailure_known) fun hf =>
      let ⟨mode, space, held⟩ := unpackEndFailure_eq_none hf
      .unpackEnd mode space held
  | cntPut v => exact din (.inl rfl)
  | packPut v => exact din (.inr (.inl rfl))
  | unpackPut v => exact din (.inr (.inr (.inl rfl)))
  | putIdle v => exact din (.inr (.inr (.inr (.inl rfl))))
  | putErr v => exact din (.inr (.inr (.inr (.inr rfl))))
  | get =>
    simp only [exec, execGet] at h
    split at h
    · obtain rfl := Host.Outcome.next.inj h
      exact .answered _
    · next head =>
      obtain rfl := Host.Outcome.next.inj h
      exact .effect (.popped head)
  | rdreg | cbrd | rdzero =>
    obtain rfl := Host.Outcome.next.inj h
    exact .answered _
  | cbwr a v =>
    simp only [exec, execCbwr] at h
    split at h
    · next index =>
      obtain rfl := Host.Outcome.next.inj h
      exact .effect (.stored (Nat.le_of_lt_succ index))
    · obtain rfl := Host.Outcome.next.inj h
      exact .ignored

/-! #### The induction over a step, once for every invariant -/

/-- What makes P an invariant of `step`: it holds at reset, does not depend on the port, and every error entry and every
effect of an operation keeps it. -/
structure Invariant (P : State → Prop) : Prop where
  reset : P State.reset
  port : ∀ (s : State) (rstN : Bool) (pending : List Event) (returned : List Word), P s →
    P { s with rstN := rstN, pending := pending, returned := returned }
  raise : ∀ (s : State) (e : HceError), P s → e.Known → s.mode ≠ .error → P (raise e s)
  effect : ∀ (i : Instr) (s t : State), P s → Effect i s t → P t

/-- An operation keeps an invariant. -/
theorem Invariant.ran {P : State → Prop} (inv : Invariant P) {i : Instr} {s t : State} (hs : P s) (h : Ran i s t) :
    P t := by
  cases h with
  | ignored => exact hs
  | answered v => exact inv.port s s.rstN s.pending (s.returned ++ [v]) hs
  | raised known running => exact inv.raise s _ hs known running
  | cleared => exact inv.port State.reset s.rstN s.pending s.returned inv.reset
  | effect h => exact inv.effect i s t hs h

theorem Invariant.transaction {P : State → Prop} (inv : Invariant P) {tr : Transaction} {s t : State} (hs : P s)
    (h : runTransaction tr s = .next t) : P t := by
  unfold runTransaction at h
  split at h
  · exact inv.ran hs (exec_ran h)
  · next r _ =>
    obtain rfl := Host.Outcome.next.inj h
    unfold badCommand
    split
    · exact hs
    · next running => exact inv.raise s _ hs (rejectError_known r) running

theorem Invariant.resetRise {P : State → Prop} (inv : Invariant P) {s : State} (hs : P s) : P s.resetRise := by
  unfold State.resetRise
  split
  · exact hs
  · exact inv.port State.reset true s.pending s.returned inv.reset

/-- Every step keeps an invariant. -/
theorem Invariant.step {P : State → Prop} (inv : Invariant P) {s t : State} (hs : P s) (h : step s = .next t) :
    P t := by
  have taken (rest : List Event) : P (s.take rest) := inv.port s s.rstN rest s.returned hs
  unfold Machine.step at h
  split at h
  · obtain rfl := Host.Outcome.next.inj h
    exact hs
  · next rest _ =>
    obtain rfl := Host.Outcome.next.inj h
    exact inv.port _ false rest s.returned (taken rest)
  · next rest _ =>
    obtain rfl := Host.Outcome.next.inj h
    exact inv.resetRise (taken rest)
  · next rest _ =>
    split at h
    · exact inv.transaction (taken rest) h
    · obtain rfl := Host.Outcome.next.inj h
      exact taken rest

end Sys2Proof.Machine

/-! PROOFS. The reset state; what each stream operation does and leaves unchanged. -/

namespace Sys2Proof.Machine

/-! ### The reset state -/

theorem weightSum_replicate_zero : weightSum (Vector.replicate 65 0) = 0 := by
  simp [weightSum]

theorem flagsAgree_reset : FlagsAgree State.reset := by
  constructor <;> simp [State.reset]

theorem countAgrees_reset : CountAgrees State.reset := weightSum_replicate_zero.symm

theorem treeAgrees_reset : TreeAgrees State.reset := by
  constructor <;> simp [State.reset, clearedArena]

theorem encodeAgrees_reset : EncodeAgrees State.reset := by
  constructor <;> simp [State.reset]

theorem codebookAgrees_reset : CodebookAgrees State.reset := by
  constructor <;> simp [State.reset]

theorem fifoBounded_reset : FifoBounded State.reset := by
  constructor <;> simp [State.reset]

theorem walkBounded_reset : WalkBounded State.reset := by
  constructor <;> simp [State.reset]

theorem errorAgrees_reset : ErrorAgrees State.reset := by
  constructor <;> simp [State.reset]

theorem cbufCanonical_reset : CbufCanonical State.reset := by
  constructor <;> simp [State.reset]

/-- Settles O51: the reset values meet each invariant in turn. -/
theorem resetMeetsTheInvariants : Obligations.ResetMeetsTheInvariants where
  flags := flagsAgree_reset
  count := countAgrees_reset
  tree := treeAgrees_reset
  encode := encodeAgrees_reset
  codebook := codebookAgrees_reset
  fifo := fifoBounded_reset
  walk := walkBounded_reset
  error := errorAgrees_reset
  cbuf := cbufCanonical_reset

/-! ### What unpacking leaves unchanged -/

/-- What no operation on a stream writes: the flags, the count, the tree, the codebook and CBUF. -/
structure SameTables (s t : State) : Prop where
  wv : t.wv = s.wv
  tv : t.tv = s.tv
  cv : t.cv = s.cv
  ce : t.ce = s.ce
  pad : t.pad = s.pad
  nsym : t.nsym = s.nsym
  w : t.w = s.w
  cb : t.cb = s.cb
  cbuf : t.cbuf = s.cbuf

/-- Unpacking writes MODE, ERR, BITCNT, DINCNT, OCNT, OFIFO, PEND, PENDV and the walk, and nothing else. -/
def UnpackFrame (s t : State) : Prop :=
  ∃ mode err bitcnt dincnt ocnt ofifo pend pendv curLen curVal, t =
    { s with mode := mode, err := err, bitcnt := bitcnt, dincnt := dincnt, ocnt := ocnt, ofifo := ofifo,
             pend := pend, pendv := pendv, curLen := curLen, curVal := curVal }

theorem UnpackFrame.refl (s : State) : UnpackFrame s s := ⟨_, _, _, _, _, _, _, _, _, _, rfl⟩

theorem UnpackFrame.trans {s t u : State} (h : UnpackFrame s t) (h' : UnpackFrame t u) : UnpackFrame s u := by
  obtain ⟨_, _, _, _, _, _, _, _, _, _, rfl⟩ := h
  obtain ⟨_, _, _, _, _, _, _, _, _, _, rfl⟩ := h'
  exact ⟨_, _, _, _, _, _, _, _, _, _, rfl⟩

theorem UnpackFrame.tables {s t : State} (h : UnpackFrame s t) : SameTables s t := by
  obtain ⟨_, _, _, _, _, _, _, _, _, _, rfl⟩ := h
  exact ⟨rfl, rfl, rfl, rfl, rfl, rfl, rfl, rfl, rfl⟩

theorem raise_unpackFrame (e : HceError) (s : State) : UnpackFrame s (raise e s) := by
  unfold raise
  split
  · exact .refl s
  · exact ⟨_, _, _, _, _, _, _, _, _, _, rfl⟩

theorem walkBit_unpackFrame (x : Bool) (s : State) : UnpackFrame s (walkBit x s).state := by
  have stepped : UnpackFrame s (stepCur x s) := ⟨_, _, _, _, _, _, _, _, _, _, rfl⟩
  rcases walkBit_cases x s with ⟨k, -, h⟩ | ⟨-, -, h⟩ | ⟨-, -, h⟩ <;> rw [h]
  · exact ⟨_, _, _, _, _, _, _, _, _, _, rfl⟩
  · exact stepped
  · exact stepped.trans (raise_unpackFrame _ _)

theorem walkBits_unpackFrame (xs : List Bool) (s : State) : UnpackFrame s (walkBits xs s).state := by
  induction xs generalizing s with
  | nil => exact .refl s
  | cons x xs ih =>
    have first := walkBit_unpackFrame x s
    rw [walkBits_cons]
    cases hw : walkBit x s with
    | going t => rw [hw] at first; exact first.trans (ih t)
    | stopped t => rw [hw] at first; exact first

/-- The bits UNPACK_PUT walks: all 8 of the held byte, or none (44_unpack.md R226). -/
def heldBits (s : State) : List Bool := if s.pendv then firstBits s.pend 8 else []

/-- The bits UNPACK_END walks: 8 - PAD of the held byte, or none (44_unpack.md R230). -/
def lastBits (s : State) : List Bool := if s.pendv then firstBits s.pend (8 - s.pad.toNat) else []

theorem heldBits_length_le (s : State) : (heldBits s).length ≤ 8 := by
  unfold heldBits
  split <;> simp [firstBits]

theorem lastBits_length_le (s : State) : (lastBits s).length ≤ 8 := by
  unfold lastBits
  split <;> simp [firstBits]

theorem walkHeld_eq (s : State) : walkHeld s = walkBits (heldBits s) s := by
  cases h : s.pendv <;> simp [walkHeld, walkByte, heldBits, h]

/-- Everything UNPACK_PUT's effect does once there is space: the held bits' walk is stopped, or it goes through and the
new byte is held (44_unpack.md R226). -/
theorem unpackByte_cases (b : Byte) {s : State} (space : s.ofifo.length ≤ 8) :
    walkBits (heldBits s) s = .stopped (unpackByte b s) ∨
      ∃ t, walkBits (heldBits s) s = .going t ∧ unpackByte b s = { t with pend := b, pendv := true }.countDin := by
  have hf : firstFailure [spaceCheck s 0x0100] = none := spaceCheck_eq_none.2 space
  cases hw : walkBits (heldBits s) s with
  | stopped t => exact .inl (by simp only [unpackByte, hf, walkHeld_eq, hw])
  | going t => exact .inr ⟨t, rfl, by simp only [unpackByte, hf, walkHeld_eq, hw]⟩

/-- Everything closing the walk does: INCOMPLETE inside a code, else MODE to IDLE (44_unpack.md R230). -/
theorem closeWalk_cases (s : State) :
    (s.curLen ≠ 0 ∧ closeWalk s = raise (eMalformed 7 (s.curLen.setWidth 16)) s) ∨
      (s.curLen = 0 ∧ closeWalk s = { s with mode := .idle }) := by
  by_cases h : s.curLen = 0
  · exact .inr ⟨h, by simp [closeWalk, firstFailure_cons, h]⟩
  · have inside : (s.curLen == 0) = false := beq_eq_false_iff_ne.2 h
    exact .inl ⟨h, by simp only [closeWalk, firstFailure_cons, inside, Bool.false_eq_true, if_false, attempt_some]⟩

/-- Everything UNPACK_END's effect does: the last bits' walk is stopped, or it goes through, no byte is held any more,
and the walk is closed (44_unpack.md R230). -/
theorem finishUnpack_cases (s : State) :
    walkBits (lastBits s) s = .stopped (finishUnpack s) ∨
      ∃ t, walkBits (lastBits s) s = .going t ∧
        finishUnpack s = closeWalk { t with pend := if s.pendv then 0 else t.pend, pendv := false } := by
  cases hp : s.pendv with
  | false =>
    have hs : { s with pendv := false } = s := by rw [← hp]
    exact .inr ⟨s, by simp [lastBits, hp], by simp [finishUnpack, walkLast, hp, hs]⟩
  | true =>
    have hl : walkByte s.pend (8 - s.pad.toNat) s = walkBits (lastBits s) s := by simp [walkByte, lastBits, hp]
    cases hw : walkBits (lastBits s) s with
    | stopped t => exact .inl (by simp [finishUnpack, walkLast, hp, hl, hw])
    | going t => exact .inr ⟨t, rfl, by simp [finishUnpack, walkLast, hp, hl, hw]⟩

theorem closeWalk_unpackFrame (s : State) : UnpackFrame s (closeWalk s) := by
  rcases closeWalk_cases s with ⟨-, h⟩ | ⟨-, h⟩ <;> rw [h]
  · exact raise_unpackFrame _ _
  · exact ⟨_, _, _, _, _, _, _, _, _, _, rfl⟩

theorem unpackByte_unpackFrame (b : Byte) {s : State} (space : s.ofifo.length ≤ 8) :
    UnpackFrame s (unpackByte b s) := by
  have frame := walkBits_unpackFrame (heldBits s) s
  rcases unpackByte_cases b space with hw | ⟨t, hw, h⟩ <;> rw [hw] at frame
  · exact frame
  · rw [h]
    exact frame.trans ⟨_, _, _, _, _, _, _, _, _, _, rfl⟩

theorem finishUnpack_unpackFrame (s : State) : UnpackFrame s (finishUnpack s) := by
  have frame := walkBits_unpackFrame (lastBits s) s
  rcases finishUnpack_cases s with hw | ⟨t, hw, h⟩ <;> rw [hw] at frame
  · exact frame
  · rw [h]
    exact (frame.trans ⟨_, _, _, _, _, _, _, _, _, _, rfl⟩).trans (closeWalk_unpackFrame _)

/-- UNPACK_PUT stays in UNPACK or enters ERROR. -/
theorem unpackByte_mode (b : Byte) {s : State} (space : s.ofifo.length ≤ 8) (mode : s.mode = .unpack) :
    (unpackByte b s).mode = .unpack ∨ (unpackByte b s).mode = .error := by
  obtain ⟨going, stopped⟩ := walkBits_mode (heldBits s) s
  rcases unpackByte_cases b space with hw | ⟨t, hw, h⟩
  · exact .inr (stopped _ hw)
  · rw [h]
    exact .inl ((going t hw).1.trans mode)

/-- UNPACK_END ends in IDLE or in ERROR. -/
theorem finishUnpack_mode (s : State) : (finishUnpack s).mode = .idle ∨ (finishUnpack s).mode = .error := by
  rcases finishUnpack_cases s with hw | ⟨t, -, h⟩
  · exact .inr ((walkBits_mode _ s).2 _ hw)
  · rw [h]
    rcases closeWalk_cases { t with pend := if s.pendv then 0 else t.pend, pendv := false } with ⟨-, hc⟩ | ⟨-, hc⟩ <;>
      rw [hc]
    · exact .inr (raise_mode _ _)
    · exact .inl rfl

/-- What both unpacking operations do to the rest of the block: their frame, and a MODE in which neither counting nor
packing goes on. -/
structure Unpacked (s t : State) : Prop where
  frame : UnpackFrame s t
  notCount : t.mode ≠ .count
  notPack : t.mode ≠ .pack

theorem unpacked_unpackByte (b : Byte) {s : State} (space : s.ofifo.length ≤ 8) (mode : s.mode = .unpack) :
    Unpacked s (unpackByte b s) := by
  refine ⟨unpackByte_unpackFrame b space, ?_, ?_⟩ <;>
    rcases unpackByte_mode b space mode with h | h <;> simp [h]

theorem unpacked_finishUnpack (s : State) : Unpacked s (finishUnpack s) := by
  refine ⟨finishUnpack_unpackFrame s, ?_, ?_⟩ <;> rcases finishUnpack_mode s with h | h <;> simp [h]

/-! ### What counting and packing leave unchanged -/

/-- Packing a symbol writes OFIFO, OCNT, ACC, BITCNT, PNSYM and DINCNT, and nothing else (43_pack.md R203). -/
def PackFrame (s t : State) : Prop :=
  ∃ ofifo ocnt acc accn bitcnt pnsym dincnt, t =
    { s with ofifo := ofifo, ocnt := ocnt, acc := acc, accn := accn, bitcnt := bitcnt, pnsym := pnsym,
             dincnt := dincnt }

theorem PackFrame.trans {s t u : State} (h : PackFrame s t) (h' : PackFrame t u) : PackFrame s u := by
  obtain ⟨_, _, _, _, _, _, _, rfl⟩ := h
  obtain ⟨_, _, _, _, _, _, _, rfl⟩ := h'
  exact ⟨_, _, _, _, _, _, _, rfl⟩

theorem PackFrame.tables {s t : State} (h : PackFrame s t) : SameTables s t := by
  obtain ⟨_, _, _, _, _, _, _, rfl⟩ := h
  exact ⟨rfl, rfl, rfl, rfl, rfl, rfl, rfl, rfl, rfl⟩

theorem appendBits_packFrame (bs : List Bool) (s : State) : PackFrame s (appendBits bs s) := by
  induction bs generalizing s with
  | nil => exact ⟨_, _, _, _, _, _, _, rfl⟩
  | cons b bs ih =>
    refine .trans ?_ (ih (appendBit b s))
    rcases appendBit_cases b s with ⟨-, h⟩ | ⟨-, h⟩ <;> rw [h] <;> exact ⟨_, _, _, _, _, _, _, rfl⟩

theorem packOne_packFrame (k : Symbol) (s : State) : PackFrame s (packOne k s) :=
  (appendBits_packFrame _ s).trans ⟨_, _, _, _, _, _, _, rfl⟩

@[simp] theorem countOne_nsym (k : Symbol) (s : State) : (countOne k s).nsym = s.nsym + 1 := rfl

@[simp] theorem countOne_mode (k : Symbol) (s : State) : (countOne k s).mode = s.mode := rfl

theorem countOne_w_same (k : Symbol) (s : State) : (countOne k s).w[k] = s.w[k] + 1 := by
  simp [countOne]

theorem countOne_w_other {j k : Symbol} (s : State) (h : j ≠ k) : (countOne k s).w[j] = s.w[j] := by
  have h' : k.val ≠ j.val := fun e => h (Fin.ext e.symm)
  simp [countOne, h']

end Sys2Proof.Machine

/-! PROOFS. Flags, count, tree, codebook of W and ERR. -/

namespace Sys2Proof.Machine

/-! ### The flags (10_state.md R29) -/

theorem FlagsAgree.unpacked {s t : State} (h : FlagsAgree s) (mode : s.mode = .unpack) (u : Unpacked s t) :
    FlagsAgree t := by
  obtain ⟨frame, notCount, notPack⟩ := u
  obtain ⟨_, _, _, _, _, _, _, _, _, _, rfl⟩ := frame
  exact ⟨h.tree, h.encode, fun m => absurd m notCount, fun m => absurd m notPack, fun _ => h.unpack mode⟩

theorem flagsAgree_effect {i : Instr} {s t : State} (h : FlagsAgree s) (he : Effect i s t) : FlagsAgree t := by
  have ⟨tree, encode, count, pack, unpack⟩ := h
  cases he with
  | cntBegin => constructor <;> simp
  | cntEnd mode =>
    obtain ⟨-, tv, cv, ce⟩ := count mode
    constructor <;> simp [tv, ce]
  | build mode wv => constructor <;> simp_all
  | teardown mode => constructor <;> simp_all
  | gencode mode tv =>
    have wv := tree tv
    constructor <;> simp [generate, mode, wv]
  | packBegin mode cv ce => constructor <;> simp_all
  | packEnd => exact ⟨by simpa using tree, by simpa using encode, by simp, by simp, by simp⟩
  | load mode => constructor <;> simp_all
  | unpackBegin mode cv => exact ⟨tree, encode, by simp, by simp, fun _ => cv⟩
  | unpackEnd mode => exact h.unpacked mode (unpacked_finishUnpack s)
  | unpacked _ mode space => exact h.unpacked mode (unpacked_unpackByte _ space mode)
  | packed =>
    obtain ⟨_, _, _, _, _, _, _, frame⟩ := packOne_packFrame _ s
    rw [frame]
    exact ⟨tree, encode, count, pack, unpack⟩
  | counted | popped | stored => exact ⟨tree, encode, count, pack, unpack⟩

theorem flagsAgree_invariant : Invariant FlagsAgree where
  reset := flagsAgree_reset
  port _ _ _ _ h := ⟨h.tree, h.encode, h.count, h.pack, h.unpack⟩
  raise _ _ h _ _ := ⟨by simpa using h.tree, by simpa using h.encode, by simp, by simp, by simp⟩
  effect _ _ _ := flagsAgree_effect

/-- Settles O52: each operation that sets a flag or enters a MODE has checked the flags it needs. -/
theorem stepsKeepFlagsAgreeing : Obligations.StepsKeepFlagsAgreeing := fun _ _ => flagsAgree_invariant.step

/-! ### The count (10_state.md R35) -/

theorem weightSum_eq_sum (w : Weights) : weightSum w = ∑ k : Symbol, w[k].toNat := (Fin.sum_univ_def _).symm

theorem weight_le_weightSum (w : Weights) (k : Symbol) : w[k].toNat ≤ weightSum w := by
  rw [weightSum_eq_sum]
  exact Finset.single_le_sum (f := fun k : Symbol => w[k].toNat) (fun _ _ => Nat.zero_le _) (Finset.mem_univ k)

/-- One more of a symbol is one more in the sum, when its weight does not wrap. -/
theorem weightSum_countOne {k : Symbol} {s : State} (room : s.w[k].toNat + 1 < 2 ^ 32) :
    weightSum (countOne k s).w = weightSum s.w + 1 := by
  have same : (countOne k s).w[k].toNat = s.w[k].toNat + 1 := by
    rw [countOne_w_same, BitVec.toNat_add]
    exact Nat.mod_eq_of_lt room
  have others : ∑ j ∈ Finset.univ.erase k, (countOne k s).w[j].toNat = ∑ j ∈ Finset.univ.erase k, s.w[j].toNat :=
    Finset.sum_congr rfl fun j hj => by rw [countOne_w_other s (Finset.ne_of_mem_erase hj)]
  rw [weightSum_eq_sum, weightSum_eq_sum, ← Finset.add_sum_erase _ _ (Finset.mem_univ k), others, same,
    ← Finset.add_sum_erase _ (fun j : Symbol => s.w[j].toNat) (Finset.mem_univ k)]
  omega

/-- Below the limit of NSYM neither NSYM nor the weight counted wraps (40_frequency_counter.md R142). -/
theorem countAgrees_countOne {k : Symbol} {s : State} (h : CountAgrees s) (room : s.nsym.toNat < Config.nsymLimit) :
    CountAgrees (countOne k s) := by
  have room : s.nsym.toNat < 2 ^ 32 - 1 := room
  have h : s.nsym.toNat = weightSum s.w := h
  have weight := weight_le_weightSum s.w k
  have nsym : (s.nsym + 1).toNat = s.nsym.toNat + 1 := by
    rw [BitVec.toNat_add]
    exact Nat.mod_eq_of_lt (by simp; omega)
  unfold CountAgrees
  rw [countOne_nsym, weightSum_countOne (by omega), nsym, h]

theorem CountAgrees.of_tables {s t : State} (h : CountAgrees s) (tables : SameTables s t) : CountAgrees t := by
  rw [CountAgrees, tables.nsym, tables.w]
  exact h

theorem countAgrees_effect {i : Instr} {s t : State} (h : CountAgrees s) (he : Effect i s t) : CountAgrees t := by
  cases he with
  | cntBegin => exact countAgrees_reset
  | counted _ _ _ room => exact countAgrees_countOne h room
  | packEnd => simpa [CountAgrees] using h
  | unpackEnd => exact h.of_tables (finishUnpack_unpackFrame s).tables
  | unpacked _ _ space => exact h.of_tables (unpackByte_unpackFrame _ space).tables
  | packed => exact h.of_tables (packOne_packFrame _ s).tables
  | cntEnd | build | teardown | gencode | packBegin | load | unpackBegin | popped | stored => exact h

theorem countAgrees_invariant : Invariant CountAgrees where
  reset := countAgrees_reset
  port _ _ _ _ h := h
  raise s e h _ _ := by simpa [CountAgrees] using h
  effect _ _ _ := countAgrees_effect

/-- Settles O53: counting adds one on both sides, and CNT_BEGIN clears both. -/
theorem stepsKeepNsymTheSumOfWeights : Obligations.StepsKeepNsymTheSumOfWeights :=
  fun _ _ => countAgrees_invariant.step

/-! ### The arena (10_state.md R26, R42) -/

theorem TreeAgrees.unpacked {s t : State} (h : TreeAgrees s) (u : Unpacked s t) : TreeAgrees t := by
  obtain ⟨frame, notCount, -⟩ := u
  obtain ⟨_, _, _, _, _, _, _, _, _, _, rfl⟩ := frame
  exact ⟨fun m => absurd m notCount, h.cleared, h.built⟩

theorem treeAgrees_effect {i : Instr} {s t : State} (h : TreeAgrees s) (he : Effect i s t) : TreeAgrees t := by
  have ⟨count, cleared, built⟩ := h
  cases he with
  | cntBegin => exact ⟨fun _ => rfl, fun _ => rfl, by simp⟩
  | cntEnd => exact ⟨by simp, cleared, built⟩
  | build mode => exact ⟨by simp [mode], by simp, fun _ => buildArena_irrelevant _ _ _⟩
  | teardown => exact ⟨fun _ => rfl, fun _ => rfl, by simp⟩
  | counted _ mode =>
    have tv := count mode
    exact ⟨fun _ => tv, cleared, fun tv' => absurd tv' (by simp [countOne, tv])⟩
  | gencode | load => exact ⟨count, cleared, built⟩
  | packBegin | unpackBegin => exact ⟨by simp, cleared, built⟩
  | packEnd => exact ⟨by simp, by simpa using cleared, by simpa using built⟩
  | unpackEnd => exact h.unpacked (unpacked_finishUnpack s)
  | unpacked _ mode space => exact h.unpacked (unpacked_unpackByte _ space mode)
  | packed =>
    obtain ⟨_, _, _, _, _, _, _, frame⟩ := packOne_packFrame _ s
    rw [frame]
    exact ⟨count, cleared, built⟩
  | popped | stored => exact ⟨count, cleared, built⟩

theorem treeAgrees_invariant : Invariant TreeAgrees where
  reset := treeAgrees_reset
  port _ _ _ _ h := ⟨h.count, h.cleared, h.built⟩
  raise _ _ h _ _ := ⟨by simp, by simpa using h.cleared, by simpa using h.built⟩
  effect _ _ _ := treeAgrees_effect

/-- Settles O54: BUILD's arena does not depend on the one before, and W is written in COUNT only, where TV is 0. -/
theorem stepsKeepTheTreeThatOfTheWeights : Obligations.StepsKeepTheTreeThatOfTheWeights :=
  fun _ _ => treeAgrees_invariant.step

/-! ### The codebook of W (10_state.md R28) -/

theorem EncodeAgrees.unpacked {s t : State} (h : EncodeAgrees s) (u : Unpacked s t) : EncodeAgrees t := by
  obtain ⟨frame, notCount, -⟩ := u
  obtain ⟨_, _, _, _, _, _, _, _, _, _, rfl⟩ := frame
  exact ⟨fun m => absurd m notCount, h.made⟩

theorem encodeAgrees_effect {i : Instr} {s t : State} (tree : TreeAgrees s) (h : EncodeAgrees s) (he : Effect i s t) :
    EncodeAgrees t := by
  have ⟨count, made⟩ := h
  cases he with
  | cntBegin => exact ⟨fun _ => rfl, by simp⟩
  | cntEnd => exact ⟨by simp, made⟩
  | gencode mode tv =>
    have arena := tree.built tv
    exact ⟨by simp [generate, mode], fun _ => by simp [generate, ← arena]⟩
  | load => exact ⟨fun _ => rfl, by simp⟩
  | counted _ mode =>
    have ce := count mode
    exact ⟨fun _ => ce, fun ce' => absurd ce' (by simp [countOne, ce])⟩
  | packBegin | unpackBegin => exact ⟨by simp, made⟩
  | packEnd => exact ⟨by simp, by simpa using made⟩
  | unpackEnd => exact h.unpacked (unpacked_finishUnpack s)
  | unpacked _ mode space => exact h.unpacked (unpacked_unpackByte _ space mode)
  | packed =>
    obtain ⟨_, _, _, _, _, _, _, frame⟩ := packOne_packFrame _ s
    rw [frame]
    exact ⟨count, made⟩
  | build | teardown | popped | stored => exact ⟨count, made⟩

theorem encodeAgrees_invariant : Invariant fun s => TreeAgrees s ∧ EncodeAgrees s where
  reset := ⟨treeAgrees_reset, encodeAgrees_reset⟩
  port s _ _ _ h := ⟨treeAgrees_invariant.port s _ _ _ h.1, h.2.count, h.2.made⟩
  raise s e h known running :=
    ⟨treeAgrees_invariant.raise s e h.1 known running, by simp, by simpa using h.2.made⟩
  effect _ _ _ h he := ⟨treeAgrees_effect h.1 he, encodeAgrees_effect h.1 h.2 he⟩

/-- Settles O55: GENCODE works on the tree of W, and LOAD and CNT_BEGIN clear CE. -/
theorem stepsKeepTheEncodeCodebook : Obligations.StepsKeepTheEncodeCodebook :=
  fun _ _ tree h hs => (encodeAgrees_invariant.step ⟨tree, h⟩ hs).2

/-! ### ERR (10_state.md R31, 60_exceptions.md R290) -/

/-- CODE of an error word (10_state.md R31). -/
theorem errWord_code (code sub : BitVec 8) (arg : BitVec 16) : (errWord code sub arg).extractLsb' 0 8 = code := by
  ext i hi
  have h16 : i < 16 := by omega
  have h32 : i < 32 := by omega
  simp [errWord, hi, h16, h32]

theorem errorAgrees_raise {s : State} {e : HceError} (known : e.Known) (running : s.mode ≠ .error) :
    ErrorAgrees (raise e s) := by
  rw [raise_of_running e running]
  refine ⟨by simp, fun _ => ?_⟩
  rw [errWord_code]
  exact known

/-- A state whose MODE is not ERROR and whose ERR is 0 agrees. -/
theorem errorAgrees_of_running {s : State} (running : s.mode ≠ .error) (err : s.err = 0) : ErrorAgrees s :=
  ⟨fun _ => err, fun h => absurd h running⟩

/-- A walk that begins outside ERROR is stopped by DEAD_PATH alone (44_unpack.md R228). -/
theorem walkBits_stopped {xs : List Bool} {s t : State} (running : s.mode ≠ .error)
    (h : walkBits xs s = .stopped t) : ErrorAgrees t := by
  induction xs generalizing s with
  | nil => cases h
  | cons x xs ih =>
    rw [walkBits_cons] at h
    rcases walkBit_cases x s with ⟨k, -, hw⟩ | ⟨-, -, hw⟩ | ⟨-, -, hw⟩ <;> rw [hw] at h
    · exact ih (s := { (stepCur x s).push (chr k) with curLen := 0, curVal := 0 }) running h
    · exact ih (s := stepCur x s) running h
    · obtain rfl := Walk.stopped.inj h
      exact errorAgrees_raise (eMalformed_known _ _) running

theorem errorAgrees_unpackByte (b : Byte) {s : State} (space : s.ofifo.length ≤ 8) (running : s.mode ≠ .error)
    (err : s.err = 0) : ErrorAgrees (unpackByte b s) := by
  rcases unpackByte_cases b space with hw | ⟨t, hw, h⟩
  · exact walkBits_stopped running hw
  · obtain ⟨hm, he⟩ := (walkBits_mode _ s).1 t hw
    rw [h]
    exact errorAgrees_of_running (by simpa [hm] using running) (he.trans err)

theorem errorAgrees_closeWalk {s : State} (running : s.mode ≠ .error) (err : s.err = 0) :
    ErrorAgrees (closeWalk s) := by
  rcases closeWalk_cases s with ⟨-, h⟩ | ⟨-, h⟩ <;> rw [h]
  · exact errorAgrees_raise (eMalformed_known _ _) running
  · exact errorAgrees_of_running (by simp) err

theorem errorAgrees_finishUnpack {s : State} (running : s.mode ≠ .error) (err : s.err = 0) :
    ErrorAgrees (finishUnpack s) := by
  rcases finishUnpack_cases s with hw | ⟨t, hw, h⟩
  · exact walkBits_stopped running hw
  · obtain ⟨hm, he⟩ := (walkBits_mode _ s).1 t hw
    rw [h]
    exact errorAgrees_closeWalk (by simpa [hm] using running) (he.trans err)

theorem errorAgrees_effect {i : Instr} {s t : State} (h : ErrorAgrees s) (he : Effect i s t) : ErrorAgrees t := by
  obtain ⟨none, some⟩ := h
  cases he with
  | unpackEnd mode =>
    have running : s.mode ≠ .error := by simp [mode]
    exact errorAgrees_finishUnpack running (none running)
  | unpacked _ mode space =>
    have running : s.mode ≠ .error := by simp [mode]
    exact errorAgrees_unpackByte _ space running (none running)
  | packed =>
    obtain ⟨_, _, _, _, _, _, _, frame⟩ := packOne_packFrame _ s
    rw [frame]
    exact ⟨none, some⟩
  | packEnd mode => exact errorAgrees_of_running (by simp) (by simpa using none (by simp [mode]))
  | cntBegin mode | cntEnd mode | packBegin mode | unpackBegin mode =>
    exact errorAgrees_of_running (by simp) (none (by simp [mode]))
  | build | teardown | gencode | load | counted | popped | stored => exact ⟨none, some⟩

theorem errorAgrees_invariant : Invariant ErrorAgrees where
  reset := errorAgrees_reset
  port _ _ _ _ h := ⟨h.none, h.some⟩
  raise _ _ _ known running := errorAgrees_raise known running
  effect _ _ _ := errorAgrees_effect

/-- Settles O59: every error raised is a known one, DEAD_PATH and INCOMPLETE included. -/
theorem stepsKeepErrAgreeingWithMode : Obligations.StepsKeepErrAgreeingWithMode :=
  fun _ _ => errorAgrees_invariant.step

end Sys2Proof.Machine

/-! PROOFS. CBUF, writers, OFIFO and the walk. -/

namespace Sys2Proof.Machine

/-! ### CBUF (10_state.md R55) -/

theorem codebookBytes_length (pad : BitVec 3) (cb : Codebook) : (codebookBytes pad cb).length = 651 := by
  simp [codebookBytes, recordBytes, symbols, List.length_flatMap]

theorem generate_cbuf (s : State) :
    (generate s).cbuf = Memory.writeFrom 0 (codebookBytes (generate s).pad (generate s).cb) s.cbuf := by
  simp only [generate]

theorem cbufCanonical_generate {s : State} (h : CbufCanonical s) : CbufCanonical (generate s) := by
  constructor <;> rw [generate_cbuf]
  · exact Memory.wf_writeFrom h.wf 0 _
  · intro c hc
    rcases Memory.mem_writeFrom hc with hc | ⟨-, hc⟩
    · exact h.bound c hc
    · rw [codebookBytes_length] at hc
      omega

theorem CbufCanonical.congr {s t : State} (h : CbufCanonical s) (cbuf : t.cbuf = s.cbuf) : CbufCanonical t :=
  ⟨by rw [cbuf]; exact h.wf, by rw [cbuf]; exact h.bound⟩

/-- Every effect but GENCODE's and CBWR's leaves CBUF. -/
theorem effect_cbuf {i : Instr} {s t : State} (he : Effect i s t) :
    t.cbuf = s.cbuf ∨ (i = .gencode ∧ t = generate s) ∨
      ∃ a v, i = .cbwr a v ∧ a ≤ 650 ∧ t.cbuf = Memory.write s.cbuf a (lowByte v) := by
  cases he with
  | gencode => exact .inr (.inl ⟨rfl, rfl⟩)
  | stored index => exact .inr (.inr ⟨_, _, rfl, index, rfl⟩)
  | unpackEnd => exact .inl (finishUnpack_unpackFrame s).tables.cbuf
  | unpacked _ _ space => exact .inl (unpackByte_unpackFrame _ space).tables.cbuf
  | packed => exact .inl (packOne_packFrame _ s).tables.cbuf
  | packEnd => exact .inl (flush_cbuf s)
  | cntBegin | cntEnd | build | teardown | packBegin | load | unpackBegin | counted | popped => exact .inl rfl

theorem cbufCanonical_effect {i : Instr} {s t : State} (h : CbufCanonical s) (he : Effect i s t) :
    CbufCanonical t := by
  rcases effect_cbuf he with cbuf | ⟨-, rfl⟩ | ⟨a, v, -, index, cbuf⟩
  · exact h.congr cbuf
  · exact cbufCanonical_generate h
  · constructor <;> rw [cbuf]
    · exact Memory.wf_write h.wf a _
    · intro c hc
      rcases Memory.mem_write hc with hc | rfl
      · exact h.bound c hc
      · exact index

theorem cbufCanonical_invariant : Invariant CbufCanonical where
  reset := cbufCanonical_reset
  port _ _ _ _ h := h.congr rfl
  raise _ _ h _ _ := h.congr (raise_cbuf _ _)
  effect _ _ _ := cbufCanonical_effect

/-- Settles O60: CBWR's index and GENCODE's 651 bytes lie within 650, and every write keeps the canonical form. -/
theorem stepsKeepCbufCanonical : Obligations.StepsKeepCbufCanonical := fun _ _ => cbufCanonical_invariant.step

/-- Settles O49: of the two effects that write CBUF, GENCODE's stays within the 651 bytes and CBWR's at its index. -/
theorem cbufHasItsWritersOnly : Obligations.CbufHasItsWritersOnly := by
  intro i s t h notSrst a
  cases exec_ran h with
  | ignored => exact .inl rfl
  | answered => exact .inl rfl
  | raised => exact .inl (by rw [raise_cbuf])
  | cleared srst => exact absurd srst notSrst
  | effect he =>
    rcases effect_cbuf he with cbuf | ⟨rfl, rfl⟩ | ⟨b, v, rfl, index, cbuf⟩
    · exact .inl (by rw [cbuf])
    · by_cases inside : a ≤ 650
      · exact .inr (.inl ⟨rfl, inside⟩)
      · rw [generate_cbuf]
        exact .inl (Memory.read_writeFrom_outside _ _ _ _ (by rw [codebookBytes_length]; omega))
    · by_cases same : a = b
      · exact .inr (.inr ⟨v, by rw [same], by omega⟩)
      · exact .inl (by rw [cbuf, Memory.read_write_other _ same])

/-! ### Who writes W and the flags (10_state.md R25 to R28, R46) -/

/-- Every effect but CNT_BEGIN's and counting leaves W. -/
theorem effect_w {i : Instr} {s t : State} (he : Effect i s t) (notBegin : i ≠ .cntBegin) :
    t.w = s.w ∨ ∃ v k, IsDinWrite v i ∧ s.mode = .count ∧ idx (lowByte v) = some k ∧ t = countOne k s := by
  cases he with
  | cntBegin => exact absurd rfl notBegin
  | counted din mode symbol => exact .inr ⟨_, _, din, mode, symbol, rfl⟩
  | unpackEnd => exact .inl (finishUnpack_unpackFrame s).tables.w
  | unpacked _ _ space => exact .inl (unpackByte_unpackFrame _ space).tables.w
  | packed => exact .inl (packOne_packFrame _ s).tables.w
  | packEnd => exact .inl (flush_w s)
  | cntEnd | build | teardown | gencode | packBegin | load | unpackBegin | popped | stored => exact .inl rfl

/-- Of the DIN operations COUNT selects CNT_PUT alone (30_encoding.md R102). -/
theorem eq_cntPut_of_selected {v : Word} {i : Instr} (din : IsDinWrite v i) (selected : i.selectedIn .count = true) :
    i = .cntPut v := by
  rcases din with rfl | rfl | rfl | rfl | rfl
  · rfl
  all_goals simp [Instr.selectedIn] at selected

/-- Settles O46: of the effects but CNT_BEGIN's only counting writes W. -/
theorem onlyCountingWritesWeights : Obligations.OnlyCountingWritesWeights := by
  intro i s t h notBegin notSrst
  cases exec_ran h with
  | ignored => exact .inl rfl
  | answered => exact .inl rfl
  | raised => exact .inl (raise_w _ _)
  | cleared srst => exact absurd srst notSrst
  | effect he =>
    rcases effect_w he notBegin with w | ⟨v, k, din, mode, symbol, rfl⟩
    · exact .inl w
    · exact .inr ⟨mode, v, k, din, fun selected => eq_cntPut_of_selected din (mode ▸ selected), symbol,
        countOne_w_same k s, fun j hj => countOne_w_other s hj⟩

/-- Whatever the operation, each flag is as before or has been written by one of its own operations, to the value that
operation gives it (10_state.md R25 to R28). -/
structure FlagsWritten (i : Instr) (s t : State) : Prop where
  wv : t.wv = s.wv ∨ (i = .cntEnd ∧ t.wv = true)
  tv : t.tv = s.tv ∨ (i = .build ∧ t.tv = true) ∨ (i = .teardown ∧ t.tv = false)
  cv : t.cv = s.cv ∨ ((i = .gencode ∨ i = .load) ∧ t.cv = true)
  ce : t.ce = s.ce ∨ (i = .gencode ∧ t.ce = true) ∨ (i = .load ∧ t.ce = false)

theorem SameTables.flags {i : Instr} {s t : State} (tables : SameTables s t) : FlagsWritten i s t :=
  ⟨.inl tables.wv, .inl tables.tv, .inl tables.cv, .inl tables.ce⟩

theorem effect_flags {i : Instr} {s t : State} (he : Effect i s t) (notBegin : i ≠ .cntBegin) :
    FlagsWritten i s t := by
  cases he with
  | cntBegin => exact absurd rfl notBegin
  | cntEnd => exact ⟨.inr ⟨rfl, rfl⟩, .inl rfl, .inl rfl, .inl rfl⟩
  | build => exact ⟨.inl rfl, .inr (.inl ⟨rfl, rfl⟩), .inl rfl, .inl rfl⟩
  | teardown => exact ⟨.inl rfl, .inr (.inr ⟨rfl, rfl⟩), .inl rfl, .inl rfl⟩
  | gencode => exact ⟨.inl rfl, .inl rfl, .inr ⟨.inl rfl, rfl⟩, .inr (.inl ⟨rfl, rfl⟩)⟩
  | load => exact ⟨.inl rfl, .inl rfl, .inr ⟨.inr rfl, rfl⟩, .inr (.inr ⟨rfl, rfl⟩)⟩
  | unpackEnd => exact (finishUnpack_unpackFrame s).tables.flags
  | unpacked _ _ space => exact (unpackByte_unpackFrame _ space).tables.flags
  | packed => exact (packOne_packFrame _ s).tables.flags
  | packEnd => exact ⟨.inl (flush_wv s), .inl (flush_tv s), .inl (flush_cv s), .inl (flush_ce s)⟩
  | packBegin | unpackBegin | counted | popped | stored => exact ⟨.inl rfl, .inl rfl, .inl rfl, .inl rfl⟩

/-- Settles O47: the effects of `effect_flags`, and no other way an operation runs, write a flag. -/
theorem flagsHaveTheirWritersOnly : Obligations.FlagsHaveTheirWritersOnly := by
  intro i s t h notSrst notBegin
  obtain ⟨wv, tv, cv, ce⟩ : FlagsWritten i s t := by
    cases exec_ran h with
    | ignored => exact ⟨.inl rfl, .inl rfl, .inl rfl, .inl rfl⟩
    | answered => exact ⟨.inl rfl, .inl rfl, .inl rfl, .inl rfl⟩
    | raised => exact (raise_unpackFrame _ s).tables.flags
    | cleared srst => exact absurd srst notSrst
    | effect he => exact effect_flags he notBegin
  exact ⟨wv, tv, cv, ce⟩

/-! ### OFIFO and the accumulator (10_state.md R56, R57) -/

/-- A bit shifted into an accumulator of n bits, n at most 7, leaves one of n + 1 bits. -/
theorem shiftIn_lt {acc : BitVec 8} {n : Nat} (b : Bool) (h : acc.toNat < 2 ^ n) :
    (acc <<< 1 ||| (BitVec.ofBool b).setWidth 8).toNat < 2 ^ (n + 1) := by
  have hacc : (acc <<< 1).toNat < 2 ^ (n + 1) := by
    rw [BitVec.toNat_shiftLeft, Nat.shiftLeft_eq]
    exact (Nat.mod_le _ _).trans_lt (by omega)
  have hb : ((BitVec.ofBool b).setWidth 8).toNat < 2 ^ (n + 1) := by
    have : ((BitVec.ofBool b).setWidth 8).toNat ≤ 1 := by cases b <;> decide
    have := Nat.one_lt_two_pow (n := n + 1) (by omega)
    omega
  rw [BitVec.toNat_or]
  exact Nat.or_lt_two_pow hacc hb

/-- The accumulator holds fewer than 8 bits (10_state.md R57). -/
def AccBounded (s : State) : Prop := s.accn.toNat < 8 ∧ s.acc.toNat < 2 ^ s.accn.toNat

/-- One appended bit goes to ACC or completes a byte of OFIFO: the bits held grow by one. -/
theorem appendBit_bounded (b : Bool) {s : State} (h : AccBounded s) : AccBounded (appendBit b s) ∧
    8 * (appendBit b s).ofifo.length + (appendBit b s).accn.toNat = 8 * s.ofifo.length + s.accn.toNat + 1 := by
  obtain ⟨accn, acc⟩ := h
  have succ : (s.accn + 1).toNat = s.accn.toNat + 1 := by
    rw [BitVec.toNat_add]
    exact Nat.mod_eq_of_lt (by simp; omega)
  unfold AccBounded
  rcases appendBit_cases b s with ⟨full, h⟩ | ⟨room, h⟩ <;> rw [h]
  · have : s.accn.toNat + 1 = 8 := by rw [← succ, full]; rfl
    refine ⟨⟨by simp, by simp⟩, ?_⟩
    simp
    omega
  · have : s.accn.toNat + 1 ≠ 8 := fun e => room (BitVec.eq_of_toNat_eq (by rw [succ, e]; rfl))
    dsimp only
    rw [succ]
    exact ⟨⟨by omega, shiftIn_lt b acc⟩, by omega⟩

theorem appendBits_bounded (bs : List Bool) {s : State} (h : AccBounded s) : AccBounded (appendBits bs s) ∧
    8 * (appendBits bs s).ofifo.length + (appendBits bs s).accn.toNat =
      8 * s.ofifo.length + s.accn.toNat + bs.length := by
  induction bs generalizing s with
  | nil => exact ⟨h, rfl⟩
  | cons b bs ih =>
    obtain ⟨one, grow⟩ := appendBit_bounded b h
    obtain ⟨all, growAll⟩ := ih one
    exact ⟨all, by rw [appendBits_cons, List.length_cons]; omega⟩

@[simp] theorem Code.bits_length (c : Code) : c.bits.length = c.len.toNat := by simp [Code.bits]

/-- Packing one symbol with 8 entries free cannot overfill OFIFO (43_pack.md R204). -/
theorem packOne_bounded (k : Symbol) {s : State} (h : AccBounded s) (length : s.cb[k].len.toNat ≤ 64) :
    AccBounded (packOne k s) ∧ (packOne k s).ofifo.length ≤ s.ofifo.length + 8 := by
  obtain ⟨acc, grow⟩ := appendBits_bounded s.cb[k].bits h
  rw [Code.bits_length] at grow
  have accn := acc.1
  have accn' := h.1
  have level : (appendBits s.cb[k].bits s).ofifo.length ≤ s.ofifo.length + 8 := by omega
  exact ⟨acc, level⟩

theorem flush_level (s : State) : (flush s).ofifo.length ≤ s.ofifo.length + 1 := by
  unfold flush
  split <;> simp

/-- Unpacking walks at most 8 bits, and each pushes at most one byte (44_unpack.md R227). -/
theorem walk_level {xs : List Bool} (s : State) (short : xs.length ≤ 8) :
    (walkBits xs s).state.ofifo.length ≤ s.ofifo.length + 8 := by
  have := walkBits_level xs s
  omega

theorem unpackByte_level (b : Byte) {s : State} (space : s.ofifo.length ≤ 8) :
    (unpackByte b s).ofifo.length ≤ s.ofifo.length + 8 := by
  have level := walk_level s (heldBits_length_le s)
  rcases unpackByte_cases b space with hw | ⟨t, hw, h⟩ <;> rw [hw] at level
  · exact level
  · rw [h]
    exact level

theorem closeWalk_ofifo (s : State) : (closeWalk s).ofifo = s.ofifo := by
  rcases closeWalk_cases s with ⟨-, h⟩ | ⟨-, h⟩ <;> rw [h]
  exact raise_ofifo _ _

theorem finishUnpack_level (s : State) : (finishUnpack s).ofifo.length ≤ s.ofifo.length + 8 := by
  have level := walk_level s (lastBits_length_le s)
  rcases finishUnpack_cases s with hw | ⟨t, hw, h⟩ <;> rw [hw] at level
  · exact level
  · rw [h, closeWalk_ofifo]
    exact level

/-- GENCODE's lengths fit their field once the check has passed (42_code_generator.md R182). -/
theorem codebookOf_len {arena : Arena} {k : Symbol} (short : codeLength arena k ≤ 64) :
    (codebookOf arena)[k].len.toNat = codeLength arena k := by
  simp [codebookOf]
  omega

/-- A codebook LOAD accepts passes the three checks of every record (44_unpack.md R221). -/
theorem recordValid_of_sound {m : Memory} (sound : codebookFailure m = none) (k : Symbol) : RecordValid m k := by
  unfold codebookFailure at sound
  split at sound
  · simp at sound
  · split at sound
    · simp at sound
    · next hr =>
      have hk := List.findSome?_eq_none_iff.1 hr k (by simp [symbols])
      have hk : Memory.read m (recordBase k) = chr k ∧ (1 ≤ recordLen m k ∧ recordLen m k ≤ Config.maxCodeLen) ∧
          recordVal m k < 2 ^ recordLen m k := by
        simpa [recordFailure, firstFailure_eq_none] using hk
      exact hk

theorem loadedCodebook_len {m : Memory} {k : Symbol} (h : RecordValid m k) :
    (loadedCodebook m)[k].len.toNat = recordLen m k := by
  obtain ⟨-, ⟨-, len⟩, -⟩ := h
  simp [loadedCodebook]
  omega

/-- No effect makes a code longer than 64 bits (10_state.md R50). -/
theorem effect_lengths {i : Instr} {s t : State} (h : ∀ k : Symbol, s.cb[k].len.toNat ≤ 64) (he : Effect i s t) :
    ∀ k : Symbol, t.cb[k].len.toNat ≤ 64 := by
  cases he with
  | cntBegin => simp
  | gencode _ _ short =>
    intro k
    exact (codebookOf_len (short k)).trans_le (short k)
  | load _ sound =>
    intro k
    have valid := recordValid_of_sound sound k
    exact (loadedCodebook_len valid).trans_le valid.2.1.2
  | unpackEnd => rwa [(finishUnpack_unpackFrame s).tables.cb]
  | unpacked _ _ space => rwa [(unpackByte_unpackFrame _ space).tables.cb]
  | packed => rwa [(packOne_packFrame _ s).tables.cb]
  | packEnd => simpa using h
  | cntEnd | build | teardown | packBegin | unpackBegin | counted | popped | stored => exact h

theorem FifoBounded.unpacked {s t : State} (h : FifoBounded s) (u : Unpacked s t) (space : s.ofifo.length ≤ 8)
    (level : t.ofifo.length ≤ s.ofifo.length + 8) : FifoBounded t := by
  obtain ⟨frame, -, notPack⟩ := u
  obtain ⟨_, _, _, _, _, _, _, _, _, _, rfl⟩ := frame
  exact ⟨by omega, h.acc, h.lengths, fun m => absurd m notPack⟩

theorem fifoBounded_packOne {s : State} {k : Symbol} (h : FifoBounded s) (space : s.ofifo.length ≤ 8)
    (room : s.pnsym.toNat < s.nsym.toNat) : FifoBounded (packOne k s) := by
  obtain ⟨acc, level⟩ := packOne_bounded k h.acc (h.lengths k)
  have pnsym : (packOne k s).pnsym = s.pnsym + 1 := by simp [packOne]
  have nsym : (packOne k s).nsym = s.nsym := by simp [packOne]
  have cb : (packOne k s).cb = s.cb := by simp [packOne]
  refine ⟨by omega, acc, by rw [cb]; exact h.lengths, fun _ => ?_⟩
  rw [pnsym, nsym, BitVec.toNat_add]
  exact (Nat.mod_le _ _).trans room

theorem fifoBounded_effect {i : Instr} {s t : State} (h : FifoBounded s) (he : Effect i s t) : FifoBounded t := by
  have lengths := effect_lengths h.lengths he
  have ⟨level, acc, _, packed⟩ := h
  cases he with
  | unpackEnd _ space => exact h.unpacked (unpacked_finishUnpack s) space (finishUnpack_level s)
  | unpacked _ mode space => exact h.unpacked (unpacked_unpackByte _ space mode) space (unpackByte_level _ space)
  | packed _ _ space _ room => exact fifoBounded_packOne h space room
  | packBegin => exact ⟨by simp, by simp, lengths, by simp⟩
  | packEnd _ space =>
    have flushed := flush_level s
    exact ⟨show (flush s).ofifo.length ≤ 16 by omega, by simp, lengths, by simp⟩
  | unpackBegin => exact ⟨by simp, acc, lengths, by simp⟩
  | popped head =>
    rw [head, List.length_cons] at level
    exact ⟨(Nat.le_succ _).trans level, acc, lengths, packed⟩
  | counted _ mode => exact ⟨level, acc, lengths, by simp [mode]⟩
  | cntBegin | cntEnd => exact ⟨level, acc, lengths, by simp⟩
  | build | teardown | gencode | load | stored => exact ⟨level, acc, lengths, packed⟩

theorem fifoBounded_invariant : Invariant FifoBounded where
  reset := fifoBounded_reset
  port _ _ _ _ h := ⟨h.level, h.acc, h.lengths, h.packed⟩
  raise _ _ h _ _ := ⟨by simpa using h.level, by simpa using h.acc, by simpa using h.lengths, by simp⟩
  effect _ _ _ := fifoBounded_effect

/-- Settles O57: an operation that can push has 8 entries free, and pushes at most 8 bytes. -/
theorem stepsKeepTheFifoBounded : Obligations.StepsKeepTheFifoBounded := fun _ _ => fifoBounded_invariant.step

/-! ### The walk (10_state.md R58, R59; 44_unpack.md R228) -/

/-- The walk is at a position of at most 64 bits. -/
def WalkShort (s : State) : Prop := s.curLen.toNat ≤ 64 ∧ s.curVal.toNat < 2 ^ s.curLen.toNat

/-- The walk is at the root or at the beginning of a longer code. -/
def WalkInner (s : State) : Prop := s.curLen = 0 ∨ beginsLonger s.cb ⟨s.curLen, s.curVal⟩ = true

/-- A position where a longer code of at most 64 bits begins is of fewer than 64. -/
theorem curLen_lt_of_inner {s : State} (lengths : ∀ k : Symbol, s.cb[k].len.toNat ≤ 64) (inner : WalkInner s) :
    s.curLen.toNat < 64 := by
  rcases inner with root | longer
  · simp [root]
  · obtain ⟨k, hk⟩ : ∃ k : Symbol, s.curLen < s.cb[k].len := by
      simp only [beginsLonger, List.any_eq_true, Bool.and_eq_true, decide_eq_true_eq] at longer
      obtain ⟨k, -, hk, -⟩ := longer
      exact ⟨k, hk⟩
    exact (BitVec.lt_def.1 hk).trans_le (lengths k)

theorem stepCur_short (x : Bool) {s : State} (short : WalkShort s) (room : s.curLen.toNat < 64) :
    WalkShort (stepCur x s) := by
  obtain ⟨-, val⟩ := short
  have len : (s.curLen + 1).toNat = s.curLen.toNat + 1 := by
    rw [BitVec.toNat_add]
    exact Nat.mod_eq_of_lt (by simp; omega)
  have bit : ((BitVec.ofBool x).setWidth 64).toNat ≤ 1 := by cases x <;> decide
  unfold WalkShort
  rw [stepCur_curLen, stepCur_curVal, len]
  refine ⟨by omega, ?_⟩
  calc (s.curVal * 2 + (BitVec.ofBool x).setWidth 64).toNat
      ≤ s.curVal.toNat * 2 + ((BitVec.ofBool x).setWidth 64).toNat := by
        rw [BitVec.toNat_add, BitVec.toNat_mul]
        exact (Nat.mod_le _ _).trans (Nat.add_le_add_right (Nat.mod_le _ _) _)
    _ < 2 ^ (s.curLen.toNat + 1) := by omega

/-- A walk keeps its position short, and inner unless it is stopped. -/
theorem walkBits_position (xs : List Bool) {s : State} (lengths : ∀ k : Symbol, s.cb[k].len.toNat ≤ 64)
    (short : WalkShort s) (inner : WalkInner s) :
    WalkShort (walkBits xs s).state ∧ ∀ t, walkBits xs s = .going t → WalkInner t := by
  induction xs generalizing s with
  | nil => exact ⟨short, fun t h => by rwa [← Walk.going.inj h]⟩
  | cons x xs ih =>
    have stepped := stepCur_short x short (curLen_lt_of_inner lengths inner)
    rw [walkBits_cons]
    rcases walkBit_cases x s with ⟨k, -, h⟩ | ⟨-, longer, h⟩ | ⟨-, -, h⟩ <;> rw [h]
    · exact ih (s := { (stepCur x s).push (chr k) with curLen := 0, curVal := 0 }) lengths
        ⟨by simp, by simp⟩ (.inl rfl)
    · exact ih (s := stepCur x s) lengths stepped (.inr longer)
    · exact ⟨by simpa [WalkShort] using stepped, fun t h => by cases h⟩

theorem walkBounded_of_error {s : State} (mode : s.mode = .error) (short : WalkShort s)
    (lengths : ∀ k : Symbol, s.cb[k].len.toNat ≤ 64) (held : s.pendv = false → s.pend = 0) : WalkBounded s :=
  ⟨short, lengths, by simp [mode], held, fun _ m => absurd mode m⟩

/-- In UNPACK, a walk over any bits leaves a short position and the codebook and the held byte as they were; stopped, it
is in a state the invariant allows. -/
theorem walkBounded_stopped {xs : List Bool} {s t : State} (h : WalkBounded s) (mode : s.mode = .unpack)
    (hw : walkBits xs s = .stopped t) : WalkBounded t := by
  obtain ⟨short, -⟩ := walkBits_position xs h.lengths h.bound (h.inner mode)
  have cb := walkBits_cb xs s
  have pend := walkBits_pend xs s
  have pendv := walkBits_pendv xs s
  rw [hw] at short cb pend pendv
  exact walkBounded_of_error ((walkBits_mode xs s).2 t hw) short (by simpa [← cb] using h.lengths)
    (by simpa [← pend, ← pendv] using h.held)

theorem walkBounded_unpackByte (b : Byte) {s : State} (h : WalkBounded s) (mode : s.mode = .unpack)
    (space : s.ofifo.length ≤ 8) : WalkBounded (unpackByte b s) := by
  rcases unpackByte_cases b space with hw | ⟨t, hw, eq⟩
  · exact walkBounded_stopped h mode hw
  · obtain ⟨short, inner⟩ := walkBits_position (heldBits s) h.lengths h.bound (h.inner mode)
    have unpack := ((walkBits_mode _ s).1 t hw).1.trans mode
    have cb := walkBits_cb (heldBits s) s
    rw [hw] at short cb
    rw [eq]
    exact ⟨short, by simpa [← cb] using h.lengths, fun _ => inner t hw, by simp, fun m => absurd unpack m⟩

/-- Closing the walk keeps its bounds: at the root the code of no bits has the value 0. -/
theorem walkBounded_closeWalk {s : State} (short : WalkShort s) (lengths : ∀ k : Symbol, s.cb[k].len.toNat ≤ 64)
    (pendv : s.pendv = false) (pend : s.pend = 0) : WalkBounded (closeWalk s) := by
  rcases closeWalk_cases s with ⟨-, eq⟩ | ⟨root, eq⟩ <;> rw [eq]
  · exact walkBounded_of_error (raise_mode _ _) (by simpa [WalkShort] using short) (by simpa using lengths)
      (by simp [pend])
  · have val : s.curVal = 0 := by
      have val := short.2
      rw [root] at val
      exact BitVec.eq_of_toNat_eq (Nat.lt_one_iff.1 val)
    exact ⟨short, lengths, by simp, fun _ => pend, fun _ _ => ⟨root, val, pendv⟩⟩

theorem walkBounded_finishUnpack {s : State} (h : WalkBounded s) (mode : s.mode = .unpack) :
    WalkBounded (finishUnpack s) := by
  rcases finishUnpack_cases s with hw | ⟨t, hw, eq⟩
  · exact walkBounded_stopped h mode hw
  · obtain ⟨short, -⟩ := walkBits_position (lastBits s) h.lengths h.bound (h.inner mode)
    have cb := walkBits_cb (lastBits s) s
    have pend := walkBits_pend (lastBits s) s
    rw [hw] at short cb pend
    rw [eq]
    refine walkBounded_closeWalk short (by simpa [← cb] using h.lengths) rfl ?_
    cases hp : s.pendv with
    | true => rfl
    | false => exact pend.trans (h.held hp)

theorem walkBounded_effect {i : Instr} {s t : State} (h : WalkBounded s) (he : Effect i s t) : WalkBounded t := by
  have lengths := effect_lengths h.lengths he
  have ⟨bound, _, inner, held, rest⟩ := h
  cases he with
  | unpackEnd mode => exact walkBounded_finishUnpack h mode
  | unpacked _ mode space => exact walkBounded_unpackByte _ h mode space
  | unpackBegin => exact ⟨by simp, lengths, fun _ => .inl rfl, fun _ => rfl, fun _ _ => ⟨rfl, rfl, rfl⟩⟩
  | cntBegin mode | cntEnd mode | packBegin mode =>
    exact ⟨bound, lengths, by simp, held, fun _ _ => rest (by simp [mode]) (by simp [mode])⟩
  | build mode | teardown mode | gencode mode | load mode | counted _ mode =>
    exact ⟨bound, lengths, fun m => absurd (mode.symm.trans m) (by simp), held, rest⟩
  | packEnd mode =>
    have root := rest (by simp [mode]) (by simp [mode])
    exact ⟨by simpa using bound, lengths, by simp, by simpa using held, fun _ _ => by simpa using root⟩
  | packed =>
    obtain ⟨_, _, _, _, _, _, _, frame⟩ := packOne_packFrame _ s
    rw [frame] at lengths ⊢
    exact ⟨bound, lengths, inner, held, rest⟩
  | popped | stored => exact ⟨bound, lengths, inner, held, rest⟩

theorem walkBounded_invariant : Invariant WalkBounded where
  reset := walkBounded_reset
  port _ _ _ _ h := ⟨h.bound, h.lengths, h.inner, h.held, h.rest⟩
  raise s e h _ _ := walkBounded_of_error (raise_mode _ _) (by simpa [WalkShort] using h.bound)
    (by simpa using h.lengths) (by simpa using h.held)
  effect _ _ _ := walkBounded_effect

/-- Settles O58: an inner position is shorter than a code of at most 64 bits, so one more bit fits. -/
theorem stepsKeepTheWalkBounded : Obligations.StepsKeepTheWalkBounded := fun _ _ => walkBounded_invariant.step

end Sys2Proof.Machine

/-! PROOFS. The tree BUILD makes and the codes it gives. -/

namespace Sys2Proof.Machine

/-! ### The tree BUILD makes (41_tree_builder.md R160 to R163) -/

/-- What holds of the slots below 65 + k when k rounds have left the arena and the forest: those made are strict nodes
over nodes no longer in the forest, and each slot not in the forest is the child its parent and side say. -/
structure RoundsMade (w : Weights) (k : Nat) (arena : Arena) (forest : List Slot) : Prop where
  leaf : ∀ j : Symbol, arena[leafSlot j].nw = w[j] ∧ arena[leafSlot j].nl = none ∧ arena[leafSlot j].nr = none
  node : ∀ n : Slot, 65 ≤ n.val → n.val < 65 + k → ∃ l r : Slot, l ≠ r ∧ l < n ∧ r < n ∧ l ∉ forest ∧ r ∉ forest ∧
    arena[n].nl = some l ∧ arena[l].np = some n ∧ arena[l].ns = false ∧
    arena[n].nr = some r ∧ arena[r].np = some n ∧ arena[r].ns = true ∧
    arena[n].nw = arena[l].nw + arena[r].nw
  parent : ∀ n : Slot, n.val < 65 + k → n ∉ forest → ∃ p : Slot, n < p ∧ 65 ≤ p.val ∧ p.val < 65 + k ∧
    arena[n].np = some p ∧ (if arena[n].ns then arena[p].nr else arena[p].nl) = some n

theorem roundsMade_zero (w : Weights) (arena : Arena) :
    RoundsMade w 0 (mergeRounds w arena 0).1 (mergeRounds w arena 0).2 where
  leaf j := by simp [mergeRounds, setLeaves]
  node n low high := by omega
  parent n hn out := by
    refine absurd ?_ out
    exact List.mem_map.2 ⟨⟨n.val, hn⟩, by simp [symbols], Fin.ext (by simp)⟩

/-- A join leaves weight and children of every slot but the one it makes. -/
theorem join_sameBelow {a b n i : Slot} (arena : Arena) (hab : a ≠ b) (han : a ≠ n) (hbn : b ≠ n) (hin : i ≠ n) :
    SameBelow (join a b n arena)[i] arena[i] := by
  rw [join_get arena hab han hbn, if_neg hin]
  split
  · next hib => subst hib; exact ⟨rfl, rfl, rfl⟩
  · split
    · next hia => subst hia; exact ⟨rfl, rfl, rfl⟩
    · exact ⟨rfl, rfl, rfl⟩

/-- Joining two nodes of the forest under the next slot makes one more round. -/
theorem roundsMade_join {w : Weights} {k : Nat} {arena : Arena} {a b : Slot} {forest rest : List Slot}
    (h : RoundsMade w k arena forest) (hk : k < 64) (nodup : forest.Nodup) (perm : (a :: b :: rest).Perm forest)
    (ha : a.val < 65 + k) (hb : b.val < 65 + k) :
    RoundsMade w (k + 1) (join a b (mergeSlot k) arena) (rest ++ [mergeSlot k]) := by
  have hm := mergeSlot_val hk
  have old {i : Slot} (hi : i.val < 65 + k) : i ≠ mergeSlot k := fun e => by rw [e, hm] at hi; omega
  have new {i : Slot} (hi : i.val < 65 + (k + 1)) (hne : i ≠ mergeSlot k) : i.val < 65 + k := by
    have : i.val ≠ (mergeSlot k).val := fun e => hne (Fin.ext e)
    omega
  obtain ⟨haFresh, hbFresh, hab⟩ : a ∉ rest ∧ b ∉ rest ∧ a ≠ b := by
    have := perm.nodup_iff.2 nodup
    simp only [List.nodup_cons, List.mem_cons, not_or] at this
    exact ⟨this.1.2, this.2.1, this.1.1⟩
  have get := join_get arena hab (old ha) (old hb)
  have below {i : Slot} (hi : i ≠ mergeSlot k) := join_sameBelow arena hab (old ha) (old hb) hi
  have outside {i : Slot} (hi : i ∉ forest) : i ≠ a ∧ i ≠ b ∧ i ∉ rest := by
    simpa [not_or] using fun m => hi (perm.mem_iff.1 m)
  have kept {i : Slot} (hi : i.val < 65 + k) (hf : i ∉ forest) :
      (join a b (mergeSlot k) arena)[i] = arena[i] := by
    obtain ⟨hia, hib, -⟩ := outside hf
    rw [get, if_neg (old hi), if_neg hib, if_neg hia]
  have made : (join a b (mergeSlot k) arena)[mergeSlot k] =
      { arena[mergeSlot k] with nw := arena[a].nw + arena[b].nw, nl := some a, nr := some b } := by
    rw [get, if_pos rfl]
  have left : (join a b (mergeSlot k) arena)[a] = { arena[a] with np := some (mergeSlot k), ns := false } := by
    rw [get, if_neg (old ha), if_neg hab, if_pos rfl]
  have right : (join a b (mergeSlot k) arena)[b] = { arena[b] with np := some (mergeSlot k), ns := true } := by
    rw [get, if_neg (old hb), if_pos rfl]
  constructor
  case leaf =>
    intro j
    have hj := j.isLt
    obtain ⟨nw, nl, nr⟩ := below (old (i := leafSlot j) (by rw [leafSlot_val]; omega))
    rw [nw, nl, nr]
    exact h.leaf j
  case node =>
    intro n low high
    by_cases hn : n = mergeSlot k
    · subst hn
      refine ⟨a, b, hab, by rw [Fin.lt_def]; omega, by rw [Fin.lt_def]; omega, by simp [haFresh, old ha],
        by simp [hbFresh, old hb], ?_⟩
      rw [made, left, right]
      exact ⟨rfl, rfl, rfl, rfl, rfl, rfl, rfl⟩
    · have hn' := new high hn
      obtain ⟨l, r, hlr, hl, hr, lOut, rOut, links⟩ := h.node n low hn'
      obtain ⟨nw, nl, nr⟩ := below hn
      have hl' : l.val < 65 + k := by rw [Fin.lt_def] at hl; omega
      have hr' : r.val < 65 + k := by rw [Fin.lt_def] at hr; omega
      refine ⟨l, r, hlr, hl, hr, by simp [outside lOut, old hl'], by simp [outside rOut, old hr'], ?_⟩
      rw [nw, nl, nr, kept hl' lOut, kept hr' rOut]
      exact links
  case parent =>
    intro n high out
    obtain ⟨outRest, hn⟩ : n ∉ rest ∧ n ≠ mergeSlot k := by simpa [not_or] using out
    have hn' := new high hn
    by_cases hf : n ∈ forest
    · have joined : n = a ∨ n = b := by simpa [outRest] using perm.mem_iff.2 hf
      refine ⟨mergeSlot k, by rw [Fin.lt_def]; omega, by omega, by omega, ?_⟩
      rcases joined with rfl | rfl
      · rw [left, made]
        exact ⟨rfl, rfl⟩
      · rw [right, made]
        exact ⟨rfl, rfl⟩
    · obtain ⟨p, hnp, low, hp, np, child⟩ := h.parent n hn' hf
      obtain ⟨-, nl, nr⟩ := below (old hp)
      refine ⟨p, hnp, low, by omega, ?_⟩
      rw [kept hn' hf, nl, nr]
      exact ⟨np, child⟩

theorem roundsMade (w : Weights) (arena : Arena) (k : Nat) (hk : k ≤ 64) :
    RoundsMade w k (mergeRounds w arena k).1 (mergeRounds w arena k).2 := by
  induction k with
  | zero => exact roundsMade_zero w arena
  | succ k ih =>
    obtain ⟨a, b, rest, -, hr, perm, -, ha, hb, -, -⟩ := mergeRounds_round w arena k (by omega)
    rw [hr]
    exact roundsMade_join (ih (by omega)) (by omega) (mergeRounds_forest w arena k (by omega)).1 perm ha hb

/-- After the rounds BUILD clears the root's parent and side alone (41_tree_builder.md R160). -/
theorem buildArena_get (w : Weights) (arena : Arena) (n : Slot) : (buildArena w arena)[n] =
    if n = rootSlot then { (mergeRounds w arena 64).1[rootSlot] with np := none, ns := false }
    else (mergeRounds w arena 64).1[n] := by
  have get (built : Arena) (x : Node) : (built.set rootSlot x)[n] = if n = rootSlot then x else built[n] := by
    by_cases h : n = rootSlot
    · simp [h]
    · have h' : rootSlot.val ≠ n.val := fun e => h (Fin.ext e.symm)
      simp [h, h']
  exact get _ _

theorem sameBelow_orphan (x : Node) : SameBelow { x with np := none, ns := false } x := ⟨rfl, rfl, rfl⟩

theorem rootSlot_val : rootSlot.val = 128 := rfl

/-- BUILD makes a strict tree over the leaves of W, whatever the arena was (41_tree_builder.md R163). -/
theorem buildArena_isHuffmanTree (w : Weights) (arena : Arena) : IsHuffmanTree w (buildArena w arena) := by
  have h := roundsMade w arena 64 le_rfl
  rw [mergeRounds_end] at h
  have made (n : Slot) : n.val < 65 + 64 := n.isLt
  have below (n : Slot) : SameBelow (buildArena w arena)[n] (mergeRounds w arena 64).1[n] := by
    rw [buildArena_get]
    split
    · next hn => rw [hn]; exact sameBelow_orphan _
    · exact ⟨rfl, rfl, rfl⟩
  have other {n : Slot} (hn : n ≠ rootSlot) : (buildArena w arena)[n] = (mergeRounds w arena 64).1[n] := by
    rw [buildArena_get, if_neg hn]
  constructor
  case leaf =>
    intro j
    obtain ⟨nw, nl, nr⟩ := below (leafSlot j)
    rw [nw, nl, nr]
    exact h.leaf j
  case node =>
    intro n low
    obtain ⟨l, r, hlr, hl, hr, lOut, rOut, links⟩ := h.node n low (made n)
    obtain ⟨nw, nl, nr⟩ := below n
    refine ⟨l, r, hlr, hl, hr, ?_⟩
    rw [nw, nl, nr, other (by simpa using lOut), other (by simpa using rOut)]
    exact links
  case parent =>
    intro n hn
    obtain ⟨p, hnp, low, -, np, child⟩ := h.parent n (made n) (by simpa using hn)
    obtain ⟨-, nl, nr⟩ := below p
    refine ⟨p, hnp, low, ?_⟩
    rw [other hn, nl, nr]
    exact ⟨np, child⟩
  case root =>
    rw [buildArena_get, if_pos rfl]
    exact ⟨rfl, rfl⟩

/-! ### Codes as paths of a tree (30_encoding.md R106, 42_code_generator.md R181) -/

theorem Descends.append {arena : Arena} {n m l : Slot} {xs ys : List Bool} (h : Descends arena n xs m)
    (h' : Descends arena m ys l) : Descends arena n (xs ++ ys) l := by
  induction xs generalizing n with
  | nil => obtain rfl : n = m := h; exact h'
  | cons x xs ih =>
    obtain ⟨c, hc, hd⟩ := h
    exact ⟨c, hc, ih hd⟩

theorem Descends.split {arena : Arena} {n l : Slot} {xs ys : List Bool} (h : Descends arena n (xs ++ ys) l) :
    ∃ m, Descends arena n xs m ∧ Descends arena m ys l := by
  induction xs generalizing n with
  | nil => exact ⟨n, rfl, h⟩
  | cons x xs ih =>
    obtain ⟨c, hc, hd⟩ := h
    obtain ⟨m, hm, hm'⟩ := ih hd
    exact ⟨m, ⟨c, hc, hm⟩, hm'⟩

/-- Bits lead to one slot. -/
theorem Descends.unique {arena : Arena} {n m m' : Slot} {bits : List Bool} (h : Descends arena n bits m)
    (h' : Descends arena n bits m') : m = m' := by
  induction bits generalizing n with
  | nil => exact Eq.trans (Eq.symm h) h'
  | cons x xs ih =>
    obtain ⟨c, hc, hd⟩ := h
    obtain ⟨c', hc', hd'⟩ := h'
    obtain rfl : c = c' := Option.some.inj (hc.symm.trans hc')
    exact ih hd hd'

theorem leafSlot_ne_root (k : Symbol) : leafSlot k ≠ rootSlot := by
  intro e
  have := congrArg Fin.val e
  rw [leafSlot_val, rootSlot_val] at this
  omega

section
variable {w : Weights} {arena : Arena} (tree : IsHuffmanTree w arena)
include tree

/-- No bits lead on from a leaf. -/
theorem descends_from_leaf {k : Symbol} {bits : List Bool} {m : Slot} (h : Descends arena (leafSlot k) bits m) :
    leafSlot k = m := by
  cases bits with
  | nil => exact h
  | cons x xs =>
    obtain ⟨-, nl, nr⟩ := tree.leaf k
    obtain ⟨c, hc, -⟩ := h
    rw [nl, nr, ite_self] at hc
    cases hc

/-- The path up from a slot, read from the root, leads down to that slot: parents have larger numbers, so the fuel of
`codeBits` is enough. -/
theorem descends_pathUp {fuel : Nat} {n : Slot} (enough : 129 ≤ fuel + n.val) :
    Descends arena rootSlot (pathUp arena fuel n).reverse n := by
  induction fuel generalizing n with
  | zero => omega
  | succ fuel ih =>
    by_cases hn : n = rootSlot
    · rw [hn, pathUp, tree.root.1]
      exact rfl
    · obtain ⟨p, hnp, -, np, child⟩ := tree.parent n hn
      rw [Fin.lt_def] at hnp
      have up : pathUp arena (fuel + 1) n = arena[n].ns :: pathUp arena fuel p := by rw [pathUp, np]
      rw [up, List.reverse_cons]
      exact (ih (by omega)).append ⟨n, child, rfl⟩

/-- Among the internal nodes every parent has a larger number, up to 128. -/
theorem pathUp_length_le {fuel : Nat} {n : Slot} (inner : 65 ≤ n.val) : (pathUp arena fuel n).length ≤ 128 - n.val := by
  induction fuel generalizing n with
  | zero => simp [pathUp]
  | succ fuel ih =>
    by_cases hn : n = rootSlot
    · rw [hn, pathUp, tree.root.1]
      simp
    · obtain ⟨p, hnp, low, np, -⟩ := tree.parent n hn
      rw [Fin.lt_def] at hnp
      have up : pathUp arena (fuel + 1) n = arena[n].ns :: pathUp arena fuel p := by rw [pathUp, np]
      have := ih low
      rw [up, List.length_cons]
      omega

/-- A leaf is at least one and at most 64 steps below the root (42_code_generator.md R185 c). -/
theorem codeLength_bounds (k : Symbol) : 1 ≤ codeLength arena k ∧ codeLength arena k ≤ 64 := by
  obtain ⟨p, -, low, np, -⟩ := tree.parent _ (leafSlot_ne_root k)
  have up : pathUp arena Config.nNodes (leafSlot k) = arena[leafSlot k].ns :: pathUp arena 128 p := by
    rw [Config.nNodes, pathUp, np]
  have := pathUp_length_le tree (fuel := 128) low
  simp only [codeLength, codeBits, up, List.length_reverse, List.length_cons]
  omega

theorem descends_codeBits (k : Symbol) : Descends arena rootSlot (codeBits arena k) (leafSlot k) :=
  descends_pathUp tree (by simp [Config.nNodes])

/-- No code bits begin another symbol's: from the first symbol's leaf nothing leads on. -/
theorem codeBits_prefixFree {i j : Symbol} (h : codeBits arena i <+: codeBits arena j) : i = j := by
  obtain ⟨more, hmore⟩ := h
  have down := descends_codeBits tree j
  rw [← hmore] at down
  obtain ⟨m, toM, fromM⟩ := down.split
  obtain rfl := toM.unique (descends_codeBits tree i)
  have same := congrArg Fin.val (descends_from_leaf tree fromM)
  rw [leafSlot_val, leafSlot_val] at same
  exact Fin.ext same

end

/-! ### The bits of a code (30_encoding.md R106) -/

theorem bitsValue_lt (bits : List Bool) : bitsValue bits < 2 ^ bits.length := by
  induction bits with
  | nil => simp [bitsValue]
  | cons b bs ih =>
    rw [bitsValue, List.length_cons, Nat.pow_succ]
    cases b <;> simp <;> omega

/-- Bit i of the value, counted from its end, is bit i from the end of the bits. -/
theorem bitsValue_testBit (bits : List Bool) {i : Nat} (h : i < bits.length) :
    (bitsValue bits).testBit (bits.length - 1 - i) = bits[i] := by
  induction bits generalizing i with
  | nil => simp at h
  | cons b bs ih =>
    have hlt := bitsValue_lt bs
    rw [bitsValue, Nat.mul_comm]
    cases i with
    | zero =>
      have e : (b :: bs).length - 1 - 0 = bs.length := by simp
      rw [e, Nat.testBit_two_pow_mul_add _ hlt, if_neg (lt_irrefl _), Nat.sub_self]
      cases b <;> rfl
    | succ i =>
      have hi : i < bs.length := by simpa using h
      have e : (b :: bs).length - 1 - (i + 1) = bs.length - 1 - i := by simp; omega
      rw [e, Nat.testBit_two_pow_mul_add _ hlt, if_pos (by omega), ih hi]
      rfl

/-- The code made of at most 64 bits has those bits. -/
theorem code_bits_of_bitsValue {bits : List Bool} (h : bits.length ≤ 64) :
    (Code.mk (BitVec.ofNat 7 bits.length) (BitVec.ofNat 64 (bitsValue bits))).bits = bits := by
  have len : (BitVec.ofNat 7 bits.length).toNat = bits.length := by
    rw [BitVec.toNat_ofNat]
    exact Nat.mod_eq_of_lt (by omega)
  refine List.ext_getElem (by simp [len]) fun i hi hi' => ?_
  simp [Code.bits, len, BitVec.getLsbD_ofNat, bitsValue_testBit bits hi']
  omega

theorem codebookOf_bits {arena : Arena} {k : Symbol} (short : codeLength arena k ≤ 64) :
    (codebookOf arena)[k].bits = codeBits arena k := by
  have made : (codebookOf arena)[k] =
      ⟨BitVec.ofNat 7 (codeBits arena k).length, BitVec.ofNat 64 (bitsValue (codeBits arena k))⟩ := by
    simp [codebookOf, codeLength]
  rw [made, code_bits_of_bitsValue short]

theorem codebookOf_val {arena : Arena} {k : Symbol} (short : codeLength arena k ≤ 64) :
    (codebookOf arena)[k].val.toNat = bitsValue (codeBits arena k) := by
  have hlt := bitsValue_lt (codeBits arena k)
  have : 2 ^ (codeBits arena k).length ≤ 2 ^ 64 := Nat.pow_le_pow_right (by omega) short
  simp [codebookOf]
  omega

/-- GENCODE's codebook of a tree is valid (42_code_generator.md R185 a, c, d). -/
theorem codebookOf_valid {w : Weights} {arena : Arena} (tree : IsHuffmanTree w arena) : (codebookOf arena).valid := by
  constructor
  · intro k
    obtain ⟨pos, short⟩ := codeLength_bounds tree k
    rw [codebookOf_len short, codebookOf_val short]
    exact ⟨pos, short, bitsValue_lt _⟩
  · intro i j hij h
    rw [codebookOf_bits (codeLength_bounds tree i).2, codebookOf_bits (codeLength_bounds tree j).2] at h
    exact hij (codeBits_prefixFree tree h)

end Sys2Proof.Machine

/-! PROOFS. Valid codebooks. -/

namespace Sys2Proof.Machine

/-! ### The codebook LOAD takes (44_unpack.md R220 to R222) -/

/-- Bit i of a code, counted from its first. -/
theorem Code.bits_getElem (c : Code) {i : Nat} (h : i < c.bits.length) :
    c.bits[i] = c.val.toNat.testBit (c.len.toNat - 1 - i) := by
  simp [Code.bits, BitVec.getLsbD]

/-- A code whose bits begin another's is no longer, and its value is the other's without the last bits. -/
theorem Code.val_of_bits_isPrefix {c d : Code} (hc : c.val.toNat < 2 ^ c.len.toNat)
    (hd : d.val.toNat < 2 ^ d.len.toNat) (h : c.bits <+: d.bits) :
    c.len.toNat ≤ d.len.toNat ∧ d.val.toNat >>> (d.len.toNat - c.len.toNat) = c.val.toNat := by
  have len : c.len.toNat ≤ d.len.toNat := by simpa using h.length_le
  refine ⟨len, Nat.eq_of_testBit_eq fun j => ?_⟩
  rw [Nat.testBit_shiftRight]
  by_cases hj : j < c.len.toNat
  · have hi : c.len.toNat - 1 - j < c.bits.length := by rw [Code.bits_length]; omega
    have same := h.getElem hi
    rw [Code.bits_getElem, Code.bits_getElem] at same
    rw [show c.len.toNat - 1 - (c.len.toNat - 1 - j) = j by omega,
      show d.len.toNat - 1 - (c.len.toNat - 1 - j) = d.len.toNat - c.len.toNat + j by omega] at same
    exact same.symm
  · have beyond {n L i : Nat} (hn : n < 2 ^ L) (hi : L ≤ i) : n.testBit i = false :=
      Nat.testBit_lt_two_pow (hn.trans_le (Nat.pow_le_pow_right (by omega) hi))
    rw [beyond hd (by omega), beyond hc (by omega)]

theorem loadedCodebook_val {m : Memory} {k : Symbol} (h : RecordValid m k) :
    (loadedCodebook m)[k].val.toNat = recordVal m k := by
  obtain ⟨-, ⟨-, len⟩, val⟩ := h
  have : 2 ^ recordLen m k ≤ 2 ^ 64 := Nat.pow_le_pow_right (by omega) len
  simp [loadedCodebook]
  omega

/-- In a codebook LOAD accepts no two codes clash (44_unpack.md R222). -/
theorem clash_of_sound {m : Memory} (sound : codebookFailure m = none) {i j : Symbol} (hij : i < j) :
    clash (recordLen m i) (recordVal m i) (recordLen m j) (recordVal m j) = false := by
  unfold codebookFailure at sound
  split at sound
  · simp at sound
  · split at sound
    · simp at sound
    · have hi := List.findSome?_eq_none_iff.1 sound i (by simp [symbols])
      have hj := List.findSome?_eq_none_iff.1 hi j (by simp [symbols])
      unfold pairFailure at hj
      split at hj
      · simp at hj
      · next h => simpa [hij] using h

/-- The shorter of two codes being the beginning of the longer is a clash, in either order. -/
theorem clash_of_le {li vi lj vj : Nat} (len : li ≤ lj) (val : vj >>> (lj - li) = vi) :
    clash li vi lj vj = true ∧ clash lj vj li vi = true := by
  simp [clash, len, val]

/-- The codebook LOAD takes is valid (44_unpack.md R223). -/
theorem loadedCodebook_valid {m : Memory} (sound : codebookFailure m = none) : (loadedCodebook m).valid := by
  have record := recordValid_of_sound sound
  have range : (loadedCodebook m).inRange := by
    intro k
    obtain ⟨-, ⟨pos, short⟩, val⟩ := record k
    rw [loadedCodebook_len (record k), loadedCodebook_val (record k)]
    exact ⟨pos, short, val⟩
  refine ⟨range, fun i j hij h => ?_⟩
  obtain ⟨len, val⟩ := Code.val_of_bits_isPrefix (range i).2.2 (range j).2.2 h
  rw [loadedCodebook_len (record i), loadedCodebook_len (record j)] at len val
  rw [loadedCodebook_val (record i), loadedCodebook_val (record j)] at val
  obtain ⟨forth, back⟩ := clash_of_le len val
  rcases lt_or_gt_of_ne hij with lt | gt
  · exact absurd forth (by simp [clash_of_sound sound lt])
  · exact absurd back (by simp [clash_of_sound sound gt])

/-! ### CB while CV is 1 (10_state.md R27, R50, R51) -/

theorem CodebookAgrees.of_tables {s t : State} (h : CodebookAgrees s) (tables : SameTables s t) :
    CodebookAgrees t := by
  constructor
  · rw [tables.cv, tables.cb]
    exact h.valid
  · rw [tables.cv, tables.cb, tables.pad]
    exact h.cleared

theorem codebookAgrees_effect {i : Instr} {s t : State} (tree : TreeAgrees s) (h : CodebookAgrees s)
    (he : Effect i s t) : CodebookAgrees t := by
  have ⟨valid, cleared⟩ := h
  cases he with
  | cntBegin => exact ⟨by simp, fun _ => ⟨by simp, rfl⟩⟩
  | gencode _ tv =>
    have built := buildArena_isHuffmanTree s.w clearedArena
    rw [← tree.built tv] at built
    exact ⟨fun _ => codebookOf_valid built, by simp [generate]⟩
  | load _ sound => exact ⟨fun _ => loadedCodebook_valid sound, by simp⟩
  | packEnd => exact ⟨by simpa using valid, by simpa using cleared⟩
  | unpackEnd => exact h.of_tables (finishUnpack_unpackFrame s).tables
  | unpacked _ _ space => exact h.of_tables (unpackByte_unpackFrame _ space).tables
  | packed => exact h.of_tables (packOne_packFrame _ s).tables
  | cntEnd | build | teardown | packBegin | unpackBegin | counted | popped | stored => exact ⟨valid, cleared⟩

theorem codebookAgrees_invariant : Invariant fun s => TreeAgrees s ∧ CodebookAgrees s where
  reset := ⟨treeAgrees_reset, codebookAgrees_reset⟩
  port s _ _ _ h := ⟨treeAgrees_invariant.port s _ _ _ h.1, h.2.valid, h.2.cleared⟩
  raise s e h known running :=
    ⟨treeAgrees_invariant.raise s e h.1 known running, by simpa using h.2.valid, by simpa using h.2.cleared⟩
  effect _ _ _ h he := ⟨treeAgrees_effect h.1 he, codebookAgrees_effect h.1 h.2 he⟩

/-- Settles O56: GENCODE's codes are the paths of a strict tree, and LOAD's have passed its checks. -/
theorem stepsKeepTheCodebookValid : Obligations.StepsKeepTheCodebookValid :=
  fun _ _ tree h hs => (codebookAgrees_invariant.step ⟨tree, h⟩ hs).2

end Sys2Proof.Machine

/-! PROOFS. Reads of the port: which operation a read is, and what it does. -/

namespace Sys2Proof

/-- The read half of 46_bus_access.md R265: a read is GET at DOUT's offset only. -/
theorem decodeRead_of_ne_dout {a : WordIndex} (notDout : byteOffset a ≠ 0x014) :
    (∃ r, decodeRead a = .ok (.rdreg r)) ∨ (∃ i, decodeRead a = .ok (.cbrd i)) ∨ decodeRead a = .ok (.rdzero a) := by
  simp only [decodeRead, if_neg notDout]
  split
  · next r _ => exact .inl ⟨r, rfl⟩
  · split
    · exact .inr (.inl ⟨_, rfl⟩)
    · exact .inr (.inr rfl)

end Sys2Proof

namespace Sys2Proof.Machine

theorem runTransaction_read {off : Offset} {i : Instr} (decoded : decodeRead (wordIndex off) = .ok i) (s : State) :
    runTransaction (.read off) s = exec i s := by
  simp only [runTransaction, decode, decoded]

theorem exec_rdreg (r : Reg) (s : State) : exec (.rdreg r) s = .next (s.answer (s.readReg r)) := rfl

theorem exec_cbrd (i : Nat) (s : State) :
    exec (.cbrd i) s = .next (s.answer ((Memory.read s.cbuf i).setWidth 32)) := rfl

theorem exec_rdzero (a : WordIndex) (s : State) : exec (.rdzero a) s = .next (s.answer 0) := rfl

/-- Settles O45: away from DOUT a read is RDREG, CBRD or RDZERO, and each of them only answers. -/
theorem readsButDoutHaveNoSideEffect : Obligations.ReadsButDoutHaveNoSideEffect := by
  intro s off notDout
  obtain ⟨r, decoded⟩ | ⟨i, decoded⟩ | decoded := decodeRead_of_ne_dout notDout
  · exact ⟨_, (runTransaction_read decoded s).trans (exec_rdreg r s)⟩
  · exact ⟨_, (runTransaction_read decoded s).trans (exec_cbrd i s)⟩
  · exact ⟨_, (runTransaction_read decoded s).trans (exec_rdzero _ s)⟩

end Sys2Proof.Machine

/-! PROOFS. The decoder's branches, one lemma each, and the encoder back: commands, DIN, registers, CBUF, the rest. -/

namespace Sys2Proof

/-! ### Offsets and word offsets -/

theorem byteOffset_wordIndex (off : Offset) : byteOffset (wordIndex off) = 4 * (off.toNat / 4) := by
  simp only [byteOffset, wordIndex, BitVec.extractLsb'_toNat, Nat.shiftRight_eq_div_pow]
  omega

theorem byteOffset_wordIndex_ofNat {k : Nat} (inPort : k < 0x800) :
    byteOffset (wordIndex (BitVec.ofNat 13 (4 * k))) = 4 * k := by
  rw [byteOffset_wordIndex, BitVec.toNat_ofNat]
  omega

theorem byteOffset_injective {a b : WordIndex} (same : byteOffset a = byteOffset b) : a = b :=
  BitVec.eq_of_toNat_eq (Nat.eq_of_mul_eq_mul_left (by decide : 0 < 4) same)

@[simp] theorem wordIndex_ofNat_byteOffset (a : WordIndex) : wordIndex (BitVec.ofNat 13 (byteOffset a)) = a :=
  byteOffset_injective (byteOffset_wordIndex_ofNat a.isLt)

/-- Where byte i of CBUF stands at the port (20_memory.md R73). -/
theorem byteOffset_wordIndex_cbuf {i : Nat} (inCbuf : i ≤ 650) :
    byteOffset (wordIndex (BitVec.ofNat 13 (0x1000 + 4 * i))) = 0x1000 + 4 * i := by
  have h := byteOffset_wordIndex_ofNat (k := 0x400 + i) (by omega)
  rwa [Nat.mul_add] at h

theorem byteOffset_wordIndex_register {r : Reg} (wf : r.wf = true) :
    byteOffset (wordIndex (BitVec.ofNat 13 r.offset)) = r.offset := by
  cases r with
  | weight s =>
    have inWindow : s ≤ 64 := by simpa [Reg.wf] using wf
    have h := byteOffset_wordIndex_ofNat (k := 0x40 + s) (by omega)
    rwa [Nat.mul_add] at h
  | id | status | err | pad | nsym | tbitsLo | tbitsHi | bitcntLo | bitcntHi | dincnt | ocnt | pnsym | dbg => rfl

/-! ### The decoder's tables and windows -/

section Tables

variable {α β : Type} [BEq α] [LawfulBEq α] {l : List (α × β)} {key : α}

theorem lookup_eq_none_of_not_mem_keys (absent : key ∉ l.map Prod.fst) : l.lookup key = none := by
  rw [List.lookup_eq_none_iff]
  intro row mem
  simpa using fun same : key = row.1 => absent (same ▸ List.mem_map_of_mem mem)

omit [BEq α] [LawfulBEq α] in
theorem exists_row_of_mem_keys (present : key ∈ l.map Prod.fst) : ∃ value, (key, value) ∈ l := by
  obtain ⟨⟨_, value⟩, row, rfl⟩ := List.mem_map.1 present
  exact ⟨value, row⟩

end Tables

theorem inCbufWindow_iff {off : Nat} : inCbufWindow off = true ↔ 0x1000 ≤ off ∧ off ≤ 0x1A28 := by
  simp [inCbufWindow]

/-! ### Writes -/

theorem decodeWrite_cmd {a : WordIndex} (cmd : byteOffset a = 0x004) (m : Mode) (v : Word) :
    decodeWrite m a v = decodeCommand v := if_pos cmd

theorem decodeWrite_din {a : WordIndex} (din : byteOffset a = 0x010) (m : Mode) (v : Word) :
    decodeWrite m a v = .ok (dinOperation m v) := by
  simp [decodeWrite, din]

theorem decodeWrite_cbuf {a : WordIndex} {i : Nat} (cbuf : byteOffset a = 0x1000 + 4 * i) (inCbuf : i ≤ 650)
    (m : Mode) (v : Word) : decodeWrite m a v = .ok (.cbwr i v) := by
  have notCmd : byteOffset a ≠ 0x004 := by omega
  have notDin : byteOffset a ≠ 0x010 := by omega
  have window : inCbufWindow (byteOffset a) = true := by rw [inCbufWindow_iff]; omega
  have index : (byteOffset a - 0x1000) / 4 = i := by omega
  rw [decodeWrite, if_neg notCmd, if_neg notDin, if_pos window, index]

theorem decodeWrite_ignored {a : WordIndex} (ignored : (readOnly (byteOffset a) || unmapped (byteOffset a)) = true)
    (m : Mode) (v : Word) : decodeWrite m a v = .ok (.wrign a v) := by
  simp only [readOnly, unmapped, Bool.or_eq_true, Bool.and_eq_true, beq_iff_eq, decide_eq_true_eq] at ignored
  have notCmd : byteOffset a ≠ 0x004 := by omega
  have notDin : byteOffset a ≠ 0x010 := by omega
  have outside : ¬ inCbufWindow (byteOffset a) = true := by rw [inCbufWindow_iff]; omega
  rw [decodeWrite, if_neg notCmd, if_neg notDin, if_neg outside]

/-! ### Reads -/

theorem registerAt_offset {r : Reg} (wf : r.wf = true) : registerAt r.offset = some r := by
  cases r with
  | weight s =>
    have inWindow : s ≤ 64 := by simpa [Reg.wf] using wf
    have window : 0x100 ≤ 0x100 + 4 * s ∧ 0x100 + 4 * s ≤ 0x200 := by omega
    have index : (0x100 + 4 * s - 0x100) / 4 = s := by omega
    rw [Reg.offset, registerAt, if_pos window, index]
  | id | status | err | pad | nsym | tbitsLo | tbitsHi | bitcntLo | bitcntHi | dincnt | ocnt | pnsym | dbg => rfl

/-- DOUT is no register of RDREG: a read there pops OFIFO (46_bus_access.md R268). -/
theorem Reg.offset_ne_dout (r : Reg) : r.offset ≠ 0x014 := by
  cases r <;> simp only [Reg.offset] <;> omega

theorem registerMap_offsets :
    ∀ off ∈ registerMap.map Prod.fst, off ≠ 0x004 ∧ off ≠ 0x010 ∧ off < 0x040 := by decide

/-- RDREG reads neither CMD nor DIN, nor what lies above DBG and outside the weight window (20_memory.md R71, R72). -/
theorem registerAt_eq_none {off : Nat}
    (place : off = 0x004 ∨ off = 0x010 ∨ (0x040 ≤ off ∧ off < 0x100) ∨ 0x200 < off) : registerAt off = none := by
  have noWeight : ¬ (0x100 ≤ off ∧ off ≤ 0x200) := by omega
  rw [registerAt, if_neg noWeight]
  refine lookup_eq_none_of_not_mem_keys fun listed => ?_
  have readable := registerMap_offsets off listed
  omega

theorem decodeRead_dout {a : WordIndex} (dout : byteOffset a = 0x014) : decodeRead a = .ok .get := if_pos dout

theorem decodeRead_register {a : WordIndex} {r : Reg} (register : byteOffset a = r.offset) (wf : r.wf = true) :
    decodeRead a = .ok (.rdreg r) := by
  rw [decodeRead, register, if_neg r.offset_ne_dout, registerAt_offset wf]

theorem decodeRead_cbuf {a : WordIndex} {i : Nat} (cbuf : byteOffset a = 0x1000 + 4 * i) (inCbuf : i ≤ 650) :
    decodeRead a = .ok (.cbrd i) := by
  have notDout : byteOffset a ≠ 0x014 := by omega
  have noRegister : registerAt (byteOffset a) = none := registerAt_eq_none (by omega)
  have window : inCbufWindow (byteOffset a) = true := by rw [inCbufWindow_iff]; omega
  have index : (byteOffset a - 0x1000) / 4 = i := by omega
  rw [decodeRead, if_neg notDout, noRegister]
  simp only [if_pos window, index]

theorem decodeRead_zero {a : WordIndex} (zero : (writeOnly (byteOffset a) || unmapped (byteOffset a)) = true) :
    decodeRead a = .ok (.rdzero a) := by
  simp only [writeOnly, unmapped, Bool.or_eq_true, Bool.and_eq_true, beq_iff_eq, decide_eq_true_eq] at zero
  have notDout : byteOffset a ≠ 0x014 := by omega
  have noRegister : registerAt (byteOffset a) = none := registerAt_eq_none (by omega)
  have outside : ¬ inCbufWindow (byteOffset a) = true := by rw [inCbufWindow_iff]; omega
  rw [decodeRead, if_neg notDout, noRegister]
  simp only [if_neg outside]

/-! ### Commands -/

theorem decodeCommand_unassigned {v : Word} (unassigned : opcodeField v ∉ commandMap.map Prod.fst) :
    decodeCommand v = .rejected (.unassignedOpcode (opcodeField v)) := by
  rw [decodeCommand, lookup_eq_none_of_not_mem_keys unassigned]

/-- No OPCODE has two rows in 30_encoding.md R101's table. -/
theorem lookup_commandMap : ∀ p ∈ commandMap, commandMap.lookup p.1 = some p.2 := by decide

theorem decodeCommand_assigned {v : Word} {i : Instr} (assigned : (opcodeField v, i) ∈ commandMap) :
    decodeCommand v = if rsvdField v = 0 then .ok i else .rejected (.reservedBits (opcodeField v)) := by
  rw [decodeCommand, lookup_commandMap _ assigned]

/-- A row of 30_encoding.md R101 is a well-formed operation, and the encoder gives it the row's word. -/
theorem encode_commandMap :
    ∀ p ∈ commandMap, p.2.wf = true ∧ encode p.2 = commandWrite (p.1.setWidth 32) := by decide

theorem toNat_opcodeField (v : Word) : (opcodeField v).toNat = v.toNat % 2 ^ 8 := by
  simp [opcodeField]

theorem rsvdField_eq_zero_iff {v : Word} : rsvdField v = 0 ↔ v.toNat < 256 := by
  have field : rsvdField v = 0 ↔ v.toNat / 256 % 16777216 = 0 := by
    simp [rsvdField, BitVec.toNat_eq, Nat.shiftRight_eq_div_pow]
  have word := v.isLt
  rw [field]
  omega

/-- A word with RSVD 0 is its OPCODE (30_encoding.md R100). -/
theorem setWidth_opcodeField {v : Word} (rsvd : rsvdField v = 0) : (opcodeField v).setWidth 32 = v := by
  have small := rsvdField_eq_zero_iff.1 rsvd
  apply BitVec.eq_of_toNat_eq
  rw [BitVec.toNat_setWidth, toNat_opcodeField]
  omega

theorem opcodeField_setWidth (op : Byte) : opcodeField (op.setWidth 32) = op := by
  apply BitVec.eq_of_toNat_eq
  rw [toNat_opcodeField, BitVec.toNat_setWidth]
  omega

theorem rsvdField_setWidth (op : Byte) : rsvdField (op.setWidth 32) = 0 := by
  rw [rsvdField_eq_zero_iff, BitVec.toNat_setWidth]
  omega

theorem decode_encode_command {i : Instr} (command : i ∈ commandMap.map Prod.snd) (m : Mode) :
    decode m (encode i) = .ok i := by
  obtain ⟨⟨op, _⟩, row, rfl⟩ := List.mem_map.1 command
  rw [(encode_commandMap _ row).2]
  calc decode m (commandWrite (op.setWidth 32))
      = decodeCommand (op.setWidth 32) := decodeWrite_cmd rfl m _
    _ = _ := by rw [decodeCommand_assigned ((opcodeField_setWidth op).symm ▸ row), if_pos (rsvdField_setWidth op)]

/-! ### DIN -/

theorem encode_dinOperation (m : Mode) (v : Word) : encode (dinOperation m v) = dinWriteOf v := by
  cases m <;> rfl

theorem dinOperation_selectedIn {n m : Mode} {v : Word} (selected : (dinOperation n v).selectedIn m = true) :
    m = n := by
  cases n <;> exact eq_of_beq selected

theorem decode_encode_dinOperation {n m : Mode} {v : Word} (selected : (dinOperation n v).selectedIn m = true) :
    decode m (encode (dinOperation n v)) = .ok (dinOperation n v) := by
  obtain rfl := dinOperation_selectedIn selected
  rw [encode_dinOperation]
  exact decodeWrite_din rfl m v

/-! ### The obligations -/

/-- Settles O1: each operation's own offset lies in the branch of the decoder that answers it. -/
theorem decodeOfEncodeIsTheOperation : Obligations.DecodeOfEncodeIsTheOperation := by
  intro i m wf selected
  cases i with
  | nop | srst | cntBegin | cntEnd | build | teardown | gencode | packBegin | packEnd | load | unpackBegin
  | unpackEnd => exact decode_encode_command (by decide) m
  | cntPut v => exact decode_encode_dinOperation (n := .count) selected
  | packPut v => exact decode_encode_dinOperation (n := .pack) selected
  | unpackPut v => exact decode_encode_dinOperation (n := .unpack) selected
  | putIdle v => exact decode_encode_dinOperation (n := .idle) selected
  | putErr v => exact decode_encode_dinOperation (n := .error) selected
  | get => exact decodeRead_dout rfl
  | rdreg r => exact decodeRead_register (byteOffset_wordIndex_register wf) wf
  | cbrd i =>
    have inCbuf : i ≤ 650 := of_decide_eq_true wf
    exact decodeRead_cbuf (byteOffset_wordIndex_cbuf inCbuf) inCbuf
  | cbwr i v =>
    have inCbuf : i ≤ 650 := of_decide_eq_true wf
    exact decodeWrite_cbuf (byteOffset_wordIndex_cbuf inCbuf) inCbuf m v
  | wrign a v =>
    rw [encode, decode, wordIndex_ofNat_byteOffset]
    exact decodeWrite_ignored wf m v
  | rdzero a =>
    rw [encode, decode, wordIndex_ofNat_byteOffset]
    exact decodeRead_zero wf

/-- Settles O3: the OPCODE's row in the command map, or its absence, and RSVD say which answer the decoder gives. -/
theorem commandWordIsDecodedOpcodeFirst : Obligations.CommandWordIsDecodedOpcodeFirst := by
  intro m off v cmd op assigned
  have decoded : decode m (.write off v) = decodeCommand v := decodeWrite_cmd cmd m v
  rw [decoded]
  have row (h : assigned) : ∃ i, (opcodeField v, i) ∈ commandMap := exists_row_of_mem_keys (l := commandMap) h
  refine ⟨decodeCommand_unassigned, fun h rsvd => ?_, fun h rsvd => ?_⟩
  · obtain ⟨i, mem⟩ := row h
    rw [decodeCommand_assigned mem]
    exact if_neg rsvd
  · obtain ⟨i, mem⟩ := row h
    obtain ⟨wf, encoded⟩ := encode_commandMap _ mem
    refine ⟨i, ?_, wf, ?_⟩
    · rw [decodeCommand_assigned mem]
      exact if_pos rsvd
    · rw [encoded, setWidth_opcodeField rsvd, commandWrite]

/-- Settles O4: thirteen closed runs of the decoder. -/
theorem sampleTransactionsDecode : Obligations.SampleTransactionsDecode := by
  unfold Obligations.SampleTransactionsDecode
  decide

end Sys2Proof

/-! PROOFS. The ways a command answers and the words of its errors, one lemma each; the frequency counter. -/

namespace Sys2Proof.Machine

/-! ### A command, by MODE and by its checks (45_control.md R256, 60_exceptions.md R298 to R301) -/

theorem command_of_error {s : State} (error : s.mode = .error) (failure : Option HceError) (effect : State) :
    command s failure effect = .next s := if_pos error

theorem command_of_pass {s : State} {failure : Option HceError} (running : s.mode ≠ .error) (pass : failure = none)
    (effect : State) : command s failure effect = .next effect := by
  rw [command, if_neg running, pass, attempt_none]

theorem command_of_failure {s : State} {failure : Option HceError} {e : HceError} (running : s.mode ≠ .error)
    (fails : failure = some e) (effect : State) :
    command s failure effect = .next { s with err := errWord e.code e.sub e.arg, mode := .error } := by
  rw [command, if_neg running, fails, attempt_some, raise_of_running e running]

/-- The MODE check passes in the MODE the command needs. -/
theorem firstFailure_modeCheck_pass {s : State} {m : Mode} (mode : s.mode = m) (op : BitVec 16) (cs : List Check) :
    firstFailure (modeCheck s m op :: cs) = firstFailure cs := by
  simp [firstFailure_cons, modeCheck, mode]

/-- The MODE check stands first, so in another MODE its E_SEQ sub 1 is the failure found. -/
theorem firstFailure_modeCheck_fail {s : State} {m : Mode} (mode : s.mode ≠ m) (op : BitVec 16) (cs : List Check) :
    firstFailure (modeCheck s m op :: cs) = some (eSeq 1 op) := by
  simp [firstFailure_cons, modeCheck, mode]

/-! ### Error words (10_state.md R31) -/

/-- The word of E_BADSYM (60_exceptions.md R293). -/
theorem eBadSym_word (c : Byte) : errWord (eBadSym c).code (eBadSym c).sub (eBadSym c).arg =
    0x00000003 ||| c.setWidth 32 <<< 16 := by
  simp [errWord, eBadSym, BitVec.setWidth_setWidth]

/-- A symbol's index fits ARG. -/
theorem setWidth_symbol (k : Symbol) : (BitVec.ofNat 16 k.val).setWidth 32 = BitVec.ofNat 32 k.val := by
  apply BitVec.eq_of_toNat_eq
  simp only [BitVec.toNat_setWidth, BitVec.toNat_ofNat]
  omega

/-- The word of E_OVERFLOW (60_exceptions.md R294). -/
theorem eOverflow_word (k : Symbol) : errWord (eOverflow k).code (eOverflow k).sub (eOverflow k).arg =
    0x00000004 ||| BitVec.ofNat 32 k.val <<< 16 := by
  simp [errWord, eOverflow, setWidth_symbol]

/-! ### CNT_BEGIN and CNT_END (40_frequency_counter.md R140, R145) -/

/-- The state CNT_BEGIN leaves: the count, the tree and the codebook cleared, MODE COUNT. -/
def countBegun (s : State) : State :=
  { s with
    w := Vector.replicate 65 0, nsym := 0, dincnt := 0, wv := false, tv := false, cv := false, ce := false,
    arena := clearedArena, cb := Vector.replicate 65 ⟨0, 0⟩, pad := 0, totalbits := 0, mode := .count }

theorem exec_cntBegin (s : State) :
    exec .cntBegin s = command s (firstFailure [modeCheck s .idle 0x10]) (countBegun s) := rfl

theorem exec_cntEnd (s : State) :
    exec .cntEnd s = command s (firstFailure [modeCheck s .count 0x11]) { s with wv := true, mode := .idle } := rfl

theorem exec_cntBegin_of_idle {s : State} (idle : s.mode = .idle) : exec .cntBegin s = .next (countBegun s) := by
  rw [exec_cntBegin]
  exact command_of_pass (by simp [idle]) (firstFailure_modeCheck_pass idle _ _) _

@[simp] theorem countBegun_mode (s : State) : (countBegun s).mode = .count := rfl

@[simp] theorem countBegun_nsym (s : State) : (countBegun s).nsym = 0 := rfl

theorem countBegun_w (s : State) (k : Symbol) : (countBegun s).w[k] = 0 := by simp [countBegun]

theorem countBegun_cb (s : State) (k : Symbol) : (countBegun s).cb[k] = ⟨0, 0⟩ := by simp [countBegun]

theorem countBegun_arena (s : State) (n : Slot) : (countBegun s).arena[n] = Node.cleared := by
  simp [countBegun, clearedArena]

/-- Settles O13: the MODE check is CNT_BEGIN's only one, and `countBegun` is its effect. -/
theorem cntBeginClearsCountTreeAndCodebook : Obligations.CntBeginClearsCountTreeAndCodebook := by
  refine ⟨decode_encode_command (i := .cntBegin) (by decide), fun s => ?_⟩
  unfold Raises
  rw [exec_cntBegin]
  refine ⟨fun error => ?_, fun wrong => ?_, fun idle => ?_⟩
  · exact command_of_error error _ _
  · obtain ⟨running, notIdle⟩ : s.mode ≠ .error ∧ s.mode ≠ .idle := by
      rcases wrong with mode | mode | mode <;> simp [mode]
    exact command_of_failure running (firstFailure_modeCheck_fail notIdle _ _) _
  · refine ⟨countBegun s, exec_cntBegin_of_idle idle, rfl, fun k => ?_, fun n => ?_⟩
    · rw [countBegun_w, countBegun_cb]
      exact ⟨rfl, rfl, rfl⟩
    · rw [countBegun_arena]
      exact ⟨rfl, rfl, rfl, rfl, rfl⟩

/-- Settles O15: the MODE check is CNT_END's only one. -/
theorem cntEndValidatesTheCount : Obligations.CntEndValidatesTheCount := by
  refine ⟨decode_encode_command (i := .cntEnd) (by decide), fun s => ?_⟩
  unfold Raises
  rw [exec_cntEnd]
  refine ⟨fun error => ?_, fun wrong => ?_, fun count => ?_⟩
  · exact command_of_error error _ _
  · obtain ⟨running, notCount⟩ : s.mode ≠ .error ∧ s.mode ≠ .count := by
      rcases wrong with mode | mode | mode <;> simp [mode]
    exact command_of_failure running (firstFailure_modeCheck_fail notCount _ _) _
  · exact command_of_pass (by simp [count]) (firstFailure_modeCheck_pass count _ _) _

/-! ### CNT_PUT (40_frequency_counter.md R142) -/

theorem exec_cntPut_of_count {s : State} (count : s.mode = .count) (v : Word) :
    exec (.cntPut v) s = .next (countByte (lowByte v) s) := if_pos count

/-- There is room for one more symbol unless NSYM is all ones. -/
theorem nsym_lt_limit_iff (s : State) : s.nsym.toNat < Config.nsymLimit ↔ s.nsym ≠ 0xFFFFFFFF := by
  have limit : Config.nsymLimit = 0xFFFFFFFF := rfl
  rw [limit]
  bv_omega

theorem countByte_of_invalid {c : Byte} (invalid : idx c = none) (s : State) : countByte c s = raise (eBadSym c) s := by
  simp only [countByte, invalid]

theorem countByte_of_full {c : Byte} {k : Symbol} {s : State} (symbol : idx c = some k) (full : s.nsym = 0xFFFFFFFF) :
    countByte c s = raise (eOverflow k) s := by
  have noRoom : ¬ s.nsym.toNat < Config.nsymLimit := by rwa [nsym_lt_limit_iff, not_not]
  simp [countByte, symbol, firstFailure_cons, noRoom]

theorem countByte_of_room {c : Byte} {k : Symbol} {s : State} (symbol : idx c = some k)
    (room : s.nsym ≠ 0xFFFFFFFF) : countByte c s = countOne k s := by
  rw [← nsym_lt_limit_iff] at room
  simp [countByte, symbol, firstFailure_cons, room]

/-- Settles O14: a byte outside the alphabet, a full count and one more symbol are the three cases of `countByte`. -/
theorem cntPutCountsOneSymbol : Obligations.CntPutCountsOneSymbol := by
  refine ⟨decodeWrite_din rfl .count, fun s v count => ?_⟩
  have running : s.mode ≠ .error := by simp [count]
  have put : exec (.cntPut v) s = .next (countByte (v.extractLsb' 0 8) s) := exec_cntPut_of_count count v
  unfold Raises
  rw [put]
  refine ⟨fun invalid => ?_, fun k symbol => ⟨fun full => ?_, fun room => ?_⟩⟩
  · rw [countByte_of_invalid invalid, raise_of_running _ running, eBadSym_word]
  · rw [countByte_of_full symbol full, raise_of_running _ running, eOverflow_word]
  · rw [countByte_of_room symbol room]
    exact ⟨countOne k s, rfl, rfl, countOne_w_same k s, fun j other => countOne_w_other s other⟩

/-! ### Counting many symbols (40_frequency_counter.md R141) -/

theorem execAll_cons_of_next {i : Instr} {s t : State} (ran : exec i s = .next t) (is : List Instr) :
    execAll (i :: is) s = execAll is t := by
  simp only [execAll, ran]

/-- The symbols counted one after another. -/
def countAll (ks : List Symbol) (s : State) : State := ks.foldl (fun t k => countOne k t) s

@[simp] theorem countAll_nil (s : State) : countAll [] s = s := rfl

@[simp] theorem countAll_cons (k : Symbol) (ks : List Symbol) (s : State) :
    countAll (k :: ks) s = countAll ks (countOne k s) := rfl

@[simp] theorem countAll_mode (ks : List Symbol) (s : State) : (countAll ks s).mode = s.mode := by
  induction ks generalizing s with
  | nil => rfl
  | cons k ks ih => rw [countAll_cons, ih, countOne_mode]

theorem add_one_add_ofNat (x : Word) (n : Nat) : x + 1 + BitVec.ofNat 32 n = x + BitVec.ofNat 32 (n + 1) := by
  rw [BitVec.ofNat_add, BitVec.add_assoc, BitVec.add_comm 1]
  rfl

theorem countAll_nsym (ks : List Symbol) (s : State) :
    (countAll ks s).nsym = s.nsym + BitVec.ofNat 32 ks.length := by
  induction ks generalizing s with
  | nil => simp
  | cons k ks ih =>
    rw [countAll_cons, ih, countOne_nsym, add_one_add_ofNat, List.length_cons]

/-- Each weight grows by the number of its symbol, modulo 2^32. -/
theorem countAll_w (ks : List Symbol) (s : State) (j : Symbol) :
    (countAll ks s).w[j] = s.w[j] + BitVec.ofNat 32 (ks.count j) := by
  induction ks generalizing s with
  | nil => simp
  | cons k ks ih =>
    rw [countAll_cons, ih]
    by_cases same : k = j
    · subst same
      rw [countOne_w_same, add_one_add_ofNat, List.count_cons_self]
    · rw [countOne_w_other s (Ne.symm same), List.count_cons_of_ne same]

/-- DIN values that carry the symbols ks are counted as ks, while NSYM has room for them all. -/
theorem execAll_cntPut {values : List Word} {ks : List Symbol} {s : State} (count : s.mode = .count)
    (carried : values.map (fun v => idx (lowByte v)) = ks.map some) (room : s.nsym.toNat + ks.length < 2 ^ 32) :
    execAll (values.map .cntPut) s = some (countAll ks s) := by
  induction ks generalizing values s with
  | nil =>
    obtain rfl : values = [] := by simpa using carried
    rfl
  | cons k ks ih =>
    obtain ⟨v, values, rfl, symbol, carried⟩ := List.map_eq_cons_iff.1 carried
    rw [List.length_cons] at room
    have notFull : s.nsym ≠ 0xFFFFFFFF := by bv_omega
    have put : exec (.cntPut v) s = .next (countOne k s) := by
      rw [exec_cntPut_of_count count, countByte_of_room symbol notFull]
    have grown : (s.nsym + 1).toNat ≤ s.nsym.toNat + 1 := by
      rw [BitVec.toNat_add]
      exact Nat.mod_le _ _
    rw [List.map_cons, execAll_cons_of_next put, countAll_cons]
    exact ih count carried (by rw [countOne_nsym]; omega)

/-- A count from 0 that fits its field is exact. -/
theorem toNat_zero_add_ofNat {n : Nat} (fits : n < 2 ^ 32) : (0 + BitVec.ofNat 32 n : Word).toNat = n := by
  simp only [BitVec.ofNat_eq_ofNat, BitVec.zero_add, BitVec.toNat_ofNat]
  exact Nat.mod_eq_of_lt fits

/-- Values whose bytes are all symbols carry a list of symbols. -/
theorem exists_symbols_of_valid {values : List Word} (valid : ∀ v ∈ values, idx (lowByte v) ≠ none) :
    ∃ ks : List Symbol, values.map (fun v => idx (lowByte v)) = ks.map some := by
  have present : values.map (fun v => idx (lowByte v)) ∈ Set.range (List.map (some : Symbol → Option Symbol)) := by
    rw [Set.range_list_map]
    intro index mem
    obtain ⟨v, inValues, rfl⟩ := List.mem_map.1 mem
    exact Option.ne_none_iff_exists.1 (valid v inValues)
  obtain ⟨ks, carried⟩ := present
  exact ⟨ks, carried.symm⟩

/-- Settles O16: CNT_BEGIN clears NSYM and W, and each value counts the symbol it carries. -/
theorem countingIsOrderIndependent : Obligations.CountingIsOrderIndependent := by
  intro s values idle short valid
  obtain ⟨ks, carried⟩ := exists_symbols_of_valid valid
  have length : ks.length = values.length := by simpa using (congrArg List.length carried).symm
  have counts (k : Symbol) : values.countP (fun v => idx (v.extractLsb' 0 8) == some k) = ks.count k :=
    calc values.countP (fun v => idx (lowByte v) == some k)
        = (values.map fun v => idx (lowByte v)).count (some k) := by rw [List.count, List.countP_map]; rfl
      _ = (ks.map some).count (some k) := by rw [carried]
      _ = ks.count k := List.count_map_of_injective ks some (Option.some_injective _) k
  refine ⟨countAll ks (countBegun s), ?_, countAll_mode _ _, ?_, fun k => ?_⟩
  · rw [execAll_cons_of_next (exec_cntBegin_of_idle idle)]
    exact execAll_cntPut rfl carried (by simpa [length] using short)
  · rw [countAll_nsym, countBegun_nsym, length, toNat_zero_add_ofNat short]
  · have few : ks.count k < 2 ^ 32 := List.count_le_length.trans_lt (length ▸ short)
    rw [countAll_w, countBegun_w, counts, toNat_zero_add_ofNat few]

end Sys2Proof.Machine

/-! PROOFS. BUILD: its command, what a merge round does, and what the nodes weigh. -/

namespace Sys2Proof.Machine

/-! ### A merge round (41_tree_builder.md R161, R162) -/

theorem setLeaves_get_leaf (w : Weights) (arena : Arena) (k : Symbol) :
    (setLeaves w arena)[leafSlot k] = { arena[leafSlot k] with nw := w[k], nl := none, nr := none } := by
  simp [setLeaves]

theorem setLeaves_get_inner (w : Weights) (arena : Arena) {n : Slot} (inner : 65 ≤ n.val) :
    (setLeaves w arena)[n] = arena[n] := by
  simp [setLeaves, Nat.not_lt.2 inner]

/-- Every slot below 65 is a symbol's leaf (10_state.md R40). -/
theorem exists_leafSlot_eq {n : Slot} (low : n.val < 65) : ∃ k : Symbol, leafSlot k = n :=
  ⟨⟨n.val, low⟩, Fin.ext (leafSlot_val _)⟩

section
variable {a b n : Slot} (arena : Arena) (hab : a ≠ b) (han : a ≠ n) (hbn : b ≠ n)
include hab han hbn

theorem join_get_made :
    (join a b n arena)[n] = { arena[n] with nw := arena[a].nw + arena[b].nw, nl := some a, nr := some b } := by
  rw [join_get arena hab han hbn, if_pos rfl]

theorem join_get_left : (join a b n arena)[a] = { arena[a] with np := some n, ns := false } := by
  rw [join_get arena hab han hbn, if_neg han, if_neg hab, if_pos rfl]

theorem join_get_right : (join a b n arena)[b] = { arena[b] with np := some n, ns := true } := by
  rw [join_get arena hab han hbn, if_neg hbn, if_pos rfl]

theorem join_get_other {m : Slot} (hmn : m ≠ n) (hma : m ≠ a) (hmb : m ≠ b) :
    (join a b n arena)[m] = arena[m] := by
  rw [join_get arena hab han hbn, if_neg hmn, if_neg hmb, if_neg hma]

theorem weightOf_join_old {m : Slot} (hmn : m ≠ n) : weightOf (join a b n arena) m = weightOf arena m :=
  congrArg BitVec.toNat (join_sameBelow arena hab han hbn hmn).1

/-- The node made weighs what the two it joins weigh, when that fits its field. -/
theorem weightOf_join_made (fits : weightOf arena a + weightOf arena b < 2 ^ 32) :
    weightOf (join a b n arena) n = weightOf arena a + weightOf arena b := by
  rw [weightOf, join_get_made arena hab han hbn, BitVec.toNat_add]
  exact Nat.mod_eq_of_lt fits

end

/-- Settles O18: the two nodes a round joins head the sorted forest, and the sort is a stable one. -/
theorem mergeRoundJoinsTheTwoLightest : Obligations.MergeRoundJoinsTheTwoLightest := by
  refine fun w arena => ⟨⟨?_, setLeaves_get_leaf w arena, fun n => setLeaves_get_inner w arena⟩, fun k hk => ?_⟩
  · calc (symbols.map leafSlot).map (fun n => n.val)
        = (List.finRange 65).map fun k => k.val := by
          rw [symbols, List.map_map]
          exact List.map_congr_left fun k _ => leafSlot_val k
      _ = List.range 65 := List.map_coe_finRange_eq_range
  · obtain ⟨a, b, rest, sorted, round, perm, hab, -, -, han, hbn⟩ := mergeRounds_round w arena k hk
    refine ⟨a, b, mergeSlot k, rest, mergeSlot_val hk, hab, han, hbn, perm, ?ascending, fun m => ?stable, ?_⟩
    case ascending =>
      rw [← sorted]
      exact stableSortBy_pairwise _ _
    case stable =>
      rw [← sorted]
      exact stableSortBy_filter _ _ m
    rw [round]
    exact ⟨rfl, join_get_made _ hab han hbn, join_get_left _ hab han hbn, join_get_right _ hab han hbn,
      fun m => join_get_other _ hab han hbn⟩

/-! ### What the nodes weigh (10_state.md R43) -/

/-- What holds of the weights of a W whose sum fits 32 bits when k rounds have left the arena and the forest: the forest
weighs the sum of W, and no slot made so far weighs more. -/
structure RoundsWeigh (w : Weights) (k : Nat) (arena : Arena) (forest : List Slot) : Prop where
  total : (forest.map (weightOf arena)).sum = weightSum w
  bound : ∀ n : Slot, n.val < 65 + k → weightOf arena n ≤ weightSum w

theorem weightOf_setLeaves (w : Weights) (arena : Arena) (k : Symbol) :
    weightOf (setLeaves w arena) (leafSlot k) = w[k].toNat := by
  rw [weightOf, setLeaves_get_leaf]

theorem roundsWeigh_zero (w : Weights) (arena : Arena) :
    RoundsWeigh w 0 (mergeRounds w arena 0).1 (mergeRounds w arena 0).2 where
  total := by simp [mergeRounds, weightSum, Function.comp_def, weightOf_setLeaves]
  bound n low := by
    obtain ⟨k, rfl⟩ := exists_leafSlot_eq low
    exact (weightOf_setLeaves w arena k).trans_le (weight_le_weightSum w k)

/-- Joining two nodes of the forest under the next slot keeps the forest's weight: the two weigh at most the forest, so
their sum does not wrap. -/
theorem roundsWeigh_join {w : Weights} {k : Nat} {arena : Arena} {a b : Slot} {forest rest : List Slot}
    (h : RoundsWeigh w k arena forest) (fits : weightSum w < 2 ^ 32) (perm : (a :: b :: rest).Perm forest)
    (hab : a ≠ b) (han : a ≠ mergeSlot k) (hbn : b ≠ mergeSlot k) (fresh : mergeSlot k ∉ rest) (hk : k < 64) :
    RoundsWeigh w (k + 1) (join a b (mergeSlot k) arena) (rest ++ [mergeSlot k]) := by
  have old {m : Slot} (hm : m ≠ mergeSlot k) := weightOf_join_old arena hab han hbn hm
  have split : weightOf arena a + (weightOf arena b + (rest.map (weightOf arena)).sum) = weightSum w := by
    rw [← h.total, ← (perm.map _).sum_eq]
    simp
  have made := weightOf_join_made arena hab han hbn (by omega)
  constructor
  case total =>
    have kept : rest.map (weightOf (join a b (mergeSlot k) arena)) = rest.map (weightOf arena) :=
      List.map_congr_left fun m hm => old fun e => fresh (e ▸ hm)
    rw [List.map_append, List.sum_append, kept, List.map_singleton, List.sum_singleton, made]
    omega
  case bound =>
    intro n high
    by_cases hn : n = mergeSlot k
    · rw [hn, made]
      omega
    · have : n.val ≠ (mergeSlot k).val := fun e => hn (Fin.ext e)
      rw [mergeSlot_val hk] at this
      rw [old hn]
      exact h.bound n (by omega)

/-- The slot a round makes is not in the forest it begins with. -/
theorem mergeSlot_not_mem_forest (w : Weights) (arena : Arena) {k : Nat} (hk : k < 64) :
    mergeSlot k ∉ (mergeRounds w arena k).2 := by
  intro m
  have := (mergeRounds_forest w arena k (by omega)).2 _ m
  rw [mergeSlot_val hk] at this
  omega

theorem roundsWeigh {w : Weights} (fits : weightSum w < 2 ^ 32) (arena : Arena) {k : Nat} (hk : k ≤ 64) :
    RoundsWeigh w k (mergeRounds w arena k).1 (mergeRounds w arena k).2 := by
  induction k with
  | zero => exact roundsWeigh_zero w arena
  | succ k ih =>
    obtain ⟨a, b, rest, -, round, perm, hab, -, -, han, hbn⟩ := mergeRounds_round w arena k hk
    have fresh : mergeSlot k ∉ rest := fun m =>
      mergeSlot_not_mem_forest w arena hk (perm.mem_iff.1 (List.mem_cons_of_mem a (List.mem_cons_of_mem b m)))
    rw [round]
    exact roundsWeigh_join (ih (by omega)) fits perm hab han hbn fresh hk

/-- BUILD's last write leaves every weight (41_tree_builder.md R160). -/
theorem weightOf_buildArena (w : Weights) (arena : Arena) (n : Slot) :
    weightOf (buildArena w arena) n = weightOf (mergeRounds w arena 64).1 n := by
  simp only [weightOf, buildArena_get]
  split
  · next root => rw [root]
  · rfl

/-- The root of the tree weighs the sum of W, and no node weighs more (10_state.md R43). -/
theorem buildArena_weights {w : Weights} (fits : weightSum w < 2 ^ 32) (arena : Arena) :
    weightOf (buildArena w arena) rootSlot = weightSum w ∧
      ∀ n : Slot, weightOf (buildArena w arena) n ≤ weightSum w := by
  obtain ⟨total, bound⟩ := roundsWeigh fits arena le_rfl
  rw [mergeRounds_end, List.map_singleton, List.sum_singleton] at total
  simp only [weightOf_buildArena]
  exact ⟨total, fun n => bound n n.isLt⟩

/-! ### BUILD (41_tree_builder.md R160, R163, R166) -/

theorem exec_build (s : State) :
    exec .build s = command s (buildFailure s) { s with arena := buildArena s.w s.arena, tv := true } := rfl

theorem buildFailure_of_mode {s : State} (notIdle : s.mode ≠ .idle) : buildFailure s = some (eSeq 1 0x20) :=
  firstFailure_modeCheck_fail notIdle _ _

theorem buildFailure_of_idle {s : State} (idle : s.mode = .idle) :
    buildFailure s = if s.wv then none else some (eSeq 2 0x20) :=
  firstFailure_modeCheck_pass idle _ _

theorem exec_build_of_ready {s : State} (idle : s.mode = .idle) (wv : s.wv = true) :
    exec .build s = .next { s with arena := buildArena s.w s.arena, tv := true } := by
  rw [exec_build]
  exact command_of_pass (by simp [idle]) (by rw [buildFailure_of_idle idle, if_pos wv]) _

/-- Settles O17: MODE, then WV, and after the rounds the root's parent and side. -/
theorem buildWritesArenaAndTv : Obligations.BuildWritesArenaAndTv := by
  refine ⟨decode_encode_command (i := .build) (by decide), fun s => ?_⟩
  unfold Raises
  refine ⟨fun error => ?_, fun wrong => ?_, fun idle noWv => ?_, fun idle wv => ?_⟩
  · exact command_of_error error _ _
  · obtain ⟨running, notIdle⟩ : s.mode ≠ .error ∧ s.mode ≠ .idle := by
      rcases wrong with mode | mode | mode <;> simp [mode]
    exact command_of_failure running (buildFailure_of_mode notIdle) _
  · have fails : buildFailure s = some (eSeq 2 0x20) := by rw [buildFailure_of_idle idle, if_neg (by simp [noWv])]
    exact command_of_failure (by simp [idle]) fails _
  · refine ⟨exec_build_of_ready idle wv, ?_, fun n hn => ?_⟩
    · rw [buildArena_get, if_pos rfl]
    · rw [buildArena_get, if_neg hn]

/-- Settles O20: the arena is BUILD's of W already, and BUILD's arena does not depend on the one before. -/
theorem rebuildGivesTheSameArena : Obligations.RebuildGivesTheSameArena := by
  intro s idle wv tv tree
  have same : buildArena s.w s.arena = s.arena := (buildArena_irrelevant _ _ _).trans (tree.built tv).symm
  rw [exec_build_of_ready idle wv, same, ← tv]

/-- Settles O19: a strict tree after the rounds, whose weights do not wrap since their sum is NSYM. -/
theorem buildMakesAStrictTree : Obligations.BuildMakesAStrictTree := by
  intro s idle wv
  refine ⟨_, exec_build_of_ready idle wv, mergeRounds_end _ _, buildArena_isHuffmanTree _ _, fun count => ?_⟩
  have count : s.nsym.toNat = weightSum s.w := count
  obtain ⟨root, bound⟩ := buildArena_weights (count ▸ s.nsym.isLt) s.arena
  rw [← count] at root bound
  exact ⟨BitVec.eq_of_toNat_eq root, bound⟩

end Sys2Proof.Machine

/-! PROOFS. GENCODE: its checks, its totals, and the bytes it writes. -/

namespace Sys2Proof.Machine

/-! ### The command (42_code_generator.md R180, R182) -/

theorem exec_gencode (s : State) : exec .gencode s = command s (gencodeFailure s) (generate s) := rfl

/-- A failing check of MODE or TV is the failure found: the lengths are checked last. -/
theorem gencodeFailure_of_check {s : State} {e : HceError}
    (fails : firstFailure [modeCheck s .idle 0x30, ⟨s.tv, eSeq 3 0x30⟩] = some e) : gencodeFailure s = some e := by
  rw [gencodeFailure, fails]

theorem gencodeFailure_of_mode {s : State} (notIdle : s.mode ≠ .idle) : gencodeFailure s = some (eSeq 1 0x30) :=
  gencodeFailure_of_check (firstFailure_modeCheck_fail notIdle _ _)

theorem gencodeFailure_of_noTree {s : State} (idle : s.mode = .idle) (noTv : s.tv = false) :
    gencodeFailure s = some (eSeq 3 0x30) :=
  gencodeFailure_of_check (by rw [firstFailure_modeCheck_pass idle, firstFailure_cons, if_neg (by simp [noTv])])

/-- With MODE and TV right, what is left is the check of the lengths. -/
theorem gencodeFailure_of_tree {s : State} (idle : s.mode = .idle) (tv : s.tv = true) :
    gencodeFailure s = (firstTooLong s.arena).map eCodeTooLong := by
  have pass : firstFailure [modeCheck s .idle 0x30, ⟨s.tv, eSeq 3 0x30⟩] = none := by
    rw [firstFailure_modeCheck_pass idle, firstFailure_cons, if_pos tv, firstFailure_nil]
  rw [gencodeFailure, pass]

/-- The first too long code, in symbol order (42_code_generator.md R182). -/
theorem firstTooLong_eq_some {arena : Arena} {k : Symbol} (long : 64 < codeLength arena k)
    (first : ∀ j < k, codeLength arena j ≤ 64) : firstTooLong arena = some k := by
  refine List.find?_eq_some_iff_getElem.2 ⟨decide_eq_true long, k.val, by simp [symbols], ?_, ?_⟩
  · simp [symbols]
  · intro j hj
    have short := first ⟨j, by omega⟩ hj
    simpa [symbols, Config.maxCodeLen] using short

/-- The word of E_CODETOOLONG (60_exceptions.md R304). -/
theorem eCodeTooLong_word (k : Symbol) : errWord (eCodeTooLong k).code (eCodeTooLong k).sub (eCodeTooLong k).arg =
    0x00000008 ||| BitVec.ofNat 32 k.val <<< 16 := by
  simp [errWord, eCodeTooLong, setWidth_symbol]

/-- What GENCODE writes, and nothing else. -/
theorem generate_frame (s : State) :
    generate s = { s with cb := codebookOf s.arena, totalbits := (generate s).totalbits, pad := (generate s).pad,
                          cbuf := (generate s).cbuf, cv := true, ce := true } := by
  simp only [generate]

theorem exec_gencode_of_ready {s : State} (idle : s.mode = .idle) (tv : s.tv = true)
    (short : ∀ k : Symbol, codeLength s.arena k ≤ 64) : exec .gencode s = .next (generate s) := by
  rw [exec_gencode]
  refine command_of_pass (by simp [idle]) ?_ _
  rw [gencodeFailure_of_tree idle tv, firstTooLong_eq_none.2 short, Option.map_none]

/-- Settles O21: MODE, then TV, then the first code that is too long. -/
theorem gencodeWritesCodebookAndTotals : Obligations.GencodeWritesCodebookAndTotals := by
  refine ⟨decode_encode_command (i := .gencode) (by decide), fun s => ?_⟩
  unfold Raises
  refine ⟨fun error => ?_, fun wrong => ?_, fun idle noTv => ?_, fun idle tv k long first => ?_,
    fun idle tv short => ?_⟩
  · exact command_of_error error _ _
  · obtain ⟨running, notIdle⟩ : s.mode ≠ .error ∧ s.mode ≠ .idle := by
      rcases wrong with mode | mode | mode <;> simp [mode]
    exact command_of_failure running (gencodeFailure_of_mode notIdle) _
  · exact command_of_failure (by simp [idle]) (gencodeFailure_of_noTree idle noTv) _
  · have fails : gencodeFailure s = some (eCodeTooLong k) := by
      rw [gencodeFailure_of_tree idle tv, firstTooLong_eq_some long first, Option.map_some]
    rw [← eCodeTooLong_word]
    exact command_of_failure (by simp [idle]) fails _
  · exact ⟨generate s, exec_gencode_of_ready idle tv short, generate_frame s⟩

/-! ### TOTALBITS and PAD (42_code_generator.md R183, R184) -/

@[simp] theorem generate_cb (s : State) : (generate s).cb = codebookOf s.arena := rfl

@[simp] theorem generate_mode (s : State) : (generate s).mode = s.mode := rfl

@[simp] theorem generate_arena (s : State) : (generate s).arena = s.arena := rfl

theorem generate_totalbits (s : State) :
    (generate s).totalbits = BitVec.ofNat 38 (payloadBits s.w s.arena) := rfl

theorem generate_pad (s : State) : (generate s).pad = padOf (generate s).totalbits := by simp only [generate]

/-- Each counted symbol packs to at most 64 bits (42_code_generator.md R183). -/
theorem payloadBits_le (w : Weights) {arena : Arena} (short : ∀ k : Symbol, codeLength arena k ≤ 64) :
    payloadBits w arena ≤ weightSum w * 64 := by
  rw [payloadBits, weightSum, ← List.sum_map_mul_right]
  exact List.sum_le_sum fun k _ => Nat.mul_le_mul_left w[k].toNat (short k)

theorem payloadBits_eq_codebook_sum (w : Weights) {arena : Arena} (short : ∀ k : Symbol, codeLength arena k ≤ 64) :
    payloadBits w arena = (symbols.map fun k => w[k].toNat * (codebookOf arena)[k].len.toNat).sum :=
  congrArg List.sum (List.map_congr_left fun k _ => by rw [codebookOf_len (short k)])

theorem padOf_toNat (totalbits : BitVec 38) : (padOf totalbits).toNat = (8 - totalbits.toNat % 8) % 8 := by
  simp [padOf]

/-- TOTALBITS is not truncated: the counts sum to NSYM, which has 32 bits. -/
theorem generate_totalbits_toNat {s : State} (short : ∀ k : Symbol, codeLength s.arena k ≤ 64) (count : CountAgrees s) :
    (generate s).totalbits.toNat = payloadBits s.w s.arena := by
  have bound := payloadBits_le s.w short
  have sum : s.nsym.toNat = weightSum s.w := count
  have fits := s.nsym.isLt
  rw [generate_totalbits, BitVec.toNat_ofNat]
  exact Nat.mod_eq_of_lt (by omega)

/-- Settles O24: the sum is below 64 * 2^32, so it fits 38 bits. -/
theorem gencodeTotalsAndPadding : Obligations.GencodeTotalsAndPadding := by
  intro s idle tv short count
  have pad : (generate s).pad.toNat = (8 - (generate s).totalbits.toNat % 8) % 8 := by
    rw [generate_pad, padOf_toNat]
  refine ⟨generate s, exec_gencode_of_ready idle tv short, ?_, pad, by omega⟩
  rw [generate_totalbits_toNat short count, generate_cb]
  exact payloadBits_eq_codebook_sum s.w short

/-! ### CBUF (42_code_generator.md R186, 30_encoding.md R107, R108) -/

/-- Where parts of one length c stand after another, part i begins at c * i. -/
theorem getElem?_flatMap_of_length {α β : Type} {f : α → List β} {c : Nat} (len : ∀ x, (f x).length = c) {l : List α}
    {i j : Nat} (hi : i < l.length) (hj : j < c) : (l.flatMap f)[c * i + j]? = (f l[i])[j]? := by
  induction l generalizing i with
  | nil => simp at hi
  | cons x xs ih =>
    rw [List.flatMap_cons]
    cases i with
    | zero => rw [Nat.mul_zero, Nat.zero_add, List.getElem?_append_left (by rwa [len]), List.getElem_cons_zero]
    | succ i =>
      have e : c * (i + 1) + j - (f x).length = c * i + j := by rw [len, Nat.mul_succ]; omega
      rw [List.getElem?_append_right (by rw [len, Nat.mul_succ]; omega), e, ih (by simpa using hi),
        List.getElem_cons_succ]

theorem recordBytes_length (k : Symbol) (c : Code) : (recordBytes k c).length = 10 := by simp [recordBytes]

/-- Byte i of record k among the 651 bytes. -/
theorem codebookBytes_record (pad : BitVec 3) (cb : Codebook) (k : Symbol) {i : Nat} (hi : i < 10) :
    (codebookBytes pad cb)[1 + 10 * k.val + i]? = (recordBytes k cb[k])[i]? := by
  have part := getElem?_flatMap_of_length (f := fun k => recordBytes k cb[k]) (fun k => recordBytes_length k _)
    (l := symbols) (i := k.val) (by simp [symbols]) hi
  rw [show 1 + 10 * k.val + i = 10 * k.val + i + 1 by omega, codebookBytes, List.getElem?_cons_succ, part]
  simp [symbols]

/-- A byte of header and records is read back from the CBUF GENCODE leaves. -/
theorem read_generate {s : State} (wf : Memory.wf s.cbuf = true) {a : Nat} {b : Byte}
    (byte : (codebookBytes (generate s).pad (generate s).cb)[a]? = some b) : Memory.read (generate s).cbuf a = b := by
  obtain ⟨inside, rfl⟩ := List.getElem?_eq_some_iff.1 byte
  rw [generate_cbuf]
  simpa using Memory.read_writeFrom_inside wf 0 a _ inside

theorem read_generate_record {s : State} (wf : Memory.wf s.cbuf = true) (k : Symbol) {i : Nat} (hi : i < 10) {b : Byte}
    (byte : (recordBytes k (generate s).cb[k])[i]? = some b) : Memory.read (generate s).cbuf (1 + 10 * k.val + i) = b :=
  read_generate wf ((codebookBytes_record _ _ k hi).trans byte)

/-- Settles O25: header and records are written one after another from index 0. -/
theorem gencodeSerializesTheCodebook : Obligations.GencodeSerializesTheCodebook := by
  intro s idle tv short wf
  refine ⟨generate s, exec_gencode_of_ready idle tv short, read_generate wf rfl, fun k => ⟨?sym, ?len, ?val⟩, ?_, ?_⟩
  case sym => exact read_generate_record wf k (i := 0) (by omega) rfl
  case len =>
    rw [show 2 + 10 * k.val = 1 + 10 * k.val + 1 by omega]
    exact read_generate_record wf k (by omega) rfl
  case val =>
    intro j hj
    rw [show 3 + 10 * k.val + j = 1 + 10 * k.val + (j + 2) by omega]
    exact read_generate_record wf k (by omega) (by simp [recordBytes, hj])
  · intro a beyond
    rw [generate_cbuf]
    exact Memory.read_writeFrom_outside _ _ _ _ (by rw [codebookBytes_length]; omega)
  · rw [generate_cbuf]
    exact Memory.wf_writeFrom wf _ _

end Sys2Proof.Machine

/-! PROOFS. The codes of a tree: paths from the root, complete and with a Kraft sum of 1. -/

namespace Sys2Proof.Machine

/-! ### Paths from the root (42_code_generator.md R181) -/

/-- The sides from the root down to a slot: for a leaf, the code bits of its symbol. -/
def pathDown (arena : Arena) (n : Slot) : List Bool := (pathUp arena Config.nNodes n).reverse

theorem codeBits_eq_pathDown (arena : Arena) (k : Symbol) : codeBits arena k = pathDown arena (leafSlot k) := rfl

section
variable {w : Weights} {arena : Arena} (tree : IsHuffmanTree w arena)
include tree

theorem pathDown_root : pathDown arena rootSlot = [] := by
  rw [pathDown, Config.nNodes, pathUp, tree.root.1, List.reverse_nil]

/-- Fuel beyond the slots above n changes nothing: parents have larger numbers. -/
theorem pathUp_succ {fuel : Nat} {n : Slot} (enough : 129 ≤ fuel + n.val) :
    pathUp arena (fuel + 1) n = pathUp arena fuel n := by
  induction fuel generalizing n with
  | zero => omega
  | succ fuel ih =>
    by_cases hn : n = rootSlot
    · rw [hn, pathUp, pathUp, tree.root.1]
    · obtain ⟨p, hnp, -, np, -⟩ := tree.parent n hn
      rw [Fin.lt_def] at hnp
      rw [pathUp, pathUp, np]
      simp only [ih (n := p) (by omega)]

/-- The path to a child is its parent's path and the child's side. -/
theorem pathDown_child {n p : Slot} {side : Bool} (np : arena[n].np = some p) (ns : arena[n].ns = side) :
    pathDown arena n = pathDown arena p ++ [side] := by
  have up : pathUp arena Config.nNodes n = side :: pathUp arena 128 p := by rw [Config.nNodes, pathUp, np, ns]
  have hn : n ≠ rootSlot := fun e => by rw [e, tree.root.1] at np; cases np
  obtain ⟨p', -, low, np', -⟩ := tree.parent n hn
  obtain rfl : p' = p := Option.some.inj (np'.symm.trans np)
  rw [pathDown, up, List.reverse_cons, ← pathUp_succ tree (by omega)]
  rfl

/-- An internal node is at most 63 steps below the root. -/
theorem pathDown_length_lt {p : Slot} (inner : 65 ≤ p.val) : (pathDown arena p).length < 64 := by
  have := pathUp_length_le tree (fuel := Config.nNodes) inner
  rw [pathDown, List.length_reverse]
  omega

/-! ### Every bit string begins a code or has one at its beginning (42_code_generator.md R185 b) -/

/-- Bits walked on from any slot meet a code: they end inside one, or pass its leaf. -/
theorem pathDown_append_meets_code (n : Slot) (bits : List Bool) :
    ∃ k : Symbol, pathDown arena n ++ bits <+: codeBits arena k ∨ codeBits arena k <+: pathDown arena n ++ bits := by
  induction n using WellFoundedLT.induction generalizing bits with
  | ind n ih =>
    by_cases low : n.val < 65
    · obtain ⟨k, rfl⟩ := exists_leafSlot_eq low
      rw [← codeBits_eq_pathDown]
      exact ⟨k, .inr (List.prefix_append _ _)⟩
    · obtain ⟨l, r, -, hl, hr, -, npl, nsl, -, npr, nsr, -⟩ := tree.node n (by omega)
      have below (b : Bool) (bs : List Bool) : ∃ k : Symbol, pathDown arena n ++ b :: bs <+: codeBits arena k ∨
          codeBits arena k <+: pathDown arena n ++ b :: bs := by
        cases b with
        | false => simpa [pathDown_child tree npl nsl] using ih l hl bs
        | true => simpa [pathDown_child tree npr nsr] using ih r hr bs
      cases bits with
      | cons b bs => exact below b bs
      | nil =>
        have shorter : pathDown arena n ++ [] <+: pathDown arena n ++ [false] :=
          (List.prefix_append_right_inj _).2 List.nil_prefix
        obtain ⟨k, inside | past⟩ := below false []
        · exact ⟨k, .inl (shorter.trans inside)⟩
        · exact ⟨k, List.prefix_or_prefix_of_prefix shorter past⟩

theorem bits_meet_code (bits : List Bool) :
    ∃ k : Symbol, bits <+: codeBits arena k ∨ codeBits arena k <+: bits := by
  simpa [pathDown_root tree] using pathDown_append_meets_code tree rootSlot bits

end

/-! ### The sum of 2^(-L) (42_code_generator.md R185 b) -/

/-- What a slot has of the 2^64 of the root: half of its parent's share. -/
def share (arena : Arena) (n : Slot) : Nat := 2 ^ (64 - (pathDown arena n).length)

/-- The parent of a slot; the root for the root. -/
def parentSlot (arena : Arena) (n : Slot) : Slot := arena[n].np.getD rootSlot

theorem parentSlot_eq {arena : Arena} {n p : Slot} (np : arena[n].np = some p) : parentSlot arena n = p := by
  rw [parentSlot, np, Option.getD_some]

/-- The internal nodes of the arena (10_state.md R40). -/
def innerSlots : Finset Slot := Finset.univ.filter fun n => 65 ≤ n.val

theorem mem_innerSlots {n : Slot} : n ∈ innerSlots ↔ 65 ≤ n.val := by simp [innerSlots]

/-- A sum over all slots is one over the leaves and one over the internal nodes. -/
theorem sum_slots_eq (f : Slot → Nat) :
    ∑ n : Slot, f n = ∑ k : Symbol, f (leafSlot k) + ∑ n ∈ innerSlots, f n := by
  have leaves : ∑ n : Slot with ¬ 65 ≤ n.val, f n = ∑ k : Symbol, f (leafSlot k) := by
    symm
    refine Finset.sum_nbij leafSlot ?_ ?_ ?_ fun _ _ => rfl
    · intro k _
      simp
    · intro i _ j _ same
      simpa [Fin.ext_iff] using same
    · intro n hn
      obtain ⟨k, rfl⟩ := exists_leafSlot_eq (n := n) (by simpa using hn)
      exact ⟨k, by simp⟩
  rw [← leaves, add_comm, innerSlots, Finset.sum_filter_add_sum_filter_not]

section
variable {w : Weights} {arena : Arena} (tree : IsHuffmanTree w arena)
include tree

theorem share_root : share arena rootSlot = 2 ^ 64 := by
  rw [share, pathDown_root tree, List.length_nil, Nat.sub_zero]

theorem share_child {n p : Slot} (inner : 65 ≤ p.val) (np : arena[n].np = some p) :
    share arena p = 2 * share arena n := by
  have short := pathDown_length_lt tree inner
  rw [share, share, pathDown_child tree np rfl, List.length_append, List.length_singleton, ← Nat.pow_succ']
  congr 1
  omega

/-- The slots below an internal node are its two children. -/
theorem exists_children {p : Slot} (inner : 65 ≤ p.val) :
    ∃ l r : Slot, l ≠ r ∧ arena[l].np = some p ∧ arena[r].np = some p ∧
      (Finset.univ.erase rootSlot).filter (fun n => parentSlot arena n = p) = {l, r} := by
  obtain ⟨l, r, hlr, -, -, nl, npl, -, nr, npr, -, -⟩ := tree.node p inner
  have notRoot {n : Slot} (np : arena[n].np = some p) : n ≠ rootSlot := fun e => by
    rw [e, tree.root.1] at np; cases np
  refine ⟨l, r, hlr, npl, npr, Finset.ext fun n => ?_⟩
  rw [Finset.mem_filter, Finset.mem_erase, Finset.mem_insert, Finset.mem_singleton]
  constructor
  · rintro ⟨⟨hn, -⟩, up⟩
    obtain ⟨q, -, -, np, child⟩ := tree.parent n hn
    obtain rfl : q = p := (parentSlot_eq np).symm.trans up
    rw [nl, nr] at child
    split at child
    · exact .inr (Option.some.inj child).symm
    · exact .inl (Option.some.inj child).symm
  · rintro (rfl | rfl)
    · exact ⟨⟨notRoot npl, Finset.mem_univ _⟩, parentSlot_eq npl⟩
    · exact ⟨⟨notRoot npr, Finset.mem_univ _⟩, parentSlot_eq npr⟩

/-- Every slot but the root is one of the two children of an internal node, so together these slots have the shares of
the internal nodes. -/
theorem sum_share_below_root :
    ∑ n ∈ Finset.univ.erase rootSlot, share arena n = ∑ p ∈ innerSlots, share arena p := by
  have up : ∀ n ∈ Finset.univ.erase rootSlot, parentSlot arena n ∈ innerSlots := by
    intro n hn
    obtain ⟨p, -, low, np, -⟩ := tree.parent n (Finset.ne_of_mem_erase hn)
    rwa [mem_innerSlots, parentSlot_eq np]
  rw [← Finset.sum_fiberwise_of_maps_to up]
  refine Finset.sum_congr rfl fun p hp => ?_
  have inner := mem_innerSlots.1 hp
  obtain ⟨l, r, hlr, npl, npr, children⟩ := exists_children tree inner
  have left := share_child tree inner npl
  have right := share_child tree inner npr
  rw [children, Finset.sum_pair hlr]
  omega

/-- The leaves share the root's 2^64. -/
theorem sum_share_leaves : ∑ k : Symbol, share arena (leafSlot k) = 2 ^ 64 := by
  have all := sum_slots_eq (share arena)
  rw [← Finset.add_sum_erase _ _ (Finset.mem_univ rootSlot), share_root tree, sum_share_below_root tree] at all
  omega

theorem codebookOf_kraft : (codebookOf arena).kraft = 2 ^ 64 := by
  rw [← sum_share_leaves tree, Codebook.kraft, symbols, ← Fin.sum_univ_def]
  refine Finset.sum_congr rfl fun k _ => ?_
  rw [codebookOf_len (codeLength_bounds tree k).2, codeLength, codeBits_eq_pathDown, share]

end

/-! ### GENCODE of a built tree (42_code_generator.md R181, R185) -/

/-- With the tree of W, GENCODE succeeds (42_code_generator.md R182). -/
theorem exec_gencode_of_isHuffmanTree {w : Weights} {s : State} (tree : IsHuffmanTree w s.arena) (idle : s.mode = .idle)
    (tv : s.tv = true) : exec .gencode s = .next (generate s) :=
  exec_gencode_of_ready idle tv fun k => (codeLength_bounds tree k).2

/-- Settles O22: the codes are the paths to the leaves of a strict tree. -/
theorem gencodeCodebookIsPrefixFreeAndComplete : Obligations.GencodeCodebookIsPrefixFreeAndComplete := by
  intro s idle tv built
  have tree : IsHuffmanTree s.w s.arena := built ▸ buildArena_isHuffmanTree s.w clearedArena
  obtain ⟨range, free⟩ := codebookOf_valid tree
  refine ⟨generate s, exec_gencode_of_isHuffmanTree tree idle tv, (generate_mode s).trans idle, range, free,
    codebookOf_kraft tree, fun bits => ?_⟩
  obtain ⟨k, meets⟩ := bits_meet_code tree bits
  exact ⟨k, by rwa [generate_cb, codebookOf_bits (codeLength_bounds tree k).2]⟩

/-- Settles O23: the code bits are the sides from the root to the leaf. -/
theorem codeLeadsFromRootToLeaf : Obligations.CodeLeadsFromRootToLeaf := by
  intro s idle tv built
  have tree : IsHuffmanTree s.w s.arena := built ▸ buildArena_isHuffmanTree s.w clearedArena
  refine ⟨generate s, exec_gencode_of_isHuffmanTree tree idle tv, fun k => ?_⟩
  obtain ⟨pos, short⟩ := codeLength_bounds tree k
  rw [generate_arena, generate_cb, codebookOf_bits short, codebookOf_len short, codebookOf_val short]
  exact ⟨descends_codeBits tree k, rfl, pos, rfl⟩

end Sys2Proof.Machine

/-! PROOFS. The packer: its checks, the bits it appends, and the payload it delivers. -/

namespace Sys2Proof.Machine

/-! ### The check of space (10_state.md R30) -/

theorem firstFailure_spaceCheck_pass {s : State} (space : s.ofifo.length ≤ 8) (arg : BitVec 16) (cs : List Check) :
    firstFailure (spaceCheck s arg :: cs) = firstFailure cs := by
  simp [firstFailure_cons, spaceCheck, inReady_iff, space]

theorem firstFailure_spaceCheck_fail {s : State} (full : 8 < s.ofifo.length) (arg : BitVec 16) (cs : List Check) :
    firstFailure (spaceCheck s arg :: cs) = some (eOverrun arg) := by
  have noSpace : ¬ s.inReady = true := by rw [inReady_iff]; omega
  simp [firstFailure_cons, spaceCheck, noSpace]

/-! ### PACK_BEGIN (43_pack.md R200) -/

/-- The state PACK_BEGIN leaves: OFIFO and the pack counters emptied, MODE PACK. -/
def packBegun (s : State) : State :=
  { s with ofifo := [], acc := 0, accn := 0, bitcnt := 0, pnsym := 0, dincnt := 0, ocnt := 0, mode := .pack }

theorem exec_packBegin (s : State) : exec .packBegin s = command s (packBeginFailure s) (packBegun s) := rfl

theorem packBeginFailure_of_mode {s : State} (notIdle : s.mode ≠ .idle) : packBeginFailure s = some (eSeq 1 0x40) :=
  firstFailure_modeCheck_fail notIdle _ _

/-- In IDLE, CV is checked before CE. -/
theorem packBeginFailure_of_idle {s : State} (idle : s.mode = .idle) :
    packBeginFailure s = if s.cv then (if s.ce then none else some (eSeq 5 0x40)) else some (eSeq 4 0x40) :=
  firstFailure_modeCheck_pass idle _ _

theorem exec_packBegin_of_ready {s : State} (idle : s.mode = .idle) (cv : s.cv = true) (ce : s.ce = true) :
    exec .packBegin s = .next (packBegun s) := by
  rw [exec_packBegin]
  exact command_of_pass (by simp [idle]) (by rw [packBeginFailure_of_idle idle, if_pos cv, if_pos ce]) _

/-- Settles O27: MODE, then CV, then CE. -/
theorem packBeginStartsAnEmptyPayload : Obligations.PackBeginStartsAnEmptyPayload := by
  refine ⟨decode_encode_command (i := .packBegin) (by decide), fun s => ?_⟩
  unfold Raises
  refine ⟨fun error => ?_, fun wrong => ?_, fun idle noCv => ?_, fun idle cv noCe => ?_, exec_packBegin_of_ready⟩
  · exact command_of_error error _ _
  · obtain ⟨running, notIdle⟩ : s.mode ≠ .error ∧ s.mode ≠ .idle := by
      rcases wrong with mode | mode | mode <;> simp [mode]
    exact command_of_failure running (packBeginFailure_of_mode notIdle) _
  · have fails : packBeginFailure s = some (eSeq 4 0x40) := by
      rw [packBeginFailure_of_idle idle, if_neg (by simp [noCv])]
    exact command_of_failure (by simp [idle]) fails _
  · have fails : packBeginFailure s = some (eSeq 5 0x40) := by
      rw [packBeginFailure_of_idle idle, if_pos cv, if_neg (by simp [noCe])]
    exact command_of_failure (by simp [idle]) fails _

/-! ### The bits held, and bits appended to them (43_pack.md R201) -/

/-- The payload bits held: those of OFIFO's bytes, then those of ACC. -/
def State.heldPayload (s : State) : List Bool := s.fifoBits ++ s.accBits

/-- The payload bits held grow by `bits`, ACC stays below a byte, and OCNT counts the bytes that go to OFIFO. -/
structure Appends (bits : List Bool) (s t : State) : Prop where
  payload : t.heldPayload = s.heldPayload ++ bits
  accn : t.accn.toNat < 8
  pushed : ∃ pushed, t.ofifo = s.ofifo ++ pushed ∧ t.ocnt = s.ocnt + BitVec.ofNat 32 pushed.length

theorem Appends.nil {s : State} (accn : s.accn.toNat < 8) : Appends [] s s :=
  ⟨by simp, accn, [], by simp⟩

theorem Appends.trans {xs ys : List Bool} {s t u : State} (h : Appends xs s t) (h' : Appends ys t u) :
    Appends (xs ++ ys) s u := by
  obtain ⟨p, ofifo, ocnt⟩ := h.pushed
  obtain ⟨p', ofifo', ocnt'⟩ := h'.pushed
  refine ⟨by rw [h'.payload, h.payload, List.append_assoc], h'.accn, p ++ p', ?_, ?_⟩
  · rw [ofifo', ofifo, List.append_assoc]
  · rw [ocnt', ocnt, List.length_append, BitVec.ofNat_add, BitVec.add_assoc]

/-- The n low bits of a byte, the most significant of them first. -/
def lowBits (b : Byte) (n : Nat) : List Bool := (List.range n).map fun i => b.getLsbD (n - 1 - i)

theorem accBits_eq_lowBits (s : State) : s.accBits = lowBits s.acc s.accn.toNat := rfl

theorem firstBits_eq_lowBits (b : Byte) : firstBits b 8 = lowBits b 8 := rfl

@[simp] theorem lowBits_zero (b : Byte) : lowBits b 0 = [] := rfl

@[simp] theorem lowBits_length (b : Byte) (n : Nat) : (lowBits b n).length = n := by simp [lowBits]

/-- A bit shifted in becomes the last of the low bits. -/
theorem lowBits_shiftIn (acc : Byte) (b : Bool) {n : Nat} (room : n < 8) :
    lowBits (acc <<< 1 ||| (BitVec.ofBool b).setWidth 8) (n + 1) = lowBits acc n ++ [b] := by
  rw [lowBits, List.range_succ, List.map_append, lowBits]
  congr 1
  · refine List.map_congr_left fun i hi => ?_
    have low : i < n := List.mem_range.1 hi
    have inByte : n - i < 8 := by omega
    have above : n - i ≠ 0 := by omega
    have place : n - i - 1 = n - 1 - i := by omega
    rw [Nat.add_sub_cancel, BitVec.getLsbD_or, BitVec.getLsbD_shiftLeft, BitVec.getLsbD_setWidth, BitVec.getLsbD_ofBool,
      place]
    simp [inByte, above]
  · simp

/-- The low bits moved to the top of the byte, and zeros after them. -/
theorem lowBits_shiftLeft (acc : Byte) {n : Nat} (below : n < 8) :
    lowBits (acc <<< (8 - n)) 8 = lowBits acc n ++ List.replicate (8 - n) false := by
  refine List.ext_getElem (by simp; omega) fun i inByte _ => ?_
  rw [lowBits_length] at inByte
  by_cases taken : i < n
  · have place : 7 - i - (8 - n) = n - 1 - i := by omega
    have shifted : ¬ 7 - i < 8 - n := by omega
    have top : 7 - i < 8 := by omega
    simp [lowBits, taken, place, shifted, top]
  · have shifted : 7 - i < 8 - n := by omega
    simp [lowBits, List.getElem_append, taken, shifted]

theorem accn_succ_toNat {s : State} (accn : s.accn.toNat < 8) : (s.accn + 1).toNat = s.accn.toNat + 1 := by
  bv_omega

theorem appendBit_appends (b : Bool) {s : State} (accn : s.accn.toNat < 8) : Appends [b] s (appendBit b s) := by
  have succ := accn_succ_toNat accn
  have shifted := lowBits_shiftIn s.acc b accn
  rcases appendBit_cases b s with ⟨full, h⟩ | ⟨room, h⟩ <;> rw [h]
  · have seven : s.accn.toNat = 7 := by bv_omega
    refine ⟨?_, (by decide : (0 : BitVec 4).toNat < 8), [_], rfl, rfl⟩
    rw [seven] at shifted
    simp [State.heldPayload, State.fifoBits, accBits_eq_lowBits, firstBits_eq_lowBits, shifted, seven]
  · have below : (s.accn + 1).toNat < 8 := by bv_omega
    refine ⟨?_, below, [], by simp, by simp⟩
    simp only [State.heldPayload, State.fifoBits, accBits_eq_lowBits, succ, shifted, List.append_assoc]

theorem appendBits_appends (bits : List Bool) {s : State} (accn : s.accn.toNat < 8) :
    Appends bits s (appendBits bits s) := by
  induction bits generalizing s with
  | nil => exact .nil accn
  | cons b bits ih =>
    have one := appendBit_appends b accn
    exact one.trans (ih one.accn)

theorem flatMap_firstBits_length (bytes : List Byte) :
    (bytes.flatMap fun b => firstBits b 8).length = 8 * bytes.length := by
  simp [firstBits_eq_lowBits, List.length_flatMap, Nat.mul_comm]

theorem heldPayload_length (s : State) : s.heldPayload.length = 8 * s.ofifo.length + s.accn.toNat := by
  rw [State.heldPayload, List.length_append, State.fifoBits, flatMap_firstBits_length, accBits_eq_lowBits,
    lowBits_length]

/-- At most 64 bits complete at most 8 bytes (43_pack.md R204). -/
theorem Appends.level {bits : List Bool} {s t : State} (h : Appends bits s t) (accn : s.accn.toNat < 8)
    (short : bits.length ≤ 64) : t.ofifo.length ≤ s.ofifo.length + 8 := by
  have grown := congrArg List.length h.payload
  rw [List.length_append, heldPayload_length, heldPayload_length] at grown
  omega

/-! ### PACK_PUT (43_pack.md R203) -/

theorem appendBits_frame (bits : List Bool) (s : State) :
    appendBits bits s = { s with ofifo := (appendBits bits s).ofifo, ocnt := (appendBits bits s).ocnt,
                                 acc := (appendBits bits s).acc, accn := (appendBits bits s).accn } := by
  induction bits generalizing s with
  | nil => rfl
  | cons b bits ih =>
    rw [appendBits_cons]
    rcases appendBit_cases b s with ⟨-, h⟩ | ⟨-, h⟩ <;> rw [h] <;> exact ih _

/-- What packing a symbol writes, and nothing else. -/
theorem packOne_frame (k : Symbol) (s : State) :
    packOne k s = { s with ofifo := (packOne k s).ofifo, ocnt := (packOne k s).ocnt, acc := (packOne k s).acc,
                           accn := (packOne k s).accn, bitcnt := s.bitcnt + s.cb[k].len.setWidth 64,
                           pnsym := s.pnsym + 1, dincnt := s.dincnt + 1 } := by
  have frame := appendBits_frame s.cb[k].bits s
  simp only [packOne, State.countDin]
  rw [frame]

@[simp] theorem packOne_cb (k : Symbol) (s : State) : (packOne k s).cb = s.cb := by rw [packOne_frame]

@[simp] theorem packOne_err (k : Symbol) (s : State) : (packOne k s).err = s.err := by rw [packOne_frame]

theorem packOne_appends (k : Symbol) {s : State} (accn : s.accn.toNat < 8) :
    Appends s.cb[k].bits s (packOne k s) := by
  obtain ⟨payload, below, pushed⟩ := appendBits_appends s.cb[k].bits accn
  exact ⟨payload, below, pushed⟩

theorem exec_packPut_of_pack {s : State} (pack : s.mode = .pack) (v : Word) :
    exec (.packPut v) s = .next (packByte (lowByte v) s) := if_pos pack

theorem packByte_of_full {s : State} (full : 8 < s.ofifo.length) (c : Byte) :
    packByte c s = raise (eOverrun 0x0100) s := by
  rw [packByte, firstFailure_spaceCheck_fail full]

theorem packByte_of_invalid {c : Byte} {s : State} (space : s.ofifo.length ≤ 8) (invalid : idx c = none) :
    packByte c s = raise (eBadSym c) s := by
  simp only [packByte, firstFailure_spaceCheck_pass space, firstFailure_nil, invalid]

/-- With space and a symbol, what is left is the check of PNSYM. -/
theorem packByte_of_symbol {c : Byte} {k : Symbol} {s : State} (space : s.ofifo.length ≤ 8)
    (symbol : idx c = some k) :
    packByte c s =
      if s.pnsym.toNat < s.nsym.toNat then packOne k s else raise (eMismatch 1 (BitVec.ofNat 16 k.val)) s := by
  simp only [packByte, firstFailure_spaceCheck_pass space, firstFailure_nil, symbol]
  by_cases room : s.pnsym.toNat < s.nsym.toNat <;> simp [firstFailure_cons, room]

/-- The word of E_MISMATCH sub 1 (60_exceptions.md R297). -/
theorem eMismatch_symbol_word (k : Symbol) :
    errWord (eMismatch 1 (BitVec.ofNat 16 k.val)).code (eMismatch 1 (BitVec.ofNat 16 k.val)).sub
      (eMismatch 1 (BitVec.ofNat 16 k.val)).arg = 0x00000107 ||| BitVec.ofNat 32 k.val <<< 16 := by
  simp [errWord, eMismatch, setWidth_symbol]

/-- Settles O28: space, the alphabet and the count are checked in turn, and then the code's bits are appended. -/
theorem packPutAppendsTheCode : Obligations.PackPutAppendsTheCode := by
  refine ⟨decodeWrite_din rfl .pack, fun s v pack => ?_⟩
  have running : s.mode ≠ .error := by simp [pack]
  have put : exec (.packPut v) s = .next (packByte (v.extractLsb' 0 8) s) := exec_packPut_of_pack pack v
  unfold Raises
  rw [put]
  refine ⟨fun full => ?_, fun space invalid => ?_, fun k space symbol => ⟨fun all => ?_, fun room accn => ?_⟩⟩
  · rw [packByte_of_full full, raise_of_running _ running]
    rfl
  · rw [packByte_of_invalid space invalid, raise_of_running _ running, eBadSym_word]
  · rw [packByte_of_symbol space symbol, if_neg (by omega), raise_of_running _ running, eMismatch_symbol_word]
  · rw [packByte_of_symbol space symbol, if_pos room]
    have appends := packOne_appends k accn
    exact ⟨packOne k s, rfl, packOne_frame k s, appends.payload, appends.accn, appends.pushed,
      fun short => appends.level accn (by rwa [Code.bits_length])⟩

/-! ### PACK_END (43_pack.md R206) -/

/-- The state PACK_END leaves: the last byte flushed, ACC empty, MODE IDLE. -/
def packEnded (s : State) : State := { flush s with acc := 0, accn := 0, mode := .idle }

theorem exec_packEnd (s : State) : exec .packEnd s = command s (packEndFailure s) (packEnded s) := rfl

theorem packEndFailure_of_mode {s : State} (notPack : s.mode ≠ .pack) : packEndFailure s = some (eSeq 1 0x41) :=
  firstFailure_modeCheck_fail notPack _ _

theorem packEndFailure_of_full {s : State} (pack : s.mode = .pack) (full : 8 < s.ofifo.length) :
    packEndFailure s = some (eOverrun 0x41) := by
  rw [packEndFailure, firstFailure_modeCheck_pass pack, firstFailure_spaceCheck_fail full]

/-- In PACK and with space, PNSYM is checked before BITCNT. -/
theorem packEndFailure_of_space {s : State} (pack : s.mode = .pack) (space : s.ofifo.length ≤ 8) :
    packEndFailure s =
      if s.pnsym = s.nsym then (if s.bitcnt.toNat = s.totalbits.toNat then none else some (eMismatch 3 0x41))
      else some (eMismatch 2 0x41) := by
  rw [packEndFailure, firstFailure_modeCheck_pass pack, firstFailure_spaceCheck_pass space]
  simp [firstFailure_cons]

theorem exec_packEnd_of_ready {s : State} (pack : s.mode = .pack) (space : s.ofifo.length ≤ 8)
    (symbols : s.pnsym = s.nsym) (bits : s.bitcnt.toNat = s.totalbits.toNat) :
    exec .packEnd s = .next (packEnded s) := by
  rw [exec_packEnd]
  exact command_of_pass (by simp [pack]) (by rw [packEndFailure_of_space pack space, if_pos symbols, if_pos bits]) _

/-- What PACK_END writes, and nothing else. -/
theorem packEnded_frame (s : State) :
    packEnded s = { s with ofifo := (packEnded s).ofifo, ocnt := (packEnded s).ocnt, acc := 0, accn := 0,
                           mode := .idle } := by
  unfold packEnded flush
  split <;> rfl

@[simp] theorem packEnded_accBits (s : State) : (packEnded s).accBits = [] := rfl

theorem packEnded_heldPayload (s : State) : (packEnded s).heldPayload = (packEnded s).fifoBits := by
  rw [State.heldPayload, packEnded_accBits, List.append_nil]

/-- PACK_END appends zeros up to a whole byte. -/
theorem packEnded_appends {s : State} (accn : s.accn.toNat < 8) :
    Appends (List.replicate ((8 - s.accn.toNat) % 8) false) s (packEnded s) := by
  by_cases left : 0 < s.accn.toNat
  · have zeros : (8 - s.accn.toNat) % 8 = 8 - s.accn.toNat := by omega
    have byte := lowBits_shiftLeft s.acc accn
    refine ⟨?_, by simp [packEnded], [s.acc <<< (8 - s.accn.toNat)], ?_, ?_⟩
    · rw [zeros]
      simp [State.heldPayload, State.fifoBits, accBits_eq_lowBits, firstBits_eq_lowBits, packEnded, flush, left, byte]
    · simp [packEnded, flush, left]
    · simp [packEnded, flush, left]
  · have whole : s.accn.toNat = 0 := by omega
    refine ⟨?_, by simp [packEnded], [], ?_, ?_⟩ <;>
      simp [State.heldPayload, State.fifoBits, accBits_eq_lowBits, packEnded, flush, whole]

/-- Settles O29: MODE, space, the count and the bits are checked in turn, and then the bits left are padded. -/
theorem packEndFlushesTheLastByte : Obligations.PackEndFlushesTheLastByte := by
  refine ⟨decode_encode_command (i := .packEnd) (by decide), fun s => ?_⟩
  unfold Raises
  refine ⟨fun error => ?_, fun wrong => ?_, fun pack full => ?_, fun pack space short => ?_,
    fun pack space symbols wrong => ?_, fun pack space symbols bits accn => ?_⟩
  · exact command_of_error error _ _
  · obtain ⟨running, notPack⟩ : s.mode ≠ .error ∧ s.mode ≠ .pack := by
      rcases wrong with mode | mode | mode <;> simp [mode]
    exact command_of_failure running (packEndFailure_of_mode notPack) _
  · exact command_of_failure (by simp [pack]) (packEndFailure_of_full pack full) _
  · have fails : packEndFailure s = some (eMismatch 2 0x41) := by
      rw [packEndFailure_of_space pack space, if_neg short]
    exact command_of_failure (by simp [pack]) fails _
  · have fails : packEndFailure s = some (eMismatch 3 0x41) := by
      rw [packEndFailure_of_space pack space, if_pos symbols, if_neg wrong]
    exact command_of_failure (by simp [pack]) fails _
  · have appends := packEnded_appends accn
    exact ⟨packEnded s, exec_packEnd_of_ready pack space symbols bits, packEnded_frame s,
      (packEnded_heldPayload s).symm.trans appends.payload, appends.pushed⟩

/-! ### Packing a whole text (43_pack.md R207) -/

theorem idx_chr (k : Symbol) : idx (chr k) = some k := by
  revert k
  decide

theorem lowByte_dinValue (b : Byte) : lowByte (dinValue b) = b := opcodeField_setWidth b

/-- OFIFO read until it is empty. -/
def State.drained (s : State) : State := { s with ofifo := [] }

@[simp] theorem drained_cb (s : State) : s.drained.cb = s.cb := rfl

@[simp] theorem drained_ocnt (s : State) : s.drained.ocnt = s.ocnt := rfl

@[simp] theorem drained_accBits (s : State) : s.drained.accBits = s.accBits := rfl

theorem execDrained_cons_of_next {i : Instr} {is : List Instr} {s t u : State} {bytes : List Byte}
    (ran : exec i s = .next t) (rest : execDrained is t.drained = some (u, bytes)) :
    execDrained (i :: is) s = some (u, t.ofifo ++ bytes) := by
  have rest : execDrained is { t with ofifo := [] } = some (u, bytes) := rest
  simp only [execDrained, ran, rest, Option.map_some]

/-- A run of the packer with OFIFO drained, and `text` still to be packed of what was counted. -/
structure PackReady (text : List Symbol) (s : State) : Prop where
  pack : s.mode = .pack
  empty : s.ofifo = []
  accn : s.accn.toNat < 8
  symbols : s.pnsym.toNat + text.length = s.nsym.toNat
  bits : s.bitcnt.toNat + (textBits s.cb text).length = s.totalbits.toNat

theorem packReady_packBegun {text : List Symbol} {s : State} (symbols : s.nsym.toNat = text.length)
    (bits : s.totalbits.toNat = (textBits s.cb text).length) : PackReady text (packBegun s) :=
  ⟨rfl, rfl, (by decide : (0 : BitVec 4).toNat < 8), by simp [packBegun, symbols], by simp [packBegun, bits]⟩

theorem textBits_cons (cb : Codebook) (k : Symbol) (text : List Symbol) :
    textBits cb (k :: text) = cb[k].bits ++ textBits cb text := List.flatMap_cons

/-- Into an empty OFIFO: the bytes pushed and ACC hold ACC's bits before and the bits appended, and OCNT counts the
bytes. -/
theorem Appends.of_empty {bits : List Bool} {s t : State} (h : Appends bits s t) (empty : s.ofifo = []) :
    t.heldPayload = s.accBits ++ bits ∧ t.ocnt = s.ocnt + BitVec.ofNat 32 t.ofifo.length := by
  obtain ⟨payload, -, pushed, ofifo, ocnt⟩ := h
  rw [empty, List.nil_append] at ofifo
  subst ofifo
  exact ⟨by simpa [State.heldPayload, State.fifoBits, empty] using payload, ocnt⟩

section
variable {k : Symbol} {text : List Symbol} {s : State}

theorem PackReady.put (h : PackReady (k :: text) s) : exec (.packPut (dinValue (chr k))) s = .next (packOne k s) := by
  have symbols := h.symbols
  rw [List.length_cons] at symbols
  rw [exec_packPut_of_pack h.pack, lowByte_dinValue, packByte_of_symbol (by simp [h.empty]) (idx_chr k),
    if_pos (by omega)]

theorem PackReady.next (h : PackReady (k :: text) s) : PackReady text (packOne k s).drained := by
  obtain ⟨pack, -, accn, symbols, bits⟩ := h
  have below := (packOne_appends k accn).accn
  rw [List.length_cons] at symbols
  rw [textBits_cons, List.length_append, Code.bits_length] at bits
  rw [packOne_frame k s]
  refine ⟨pack, rfl, below, ?_, ?_⟩
  · change (s.pnsym + 1).toNat + text.length = s.nsym.toNat
    bv_omega
  · change (s.bitcnt + s.cb[k].len.setWidth 64).toNat + (textBits s.cb text).length = s.totalbits.toNat
    bv_omega

theorem PackReady.last (h : PackReady [] s) : exec .packEnd s = .next (packEnded s) :=
  exec_packEnd_of_ready h.pack (by simp [h.empty]) (BitVec.eq_of_toNat_eq (by simpa using h.symbols))
    (by simpa [textBits] using h.bits)

end

/-- Packing the rest of a text delivers ACC's bits, the codes of its symbols, and fewer than 8 zeros. -/
theorem execDrained_packPuts {text : List Symbol} {s : State} (ready : PackReady text s) :
    ∃ t bytes zeros, zeros < 8 ∧
      execDrained ((text.map fun k => .packPut (dinValue (chr k))) ++ [.packEnd]) s = some (t, bytes) ∧
      t.mode = .idle ∧ t.err = s.err ∧
      (bytes.flatMap fun b => firstBits b 8) = s.accBits ++ textBits s.cb text ++ List.replicate zeros false ∧
      t.ocnt = s.ocnt + BitVec.ofNat 32 bytes.length := by
  induction text generalizing s with
  | nil =>
    have run := execDrained_cons_of_next ready.last (rfl : execDrained [] _ = some (_, []))
    obtain ⟨payload, ocnt⟩ := (packEnded_appends ready.accn).of_empty ready.empty
    rw [packEnded_heldPayload] at payload
    rw [List.append_nil] at run
    refine ⟨(packEnded s).drained, (packEnded s).ofifo, (8 - s.accn.toNat) % 8, Nat.mod_lt _ (by decide), run, rfl,
      flush_err s, ?_, ocnt⟩
    rwa [textBits, List.flatMap_nil, List.append_nil]
  | cons k text ih =>
    obtain ⟨payload, ocnt⟩ := (packOne_appends k ready.accn).of_empty ready.empty
    obtain ⟨t, bytes, zeros, few, run, idle, err, rest, count⟩ := ih ready.next
    refine ⟨t, (packOne k s).ofifo ++ bytes, zeros, few, execDrained_cons_of_next ready.put run, idle,
      err.trans (packOne_err k s), ?_, ?_⟩
    · calc ((packOne k s).ofifo ++ bytes).flatMap (fun b => firstBits b 8)
          = (packOne k s).fifoBits ++ bytes.flatMap (fun b => firstBits b 8) := List.flatMap_append
        _ = (packOne k s).heldPayload ++ (textBits s.cb text ++ List.replicate zeros false) := by
          rw [rest, drained_cb, packOne_cb, drained_accBits, State.heldPayload]
          simp only [List.append_assoc]
        _ = s.accBits ++ textBits s.cb (k :: text) ++ List.replicate zeros false := by
          rw [payload, textBits_cons]
          simp only [List.append_assoc]
    · rw [count, drained_ocnt, ocnt, List.length_append, BitVec.ofNat_add, BitVec.add_assoc]

/-- Settles O30: PACK_BEGIN's state is ready for the whole text, and the zeros are as many as fill the last byte. -/
theorem packingDeliversThePayload : Obligations.PackingDeliversThePayload := by
  intro s text idle cv ce _ symbols bits pad
  obtain ⟨t, bytes, zeros, few, run, ended, err, payload, ocnt⟩ :=
    execDrained_packPuts (packReady_packBegun symbols bits)
  have size : 8 * bytes.length = s.totalbits.toNat + zeros := by
    rw [← flatMap_firstBits_length, payload, bits]
    simp [packBegun, accBits_eq_lowBits]
  have zeros_eq : zeros = s.pad.toNat := by
    rw [pad, padOf_toNat]
    omega
  refine ⟨t, bytes, execDrained_cons_of_next (exec_packBegin_of_ready idle cv ce) run, ended, err, ?_, by omega, ?_⟩
  · rw [payload, zeros_eq]
    rfl
  · rw [ocnt]
    exact BitVec.zero_add _

end Sys2Proof.Machine

/-! PROOFS. The unpacker: its commands and their checks, the walk of a byte and of a bit. -/

namespace Sys2Proof.Machine

/-! ### MODE and error words (60_exceptions.md R296, R301) -/

theorem not_idle_of_busy {s : State} (busy : s.mode = .count ∨ s.mode = .pack ∨ s.mode = .unpack) :
    s.mode ≠ .error ∧ s.mode ≠ .idle := by
  rcases busy with mode | mode | mode <;> simp [mode]

/-- A field of at most 16 bits goes through ARG unchanged. -/
theorem setWidth_arg {n : Nat} (fits : n ≤ 16) (x : BitVec n) : (x.setWidth 16).setWidth 32 = x.setWidth 32 := by
  have small : x.toNat < 2 ^ 16 := x.isLt.trans_le (Nat.pow_le_pow_right (by omega) fits)
  apply BitVec.eq_of_toNat_eq
  simp only [BitVec.toNat_setWidth]
  omega

/-- The word of E_MALFORMED: CODE and SUB in its low half, ARG above them (60_exceptions.md R296, 10_state.md R31). -/
theorem eMalformed_word (sub : BitVec 8) (low : Nat) (code : 0x06 ||| sub.setWidth 32 <<< 8 = (low : Word))
    {arg : BitVec 16} {high : Word} (field : arg.setWidth 32 = high) :
    errWord (eMalformed sub arg).code (eMalformed sub arg).sub (eMalformed sub arg).arg =
      (low : Word) ||| high <<< 16 := by
  rw [← code, ← field]
  rfl

/-! ### UNPACK_BEGIN (44_unpack.md R225) -/

/-- The state UNPACK_BEGIN leaves: OFIFO, the held byte, the walk and the counters emptied, MODE UNPACK. -/
def unpackBegun (s : State) : State :=
  { s with ofifo := [], pend := 0, pendv := false, curLen := 0, curVal := 0, bitcnt := 0, dincnt := 0, ocnt := 0,
           mode := .unpack }

theorem exec_unpackBegin (s : State) : exec .unpackBegin s = command s (unpackBeginFailure s) (unpackBegun s) := rfl

theorem unpackBeginFailure_of_mode {s : State} (notIdle : s.mode ≠ .idle) :
    unpackBeginFailure s = some (eSeq 1 0x60) :=
  firstFailure_modeCheck_fail notIdle _ _

theorem unpackBeginFailure_of_idle {s : State} (idle : s.mode = .idle) :
    unpackBeginFailure s = if s.cv then none else some (eSeq 4 0x60) :=
  firstFailure_modeCheck_pass idle _ _

theorem exec_unpackBegin_of_ready {s : State} (idle : s.mode = .idle) (cv : s.cv = true) :
    exec .unpackBegin s = .next (unpackBegun s) := by
  rw [exec_unpackBegin]
  exact command_of_pass (by simp [idle]) (by rw [unpackBeginFailure_of_idle idle, if_pos cv]) _

/-- Settles O33: MODE, then CV. -/
theorem unpackBeginStartsAtTheRoot : Obligations.UnpackBeginStartsAtTheRoot := by
  refine ⟨decode_encode_command (i := .unpackBegin) (by decide), fun s => ?_⟩
  unfold Raises
  refine ⟨fun error => ?_, fun busy => ?_, fun idle noCv => ?_, exec_unpackBegin_of_ready⟩
  · exact command_of_error error _ _
  · obtain ⟨running, notIdle⟩ := not_idle_of_busy busy
    exact command_of_failure running (unpackBeginFailure_of_mode notIdle) _
  · have fails : unpackBeginFailure s = some (eSeq 4 0x60) := by
      rw [unpackBeginFailure_of_idle idle, if_neg (by simp [noCv])]
    exact command_of_failure (by simp [idle]) fails _

/-! ### Walks of several bits (44_unpack.md R229) -/

theorem walkBits_append_of_going {xs : List Bool} {s t : State} (going : walkBits xs s = .going t) (ys : List Bool) :
    walkBits (xs ++ ys) s = walkBits ys t := by
  simp only [walkBits_append, going]

theorem walkBits_append_of_stopped {xs : List Bool} {s t : State} (stopped : walkBits xs s = .stopped t)
    (ys : List Bool) : walkBits (xs ++ ys) s = .stopped t := by
  simp only [walkBits_append, stopped]

theorem walkBits_cons_of_going {x : Bool} {s t : State} (going : walkBit x s = .going t) (xs : List Bool) :
    walkBits (x :: xs) s = walkBits xs t := by
  simp only [walkBits_cons, going]

theorem walkBits_cons_of_stopped {x : Bool} {s t : State} (stopped : walkBit x s = .stopped t) (xs : List Bool) :
    walkBits (x :: xs) s = .stopped t := by
  simp only [walkBits_cons, stopped]

theorem walkBits_singleton (x : Bool) (s : State) : walkBits [x] s = walkBit x s := by
  cases walk : walkBit x s with
  | going t => exact walkBits_cons_of_going walk []
  | stopped t => exact walkBits_cons_of_stopped walk []

theorem firstBits_succ (b : Byte) (n : Nat) : firstBits b (n + 1) = firstBits b n ++ [b.getLsbD (7 - n)] := by
  simp [firstBits, List.range_succ]

/-! ### UNPACK_PUT (44_unpack.md R226) -/

theorem exec_unpackPut_of_unpack {s : State} (unpack : s.mode = .unpack) (v : Word) :
    exec (.unpackPut v) s = .next (unpackByte (lowByte v) s) := if_pos unpack

theorem unpackByte_of_full {s : State} (full : 8 < s.ofifo.length) (b : Byte) :
    unpackByte b s = raise (eOverrun 0x0100) s := by
  rw [unpackByte, firstFailure_spaceCheck_fail full]

theorem heldBits_of_none {s : State} (empty : s.pendv = false) : heldBits s = [] := by
  simp [heldBits, empty]

theorem heldBits_of_held {s : State} (held : s.pendv = true) : heldBits s = firstBits s.pend 8 := if_pos held

theorem unpackByte_of_going {s t : State} (space : s.ofifo.length ≤ 8) (walk : walkBits (heldBits s) s = .going t)
    (b : Byte) : unpackByte b s = { t with pend := b, pendv := true, dincnt := s.dincnt + 1 } := by
  have dincnt := walkBits_dincnt (heldBits s) s
  rw [walk, Walk.state_going] at dincnt
  rcases unpackByte_cases b space with stopped | ⟨u, going, h⟩
  · simp [walk] at stopped
  · obtain rfl : t = u := Walk.going.inj (walk.symm.trans going)
    rw [h, ← dincnt]
    rfl

theorem unpackByte_of_stopped {s t : State} (space : s.ofifo.length ≤ 8)
    (walk : walkBits (heldBits s) s = .stopped t) (b : Byte) : unpackByte b s = t := by
  rcases unpackByte_cases b space with stopped | ⟨u, going, -⟩
  · exact Walk.stopped.inj (stopped.symm.trans walk)
  · simp [walk] at going

/-- Settles O34: space is checked, then the held bits are walked, and a walk that goes through holds the new byte. -/
theorem unpackPutWalksTheHeldByte : Obligations.UnpackPutWalksTheHeldByte := by
  refine ⟨decodeWrite_din rfl .unpack, fun s v unpack => ?_⟩
  have put : exec (.unpackPut v) s = .next (unpackByte (v.extractLsb' 0 8) s) := exec_unpackPut_of_unpack unpack v
  unfold Raises
  rw [put]
  refine ⟨fun full => ?_, fun space empty => ?_, fun space held t walk => ?_, fun space held t walk => ?_⟩
  · rw [unpackByte_of_full full, raise_of_running _ (by simp [unpack])]
    rfl
  · have walk : walkBits (heldBits s) s = .going s := by rw [heldBits_of_none empty, walkBits_nil]
    rw [unpackByte_of_going space walk]
  · rw [walkByte, ← heldBits_of_held held] at walk
    rw [unpackByte_of_going space walk]
  · rw [walkByte, ← heldBits_of_held held] at walk
    have pend := walkBits_pend (heldBits s) s
    have pendv := walkBits_pendv (heldBits s) s
    have dincnt := walkBits_dincnt (heldBits s) s
    rw [walk, Walk.state_stopped] at pend pendv dincnt
    exact ⟨by rw [unpackByte_of_stopped space walk], pend, pendv.trans held, dincnt⟩

/-! ### walk_bit (44_unpack.md R228) -/

theorem symbolOf_eq_none {cb : Codebook} {c : Code} : symbolOf cb c = none ↔ ∀ k : Symbol, cb[k] ≠ c := by
  simp [symbolOf, symbols]

/-- A code begins a longer one when the longer value without its last bits is the code's. -/
theorem beginsLonger_iff {cb : Codebook} {c : Code} : beginsLonger cb c = true ↔
    ∃ k : Symbol, c.len.toNat < cb[k].len.toNat ∧
      cb[k].val.toNat / 2 ^ (cb[k].len.toNat - c.len.toNat) = c.val.toNat := by
  have one (d : Code) : (decide (c.len < d.len) && d.val >>> (d.len - c.len).toNat == c.val) = true ↔
      c.len.toNat < d.len.toNat ∧ d.val.toNat / 2 ^ (d.len.toNat - c.len.toNat) = c.val.toNat := by
    rw [Bool.and_eq_true, decide_eq_true_eq, beq_iff_eq, BitVec.lt_def]
    refine and_congr_right fun shorter => ?_
    rw [BitVec.toNat_eq, BitVec.toNat_ushiftRight, Nat.shiftRight_eq_div_pow,
      BitVec.toNat_sub_of_le (BitVec.le_def.2 shorter.le)]
  simp only [beginsLonger, List.any_eq_true, one]
  simp [symbols]

theorem walkBit_of_symbol {x : Bool} {s : State} {k : Symbol}
    (code : symbolOf s.cb ⟨(stepCur x s).curLen, (stepCur x s).curVal⟩ = some k) :
    walkBit x s = .going { (stepCur x s).push (chr k) with curLen := 0, curVal := 0 } := by
  rcases walkBit_cases x s with ⟨j, found, h⟩ | ⟨missing, -, -⟩ | ⟨missing, -, -⟩
  · obtain rfl : j = k := Option.some.inj (found.symm.trans code)
    exact h
  · cases code.symm.trans missing
  · cases code.symm.trans missing

theorem walkBit_of_longer {x : Bool} {s : State}
    (noCode : symbolOf s.cb ⟨(stepCur x s).curLen, (stepCur x s).curVal⟩ = none)
    (longer : beginsLonger s.cb ⟨(stepCur x s).curLen, (stepCur x s).curVal⟩ = true) :
    walkBit x s = .going (stepCur x s) := by
  rcases walkBit_cases x s with ⟨j, found, -⟩ | ⟨-, -, h⟩ | ⟨-, dead, -⟩
  · cases noCode.symm.trans found
  · exact h
  · cases longer.symm.trans dead

theorem walkBit_of_dead {x : Bool} {s : State}
    (noCode : symbolOf s.cb ⟨(stepCur x s).curLen, (stepCur x s).curVal⟩ = none)
    (dead : beginsLonger s.cb ⟨(stepCur x s).curLen, (stepCur x s).curVal⟩ ≠ true) (running : s.mode ≠ .error) :
    walkBit x s = .stopped { stepCur x s with
      err := 0x00000606 ||| (stepCur x s).curLen.setWidth 32 <<< 16, mode := .error } := by
  rcases walkBit_cases x s with ⟨j, found, -⟩ | ⟨-, longer, -⟩ | ⟨-, -, h⟩
  · cases noCode.symm.trans found
  · exact absurd longer dead
  · rw [h, raise_of_running (s := stepCur x s) _ running,
      eMalformed_word 6 0x00000606 (by decide) (setWidth_arg (by omega) (stepCur x s).curLen)]

/-- Settles O35: a byte's bits are walked one more at a time, and a walked bit is a code, inside one, or dead. -/
theorem walkBitFollowsTheCodebook : Obligations.WalkBitFollowsTheCodebook := by
  refine ⟨fun b s => ⟨rfl, fun n _ => ⟨fun t walk => ?_, fun t walk => ?_⟩⟩, fun s x running => ?_⟩
  · rw [walkByte] at walk ⊢
    rw [firstBits_succ, walkBits_append_of_going walk, walkBits_singleton]
  · rw [walkByte] at walk ⊢
    rw [firstBits_succ, walkBits_append_of_stopped walk]
  · intro len val begins
    have stepped : stepCur x s = { s with curLen := len, curVal := val, bitcnt := s.bitcnt + 1 } := by
      cases x <;> rfl
    have curLen : (stepCur x s).curLen = len := by rw [stepped]
    have curVal : (stepCur x s).curVal = val := by rw [stepped]
    refine ⟨fun k code first => ?_, fun noCode longer => ?_, fun noCode dead => ?_⟩
    · rw [walkBit_of_symbol (k := k) (by rw [curLen, curVal]; exact symbolOf_eq_some.2 ⟨code, first⟩)]
      rfl
    · rw [← stepped]
      exact walkBit_of_longer (by rw [curLen, curVal]; exact symbolOf_eq_none.2 noCode)
        (by rw [curLen, curVal]; exact beginsLonger_iff.2 longer)
    · rw [walkBit_of_dead (by rw [curLen, curVal]; exact symbolOf_eq_none.2 noCode)
        (by rw [curLen, curVal]; exact fun longer => dead (beginsLonger_iff.1 longer)) running, stepped]

/-! ### UNPACK_END (44_unpack.md R230) -/

theorem exec_unpackEnd (s : State) : exec .unpackEnd s = command s (unpackEndFailure s) (finishUnpack s) := rfl

theorem unpackEndFailure_of_mode {s : State} (notUnpack : s.mode ≠ .unpack) :
    unpackEndFailure s = some (eSeq 1 0x61) :=
  firstFailure_modeCheck_fail notUnpack _ _

theorem unpackEndFailure_of_full {s : State} (unpack : s.mode = .unpack) (full : 8 < s.ofifo.length) :
    unpackEndFailure s = some (eOverrun 0x61) := by
  rw [unpackEndFailure, firstFailure_modeCheck_pass unpack, firstFailure_spaceCheck_fail full]

/-- In UNPACK and with space, PAD must be 0 unless a byte is held. -/
theorem unpackEndFailure_of_space {s : State} (unpack : s.mode = .unpack) (space : s.ofifo.length ≤ 8) :
    unpackEndFailure s =
      if s.pendv = true ∨ s.pad = 0 then none else some (eMalformed 8 (s.pad.setWidth 16)) := by
  rw [unpackEndFailure, firstFailure_modeCheck_pass unpack, firstFailure_spaceCheck_pass space]
  simp [firstFailure_cons]

theorem exec_unpackEnd_of_ready {s : State} (unpack : s.mode = .unpack) (space : s.ofifo.length ≤ 8)
    (last : s.pendv = true ∨ s.pad = 0) : exec .unpackEnd s = .next (finishUnpack s) := by
  rw [exec_unpackEnd]
  exact command_of_pass (by simp [unpack]) (by rw [unpackEndFailure_of_space unpack space, if_pos last]) _

theorem lastBits_of_none {s : State} (empty : s.pendv = false) : lastBits s = [] := by
  simp [lastBits, empty]

theorem lastBits_of_held {s : State} (held : s.pendv = true) : lastBits s = firstBits s.pend (8 - s.pad.toNat) :=
  if_pos held

theorem finishUnpack_of_stopped {s t : State} (walk : walkBits (lastBits s) s = .stopped t) : finishUnpack s = t := by
  rcases finishUnpack_cases s with stopped | ⟨u, going, -⟩
  · exact Walk.stopped.inj (stopped.symm.trans walk)
  · simp [walk] at going

theorem finishUnpack_of_going {s t : State} (walk : walkBits (lastBits s) s = .going t) :
    finishUnpack s = closeWalk { t with pend := if s.pendv then 0 else t.pend, pendv := false } := by
  rcases finishUnpack_cases s with stopped | ⟨u, going, h⟩
  · simp [walk] at stopped
  · obtain rfl : t = u := Walk.going.inj (walk.symm.trans going)
    exact h

theorem finishUnpack_of_none {s : State} (empty : s.pendv = false) : finishUnpack s = closeWalk s := by
  have walk : walkBits (lastBits s) s = .going s := by rw [lastBits_of_none empty, walkBits_nil]
  rw [finishUnpack_of_going walk, if_neg (by simp [empty]), ← empty]

theorem closeWalk_of_root {s : State} (root : s.curLen = 0) : closeWalk s = { s with mode := .idle } := by
  rcases closeWalk_cases s with ⟨inside, -⟩ | ⟨-, h⟩
  · exact absurd root inside
  · exact h

theorem closeWalk_of_inside {s : State} (inside : s.curLen ≠ 0) (running : s.mode ≠ .error) :
    closeWalk s = { s with err := 0x00000706 ||| s.curLen.setWidth 32 <<< 16, mode := .error } := by
  rcases closeWalk_cases s with ⟨-, h⟩ | ⟨root, -⟩
  · rw [h, raise_of_running _ running,
      eMalformed_word 7 0x00000706 (by decide) (setWidth_arg (by omega) s.curLen)]
  · exact absurd root inside

/-- Settles O37: MODE, space and PAD are checked, then the last bits are walked and the walk is closed. -/
theorem unpackEndWalksTheLastByte : Obligations.UnpackEndWalksTheLastByte := by
  refine ⟨decode_encode_command (i := .unpackEnd) (by decide), fun s => ?_⟩
  unfold Raises
  refine ⟨fun error => ?_, fun wrong => ?_, fun unpack full => ?_, fun unpack space empty pad => ?_,
    fun unpack space empty pad inside => ?_, fun unpack space empty pad root => ?_,
    fun unpack space held t walk => ?_, fun unpack space held t walk => ?_⟩
  · exact command_of_error error _ _
  · obtain ⟨running, notUnpack⟩ : s.mode ≠ .error ∧ s.mode ≠ .unpack := by
      rcases wrong with mode | mode | mode <;> simp [mode]
    exact command_of_failure running (unpackEndFailure_of_mode notUnpack) _
  · exact command_of_failure (by simp [unpack]) (unpackEndFailure_of_full unpack full) _
  · have fails : unpackEndFailure s = some (eMalformed 8 (s.pad.setWidth 16)) := by
      rw [unpackEndFailure_of_space unpack space, if_neg (not_or.2 ⟨by simp [empty], pad⟩)]
    rw [← eMalformed_word 8 0x00000806 (by decide) (setWidth_arg (by omega) s.pad)]
    exact command_of_failure (by simp [unpack]) fails _
  · rw [exec_unpackEnd_of_ready unpack space (.inr pad), finishUnpack_of_none empty,
      closeWalk_of_inside inside (by simp [unpack])]
  · rw [exec_unpackEnd_of_ready unpack space (.inr pad), finishUnpack_of_none empty, closeWalk_of_root root]
  · rw [walkByte, ← lastBits_of_held held] at walk
    have pendv := walkBits_pendv (lastBits s) s
    rw [walk, Walk.state_stopped] at pendv
    exact ⟨by rw [exec_unpackEnd_of_ready unpack space (.inl held), finishUnpack_of_stopped walk], pendv.trans held⟩
  · rw [walkByte, ← lastBits_of_held held] at walk
    have running : t.mode ≠ .error := by
      rw [((walkBits_mode _ _).1 t walk).1, unpack]
      decide
    rw [exec_unpackEnd_of_ready unpack space (.inl held), finishUnpack_of_going walk, if_pos held]
    exact ⟨fun inside => congrArg _ (closeWalk_of_inside inside running),
      fun root => congrArg _ (closeWalk_of_root root)⟩

end Sys2Proof.Machine

/-! PROOFS. The codebook loader: its checks one by one, what it takes, and what it reports. -/

namespace Sys2Proof.Machine

/-! ### The checks of one record (44_unpack.md R221) -/

theorem recordFailure_eq (m : Memory) (k : Symbol) : recordFailure m k =
    if Memory.read m (recordBase k) = chr k then
      if 1 ≤ recordLen m k ∧ recordLen m k ≤ 64 then
        if recordVal m k < 2 ^ recordLen m k then none else some (eMalformed 4 (BitVec.ofNat 16 k.val))
      else some (eMalformed 3 (BitVec.ofNat 16 k.val))
    else some (eMalformed 2 (BitVec.ofNat 16 k.val)) := by
  simp [recordFailure, firstFailure_cons]
  rfl

theorem recordFailure_eq_none {m : Memory} {k : Symbol} : recordFailure m k = none ↔ RecordValid m k := by
  simp [recordFailure, firstFailure_eq_none]
  rfl

/-! ### The check of a pair (44_unpack.md R222) -/

theorem clash_iff {li vi lj vj : Nat} : clash li vi lj vj = true ↔
    (li ≤ lj ∧ vj / 2 ^ (lj - li) = vi) ∨ (lj ≤ li ∧ vi / 2 ^ (li - lj) = vj) := by
  rcases lt_trichotomy li lj with lt | rfl | gt
  · simpa [clash, lt.le, lt.not_ge, Nat.shiftRight_eq_div_pow] using eq_comm
  · simp [clash, eq_comm (a := vj)]
  · simp [clash, gt.le, gt.not_ge, Nat.shiftRight_eq_div_pow]

theorem pairFailure_of_clash {m : Memory} {i j : Symbol} (lt : i < j) (clashes : RecordsClash m i j) :
    pairFailure m i j = some (eMalformed 5 (BitVec.ofNat 16 (i.val + 256 * j.val))) :=
  if_pos ⟨lt, clash_iff.2 clashes⟩

theorem pairFailure_eq_none {m : Memory} {i j : Symbol} :
    pairFailure m i j = none ↔ (i < j → ¬ RecordsClash m i j) := by
  have same : RecordsClash m i j ↔ clash (recordLen m i) (recordVal m i) (recordLen m j) (recordVal m j) = true :=
    clash_iff.symm
  rw [same]
  simp [pairFailure]

/-! ### The order of the checks (44_unpack.md R220 to R222) -/

/-- A symbol where `f` finds something, and before which it finds nothing, is where a search stops. -/
theorem findSome?_symbols {α : Type} {f : Symbol → Option α} {k : Symbol} {e : α} (found : f k = some e)
    (first : ∀ j < k, f j = none) : symbols.findSome? f = some e := by
  refine List.findSome?_eq_some_iff.2
    ⟨symbols.take k, k, symbols.drop (k + 1), ?_, found, fun j before => first j ?_⟩
  · have here : symbols[k.val]'(by simp [symbols]) = k := by simp [symbols]
    conv_lhs => rw [← List.take_append_drop k.val symbols, List.drop_eq_getElem_cons (by simp [symbols]), here]
  · obtain ⟨i, hi, rfl⟩ := List.mem_take_iff_getElem.1 before
    simp only [symbols, List.getElem_finRange, Fin.lt_def, Fin.val_cast]
    omega

theorem findSome?_symbols_eq_none {α : Type} {f : Symbol → Option α} :
    symbols.findSome? f = none ↔ ∀ k : Symbol, f k = none := by
  simp [symbols]

/-- The pair reported is the least that clashes. -/
theorem pairsFailure_of_clash {m : Memory} {i j : Symbol} (lt : i < j) (clashes : RecordsClash m i j)
    (first : ∀ i' j' : Symbol, i' < j' → i' < i ∨ (i' = i ∧ j' < j) → ¬ RecordsClash m i' j') :
    pairsFailure m = some (eMalformed 5 (BitVec.ofNat 16 (i.val + 256 * j.val))) := by
  have inner : symbols.findSome? (pairFailure m i) = some (eMalformed 5 (BitVec.ofNat 16 (i.val + 256 * j.val))) :=
    findSome?_symbols (pairFailure_of_clash lt clashes)
      fun j' before => pairFailure_eq_none.2 fun lt' => first i j' lt' (.inr ⟨rfl, before⟩)
  exact findSome?_symbols inner fun i' before => findSome?_symbols_eq_none.2
    fun j' => pairFailure_eq_none.2 fun lt' => first i' j' lt' (.inl before)

/-- The header is checked first, then the records, then the pairs. -/
theorem codebookFailure_eq (m : Memory) : codebookFailure m =
    if (Memory.read m 0).toNat ≤ 7 then (symbols.findSome? (recordFailure m)).or (pairsFailure m)
    else some (eMalformed 1 ((Memory.read m 0).setWidth 16)) := by
  have header : decide (Memory.read m 0 ≤ 7) = true ↔ (Memory.read m 0).toNat ≤ 7 := by simp [BitVec.le_def]
  rw [codebookFailure, firstFailure_cons, firstFailure_nil]
  by_cases small : (Memory.read m 0).toNat ≤ 7
  · rw [if_pos small, if_pos (header.2 small)]
    cases symbols.findSome? (recordFailure m) with
    | none => rw [Option.none_or]
    | some e => rw [Option.some_or]
  · rw [if_neg small, if_neg (mt header.1 small)]

theorem codebookFailure_of_record {m : Memory} {k : Symbol} {e : HceError} (header : (Memory.read m 0).toNat ≤ 7)
    (before : ∀ j < k, RecordValid m j) (fails : recordFailure m k = some e) : codebookFailure m = some e := by
  rw [codebookFailure_eq, if_pos header,
    findSome?_symbols fails fun j lt => recordFailure_eq_none.2 (before j lt), Option.some_or]

theorem codebookFailure_of_records {m : Memory} (header : (Memory.read m 0).toNat ≤ 7)
    (records : ∀ k : Symbol, RecordValid m k) : codebookFailure m = pairsFailure m := by
  rw [codebookFailure_eq, if_pos header,
    findSome?_symbols_eq_none.2 fun k => recordFailure_eq_none.2 (records k), Option.none_or]

theorem recordFailure_sub {m : Memory} {k : Symbol} {e : HceError} (fails : recordFailure m k = some e) :
    ∃ (sub : BitVec 8) (arg : BitVec 16), e = eMalformed sub arg ∧ 1 ≤ sub.toNat ∧ sub.toNat ≤ 5 := by
  obtain ⟨c, mem, -, rfl⟩ := firstFailure_eq_some fails
  simp only [List.mem_cons, List.not_mem_nil, or_false] at mem
  rcases mem with rfl | rfl | rfl <;> exact ⟨_, _, rfl, by decide, by decide⟩

theorem pairsFailure_sub {m : Memory} {e : HceError} (fails : pairsFailure m = some e) :
    ∃ arg : BitVec 16, e = eMalformed 5 arg := by
  obtain ⟨i, -, inner⟩ := List.exists_of_findSome?_eq_some fails
  obtain ⟨j, -, pair⟩ := List.exists_of_findSome?_eq_some inner
  unfold pairFailure at pair
  split at pair
  · exact ⟨_, (Option.some.inj pair).symm⟩
  · cases pair

/-- Every failure LOAD finds in CBUF is an E_MALFORMED of sub 1 to 5. -/
theorem codebookFailure_sub {m : Memory} {e : HceError} (fails : codebookFailure m = some e) :
    ∃ (sub : BitVec 8) (arg : BitVec 16), e = eMalformed sub arg ∧ 1 ≤ sub.toNat ∧ sub.toNat ≤ 5 := by
  rw [codebookFailure_eq] at fails
  split at fails
  · rcases Option.or_eq_some_iff.1 fails with records | ⟨-, pairs⟩
    · obtain ⟨k, -, record⟩ := List.exists_of_findSome?_eq_some records
      exact recordFailure_sub record
    · obtain ⟨arg, rfl⟩ := pairsFailure_sub pairs
      exact ⟨5, arg, rfl, by decide, by decide⟩
  · exact ⟨1, _, (Option.some.inj fails).symm, by decide, by decide⟩

/-! ### What LOAD takes (44_unpack.md R223) -/

/-- A code whose value is another's without its last bits begins it. -/
theorem Code.bits_isPrefix_of_val {c d : Code} (len : c.len.toNat ≤ d.len.toNat)
    (val : d.val.toNat / 2 ^ (d.len.toNat - c.len.toNat) = c.val.toNat) : c.bits <+: d.bits := by
  rw [List.prefix_iff_getElem]
  refine ⟨by simpa using len, fun i hi => ?_⟩
  have hi' : i < c.len.toNat := by simpa using hi
  rw [Code.bits_getElem, Code.bits_getElem, ← val, ← Nat.shiftRight_eq_div_pow, Nat.testBit_shiftRight]
  congr 1
  omega

/-- Of two valid records that clash, one code begins the other. -/
theorem isPrefix_of_recordsClash {m : Memory} {i j : Symbol} (hi : RecordValid m i) (hj : RecordValid m j)
    (clashes : RecordsClash m i j) :
    (loadedCodebook m)[i].bits <+: (loadedCodebook m)[j].bits ∨
      (loadedCodebook m)[j].bits <+: (loadedCodebook m)[i].bits := by
  unfold RecordsClash at clashes
  rw [← loadedCodebook_len hi, ← loadedCodebook_len hj, ← loadedCodebook_val hi,
    ← loadedCodebook_val hj] at clashes
  exact clashes.imp (fun h => Code.bits_isPrefix_of_val h.1 h.2) (fun h => Code.bits_isPrefix_of_val h.1 h.2)

theorem codebookFailure_eq_none {m : Memory} : codebookFailure m = none ↔ CbufValid m := by
  constructor
  · intro sound
    refine ⟨?_, recordValid_of_sound sound, (loadedCodebook_valid sound).2⟩
    by_contra large
    rw [codebookFailure_eq, if_neg large] at sound
    cases sound
  · rintro ⟨header, records, free⟩
    rw [codebookFailure_of_records header records]
    refine findSome?_symbols_eq_none.2 fun i => findSome?_symbols_eq_none.2 fun j => pairFailure_eq_none.2 ?_
    intro lt clashes
    rcases isPrefix_of_recordsClash (records i) (records j) clashes with forth | back
    · exact free i j lt.ne forth
    · exact free j i lt.ne' back

/-! ### Bytes of a number, most significant first (30_encoding.md R108) -/

/-- The number whose n bytes are f 0 to f (n - 1), most significant first. -/
def bigEndian (f : Nat → Nat) (n : Nat) : Nat := ((List.range n).map fun i => f i * 2 ^ (8 * (n - 1 - i))).sum

theorem bigEndian_succ (f : Nat → Nat) (n : Nat) : bigEndian f (n + 1) = 256 * bigEndian f n + f n := by
  have last : n + 1 - 1 - n = 0 := by omega
  rw [bigEndian, List.range_succ, List.map_append, List.sum_append, List.map_singleton, List.sum_singleton, last,
    bigEndian, ← List.sum_map_mul_left, Nat.mul_zero, Nat.pow_zero, Nat.mul_one]
  congr 2
  refine List.map_congr_left fun i hi => ?_
  have before : 8 * (n + 1 - 1 - i) = 8 * (n - 1 - i) + 8 := by
    have := List.mem_range.1 hi
    omega
  rw [before, Nat.pow_add]
  ring

/-- Byte j, counted from the most significant, is f j. -/
theorem bigEndian_byte {f : Nat → Nat} (small : ∀ i, f i < 256) {n j : Nat} (hj : j < n) :
    bigEndian f n / 2 ^ (8 * (n - 1 - j)) % 256 = f j := by
  induction n with
  | zero => omega
  | succ n ih =>
    have byte := small n
    rw [bigEndian_succ]
    rcases Nat.lt_succ_iff_lt_or_eq.1 hj with before | rfl
    · have above : 8 * (n + 1 - 1 - j) = 8 + 8 * (n - 1 - j) := by omega
      have rest : (256 * bigEndian f n + f n) / 2 ^ 8 = bigEndian f n := by omega
      rw [above, Nat.pow_add, ← Nat.div_div_eq_div_mul, rest, ih before]
    · rw [show j + 1 - 1 - j = 0 by omega, Nat.mul_zero, Nat.pow_zero, Nat.div_one]
      omega

/-- The number of the n low bytes of x. -/
theorem bigEndian_of_bytes {f : Nat → Nat} {n x : Nat} (bytes : ∀ j < n, f j = x / 2 ^ (8 * (n - 1 - j)) % 256) :
    bigEndian f n = x % 2 ^ (8 * n) := by
  induction n generalizing x with
  | zero => rw [Nat.mul_zero, Nat.pow_zero, Nat.mod_one]; rfl
  | succ n ih =>
    have last : f n = x % 256 := by simpa using bytes n (by omega)
    have rest : bigEndian f n = x / 256 % 2 ^ (8 * n) := ih fun j hj => by
      have above : 8 * (n + 1 - 1 - j) = 8 + 8 * (n - 1 - j) := by omega
      rw [bytes j (by omega), above, Nat.pow_add, ← Nat.div_div_eq_div_mul]
    rw [bigEndian_succ, last, rest, Nat.mul_succ, Nat.pow_add, Nat.mul_comm (2 ^ (8 * n)), Nat.mod_mul, Nat.add_comm]

/-- Byte j of a code's value, counted from the most significant. -/
theorem toNat_valueByte (v : BitVec 64) {j : Nat} (hj : j < 8) :
    (v.extractLsb' (56 - 8 * j) 8).toNat = v.toNat / 2 ^ (8 * (8 - 1 - j)) % 256 := by
  rw [BitVec.extractLsb'_toNat, Nat.shiftRight_eq_div_pow, show 56 - 8 * j = 8 * (8 - 1 - j) by omega]

theorem recordVal_eq_bigEndian (m : Memory) (k : Symbol) :
    recordVal m k = bigEndian (fun j => (Memory.read m (recordBase k + 2 + j)).toNat) 8 := rfl

/-! ### LOAD (44_unpack.md R220, R223) -/

/-- The state LOAD leaves: CB and PAD those of CBUF, CV 1 and CE 0. -/
def loaded (s : State) : State :=
  { s with cb := loadedCodebook s.cbuf, pad := (Memory.read s.cbuf 0).setWidth 3, cv := true, ce := false }

theorem exec_load (s : State) : exec .load s = command s (loadFailure s) (loaded s) := rfl

theorem loadFailure_of_mode {s : State} (notIdle : s.mode ≠ .idle) : loadFailure s = some (eSeq 1 0x50) := by
  rw [loadFailure, firstFailure_modeCheck_fail notIdle]

theorem loadFailure_of_idle {s : State} (idle : s.mode = .idle) : loadFailure s = codebookFailure s.cbuf := by
  rw [loadFailure, firstFailure_modeCheck_pass idle, firstFailure_nil]

theorem exec_load_of_valid {s : State} (idle : s.mode = .idle) (valid : CbufValid s.cbuf) :
    exec .load s = .next (loaded s) := by
  rw [exec_load]
  exact command_of_pass (by simp [idle]) (by rw [loadFailure_of_idle idle, codebookFailure_eq_none.2 valid]) _

theorem raises_load {s : State} {e : HceError} (idle : s.mode = .idle) (fails : codebookFailure s.cbuf = some e) :
    Raises .load s (errWord e.code e.sub e.arg) :=
  command_of_failure (by simp [idle]) (by rw [loadFailure_of_idle idle, fails]) _

/-- Settles O31: the checks pass exactly when CBUF is a valid codebook, and then its bytes are CB and PAD. -/
theorem loadTakesExactlyValidCodebooks : Obligations.LoadTakesExactlyValidCodebooks := by
  refine ⟨decode_encode_command (i := .load) (by decide), fun s => ?_⟩
  refine ⟨fun error => ?_, fun busy => ?_, fun idle valid => ?_, fun idle invalid => ?_⟩
  · exact command_of_error error _ _
  · obtain ⟨running, notIdle⟩ := not_idle_of_busy busy
    exact command_of_failure running (loadFailure_of_mode notIdle) _
  · have sound := codebookFailure_eq_none.2 valid
    have ⟨header, records, _⟩ := valid
    refine ⟨loaded s, exec_load_of_valid idle valid, rfl, ?_, loadedCodebook_valid sound,
      fun k => ⟨?_, fun j hj => ?_⟩⟩
    · simp only [loaded, BitVec.toNat_setWidth]
      omega
    · have base : 2 + 10 * k.val = recordBase k + 1 := by simp only [recordBase, Config.recordSize]; omega
      rw [base]
      exact loadedCodebook_len (records k)
    · have base : 3 + 10 * k.val + j = recordBase k + 2 + j := by simp only [recordBase, Config.recordSize]; omega
      apply BitVec.eq_of_toNat_eq
      have byte := bigEndian_byte (f := fun j => (Memory.read s.cbuf (recordBase k + 2 + j)).toNat)
        (fun i => BitVec.isLt _) hj
      rw [← recordVal_eq_bigEndian, ← loadedCodebook_val (records k)] at byte
      rw [base, ← byte, toNat_valueByte _ hj]
      rfl
  · obtain ⟨e, fails⟩ := Option.ne_none_iff_exists'.1 (mt codebookFailure_eq_none.1 invalid)
    obtain ⟨sub, arg, rfl, low, high⟩ := codebookFailure_sub fails
    exact ⟨sub, arg, low, high, raises_load (e := eMalformed sub arg) idle fails⟩

/-- Settles O32: the checks stop at the first failure, of the header, the records and the pairs in turn. -/
theorem loadReportsTheFirstFailure : Obligations.LoadReportsTheFirstFailure := by
  intro s idle
  refine ⟨fun large => ?_, fun header => ⟨
    fun k before => ⟨fun sym => ?_, fun sym len => ?_, fun sym len val => ?_⟩,
    fun records i j lt clashes first => ?_⟩⟩
  · have fails : codebookFailure s.cbuf = some (eMalformed 1 ((Memory.read s.cbuf 0).setWidth 16)) := by
      rw [codebookFailure_eq, if_neg (by omega)]
    rw [← eMalformed_word 1 0x00000106 (by decide) (setWidth_arg (by omega) _)]
    exact raises_load idle fails
  · have fails : recordFailure s.cbuf k = some (eMalformed 2 (BitVec.ofNat 16 k.val)) := by
      rw [recordFailure_eq, if_neg sym]
    rw [← eMalformed_word 2 0x00000206 (by decide) (setWidth_symbol k)]
    exact raises_load idle (codebookFailure_of_record header before fails)
  · have fails : recordFailure s.cbuf k = some (eMalformed 3 (BitVec.ofNat 16 k.val)) := by
      rw [recordFailure_eq, if_pos sym, if_neg len]
    rw [← eMalformed_word 3 0x00000306 (by decide) (setWidth_symbol k)]
    exact raises_load idle (codebookFailure_of_record header before fails)
  · have fails : recordFailure s.cbuf k = some (eMalformed 4 (BitVec.ofNat 16 k.val)) := by
      rw [recordFailure_eq, if_pos sym, if_pos len, if_neg (by omega)]
    rw [← eMalformed_word 4 0x00000406 (by decide) (setWidth_symbol k)]
    exact raises_load idle (codebookFailure_of_record header before fails)
  · have pair : (BitVec.ofNat 16 (i.val + 256 * j.val)).setWidth 32 = BitVec.ofNat 32 (i.val + 256 * j.val) := by
      apply BitVec.eq_of_toNat_eq
      simp only [BitVec.toNat_setWidth, BitVec.toNat_ofNat]
      omega
    rw [← eMalformed_word 5 0x00000506 (by decide) pair]
    refine raises_load idle ?_
    rw [codebookFailure_of_records header records, pairsFailure_of_clash lt clashes first]

end Sys2Proof.Machine

/-! PROOFS. LOAD of the CBUF that GENCODE wrote. -/

namespace Sys2Proof.Machine

/-! ### A CBUF that holds a codebook (30_encoding.md R107, R108) -/

/-- The fields of CBUF's header and records are PAD and the codes of CB. -/
structure CbufHolds (m : Memory) (pad : BitVec 3) (cb : Codebook) : Prop where
  header : Memory.read m 0 = pad.setWidth 8
  sym : ∀ k : Symbol, Memory.read m (recordBase k) = chr k
  len : ∀ k : Symbol, recordLen m k = cb[k].len.toNat
  val : ∀ k : Symbol, recordVal m k = cb[k].val.toNat

section
variable {m : Memory} {pad : BitVec 3} {cb : Codebook} (holds : CbufHolds m pad cb)
include holds

theorem CbufHolds.loadedCodebook_eq : loadedCodebook m = cb := by
  refine Vector.ext fun i hi => ?_
  have len := holds.len ⟨i, hi⟩
  have val := holds.val ⟨i, hi⟩
  simp only [loadedCodebook, Vector.getElem_ofFn, len, val, BitVec.ofNat_toNat, BitVec.setWidth_eq]
  rfl

theorem CbufHolds.loadedPad_eq : (Memory.read m 0).setWidth 3 = pad := by
  rw [holds.header]
  simp

theorem CbufHolds.cbufValid (valid : cb.valid) : CbufValid m := by
  obtain ⟨range, free⟩ := valid
  refine ⟨?_, fun k => ?_, by rwa [holds.loadedCodebook_eq]⟩
  · rw [holds.header, BitVec.toNat_setWidth]
    omega
  · obtain ⟨pos, short, fits⟩ := range k
    rw [RecordValid, holds.len, holds.val]
    exact ⟨holds.sym k, ⟨pos, short⟩, fits⟩

end

/-- LOAD of a CBUF that holds CB and PAD writes CV and CE alone (44_unpack.md R224). -/
theorem exec_load_of_holds {s : State} (idle : s.mode = .idle) (holds : CbufHolds s.cbuf s.pad s.cb)
    (valid : s.cb.valid) : exec .load s = .next { s with cv := true, ce := false } := by
  rw [exec_load_of_valid idle (holds.cbufValid valid), loaded, holds.loadedCodebook_eq, holds.loadedPad_eq]

/-! ### What GENCODE wrote (42_code_generator.md R186) -/

/-- GENCODE's CBUF holds its codebook. -/
theorem generate_holds {s : State} (wf : Memory.wf s.cbuf = true) :
    CbufHolds (generate s).cbuf (generate s).pad (generate s).cb where
  header := read_generate wf rfl
  sym k := read_generate_record wf k (i := 0) (by omega) rfl
  len k := by
    have byte : Memory.read (generate s).cbuf (recordBase k + 1) = (generate s).cb[k].len.setWidth 8 :=
      read_generate_record wf k (i := 1) (by omega) rfl
    rw [recordLen, byte, BitVec.toNat_setWidth]
    omega
  val k := by
    have bytes : ∀ j < 8, (Memory.read (generate s).cbuf (recordBase k + 2 + j)).toNat =
        (generate s).cb[k].val.toNat / 2 ^ (8 * (8 - 1 - j)) % 256 := by
      intro j hj
      have place : recordBase k + 2 + j = 1 + 10 * k.val + (j + 2) := by
        simp only [recordBase, Config.recordSize]
        omega
      have byte : Memory.read (generate s).cbuf (1 + 10 * k.val + (j + 2)) =
          (generate s).cb[k].val.extractLsb' (56 - 8 * j) 8 :=
        read_generate_record wf k (by omega) (by simp [recordBytes, hj])
      rw [place, byte, toNat_valueByte _ hj]
    rw [recordVal_eq_bigEndian, bigEndian_of_bytes bytes]
    exact Nat.mod_eq_of_lt (BitVec.isLt _)

/-- Settles O26: the CBUF GENCODE leaves holds its codebook, which is valid. -/
theorem loadAfterGencodeReproducesTheCodebook : Obligations.LoadAfterGencodeReproducesTheCodebook := by
  intro s idle tv built wf
  have tree : IsHuffmanTree s.w s.arena := built ▸ buildArena_isHuffmanTree s.w clearedArena
  refine ⟨generate s, exec_gencode_of_isHuffmanTree tree idle tv, ?_⟩
  exact exec_load_of_holds ((generate_mode s).trans idle) (generate_holds wf) (codebookOf_valid tree)

end Sys2Proof.Machine

/-! PROOFS. The walk over a valid codebook is that of a trie. -/

namespace Sys2Proof.Machine

/-! ### Codes and their bits (30_encoding.md R106) -/

/-- The code with the given bits, of which there are at most 64. -/
def Code.ofBits (bits : List Bool) : Code := ⟨BitVec.ofNat 7 bits.length, BitVec.ofNat 64 (bitsValue bits)⟩

theorem Code.bits_ofBits {bits : List Bool} (short : bits.length ≤ 64) : (Code.ofBits bits).bits = bits :=
  code_bits_of_bitsValue short

theorem Code.toNat_len_ofBits {bits : List Bool} (short : bits.length ≤ 64) :
    (Code.ofBits bits).len.toNat = bits.length := by
  rw [← Code.bits_length, Code.bits_ofBits short]

theorem Code.val_ofBits_lt {bits : List Bool} (short : bits.length ≤ 64) :
    (Code.ofBits bits).val.toNat < 2 ^ (Code.ofBits bits).len.toNat := by
  rw [Code.toNat_len_ofBits short, Code.ofBits, BitVec.toNat_ofNat]
  exact (Nat.mod_le _ _).trans_lt (bitsValue_lt bits)

/-- A code whose value fits its length is given by its bits. -/
theorem Code.eq_of_bits_eq {c d : Code} (hc : c.val.toNat < 2 ^ c.len.toNat) (hd : d.val.toNat < 2 ^ d.len.toNat)
    (same : c.bits = d.bits) : c = d := by
  have len : c.len = d.len := BitVec.eq_of_toNat_eq (by simpa using congrArg List.length same)
  have val := (Code.val_of_bits_isPrefix hc hd (same ▸ List.prefix_rfl)).2
  rw [len, Nat.sub_self, Nat.shiftRight_zero] at val
  cases c
  cases d
  simp only [Code.mk.injEq]
  exact ⟨len, (BitVec.eq_of_toNat_eq val).symm⟩

theorem bitsValue_concat (bits : List Bool) (x : Bool) : bitsValue (bits ++ [x]) = bitsValue bits * 2 + x.toNat := by
  induction bits with
  | nil => simp [bitsValue]
  | cons b bits ih =>
    rw [List.cons_append, bitsValue, bitsValue, ih, List.length_append, List.length_singleton, Nat.pow_succ]
    ring

/-! ### Inner positions (44_unpack.md R232) -/

section
variable {cb : Codebook} {p q : List Bool}

theorem InnerPosition.of_isPrefix (inner : InnerPosition cb q) (before : p <+: q) : InnerPosition cb p := by
  obtain ⟨k, within, proper⟩ := inner
  refine ⟨k, before.trans within, ?_⟩
  rintro rfl
  exact proper (within.eq_of_length_le before.length_le)

/-- An inner position has fewer bits than the longest code. -/
theorem InnerPosition.length_lt (inner : InnerPosition cb p) (range : cb.inRange) : p.length < 64 := by
  obtain ⟨k, within, proper⟩ := inner
  have le := within.length_le
  have ne : p.length ≠ cb[k].bits.length := fun same => proper (within.eq_of_length same)
  have short := (range k).2.1
  rw [Code.bits_length] at le ne
  omega

/-- When no code begins another, no code ends within an inner position. -/
theorem InnerPosition.not_code_isPrefix (inner : InnerPosition cb p) (free : cb.prefixFree) (k : Symbol) :
    ¬ cb[k].bits <+: p := by
  obtain ⟨j, within, proper⟩ := inner
  intro ends
  by_cases same : k = j
  · subst same
    exact proper (within.eq_of_length_le ends.length_le)
  · exact free k j same (ends.trans within)

/-- The root is an inner position: every code has a bit. -/
theorem innerPosition_nil (range : cb.inRange) : InnerPosition cb [] := by
  refine ⟨0, List.nil_prefix, fun empty => ?_⟩
  have pos := (range 0).1
  rw [← Code.bits_length, ← empty] at pos
  exact absurd pos (by decide)

/-- One bit further towards a code, that code is complete or goes on. -/
theorem InnerPosition.step (inner : InnerPosition cb p) (free : cb.prefixFree) {k : Symbol} {x : Bool}
    {xs more : List Bool} (towards : p ++ x :: xs = cb[k].bits ++ more) :
    cb[k].bits = p ++ [x] ∨ InnerPosition cb (p ++ [x]) := by
  have code : cb[k].bits <+: p ++ x :: xs := ⟨more, towards.symm⟩
  have bit : p ++ [x] <+: p ++ x :: xs := ⟨xs, by simp⟩
  rcases List.prefix_or_prefix_of_prefix bit code with within | past
  · by_cases complete : cb[k].bits = p ++ [x]
    · exact .inl complete
    · exact .inr ⟨k, within, Ne.symm complete⟩
  · rcases List.prefix_concat_iff.1 past with complete | ends
    · exact .inl complete
    · exact absurd ends (inner.not_code_isPrefix free k)

end

/-! ### What the unpacker looks up at a position (44_unpack.md R228) -/

section
variable {cb : Codebook} {bits : List Bool} (short : bits.length ≤ 64)
include short

theorem symbolOf_ofBits_of_code (valid : cb.valid) {k : Symbol} (code : cb[k].bits = bits) :
    symbolOf cb (Code.ofBits bits) = some k := by
  obtain ⟨range, free⟩ := valid
  refine symbolOf_eq_some.2 ⟨?_, fun j before same => free j k before.ne ?_⟩
  · exact Code.eq_of_bits_eq (range k).2.2 (Code.val_ofBits_lt short) (code.trans (Code.bits_ofBits short).symm)
  · rw [same, code, Code.bits_ofBits short]

theorem symbolOf_ofBits_of_none (noCode : ∀ k : Symbol, cb[k].bits ≠ bits) :
    symbolOf cb (Code.ofBits bits) = none :=
  symbolOf_eq_none.2 fun k same => noCode k (same ▸ Code.bits_ofBits short)

theorem beginsLonger_ofBits (valid : cb.valid) :
    beginsLonger cb (Code.ofBits bits) = true ↔ InnerPosition cb bits := by
  obtain ⟨range, -⟩ := valid
  have len := Code.toNat_len_ofBits short
  rw [beginsLonger_iff]
  constructor
  · rintro ⟨k, longer, begins⟩
    have within := Code.bits_isPrefix_of_val longer.le begins
    rw [Code.bits_ofBits short] at within
    refine ⟨k, within, fun same => ?_⟩
    rw [len, same, Code.bits_length] at longer
    exact lt_irrefl _ longer
  · rintro ⟨k, within, proper⟩
    rw [← Code.bits_ofBits short] at within
    obtain ⟨le, val⟩ := Code.val_of_bits_isPrefix (Code.val_ofBits_lt short) (range k).2.2 within
    refine ⟨k, lt_of_le_of_ne le fun same => proper ?_, by rwa [← Nat.shiftRight_eq_div_pow]⟩
    rw [Code.bits_ofBits short] at within
    exact within.eq_of_length (by rw [Code.bits_length, ← same, len])

end

/-! ### The walk from a position (44_unpack.md R232) -/

/-- The walk is at the position the bits lead to. -/
def State.AtPosition (s : State) (bits : List Bool) : Prop := Code.mk s.curLen s.curVal = Code.ofBits bits

/-- The state after a walk of n bits that pushed the symbols of a text and ended at a position. -/
def State.walked (s : State) (text : List Symbol) (n : Nat) (position : List Bool) : State :=
  { s with ofifo := s.ofifo ++ text.map chr, ocnt := s.ocnt + BitVec.ofNat 32 text.length,
           bitcnt := s.bitcnt + BitVec.ofNat 64 n,
           curLen := BitVec.ofNat 7 position.length, curVal := BitVec.ofNat 64 (bitsValue position) }

@[simp] theorem walked_cb (s : State) (text : List Symbol) (n : Nat) (p : List Bool) : (s.walked text n p).cb = s.cb :=
  rfl

theorem walked_atPosition (s : State) (text : List Symbol) (n : Nat) (p : List Bool) :
    (s.walked text n p).AtPosition p := rfl

theorem walked_walked (s : State) (text text' : List Symbol) (n n' : Nat) (p p' : List Bool) :
    (s.walked text n p).walked text' n' p' = s.walked (text ++ text') (n + n') p' := by
  simp [State.walked, BitVec.ofNat_add, BitVec.add_assoc]

/-- Walking nothing. -/
theorem State.AtPosition.walked_nil {s : State} {p : List Bool} (pos : s.AtPosition p) : s.walked [] 0 p = s := by
  obtain ⟨len, val⟩ := Code.mk.inj pos
  simp [State.walked, ← len, ← val]

theorem State.AtPosition.stepCur {s : State} {p : List Bool} (pos : s.AtPosition p) (x : Bool) :
    (stepCur x s).AtPosition (p ++ [x]) := by
  obtain ⟨len, val⟩ := Code.mk.inj pos
  have bit : (BitVec.ofBool x).setWidth 64 = BitVec.ofNat 64 x.toNat := by cases x <;> rfl
  rw [State.AtPosition, Code.ofBits, stepCur_curLen, stepCur_curVal, len, val, bit, bitsValue_concat,
    List.length_append, List.length_singleton, BitVec.ofNat_add, BitVec.ofNat_add, BitVec.ofNat_mul]
  rfl

section
variable {s : State} {p : List Bool} (valid : s.cb.valid) (pos : s.AtPosition p)
include valid pos

/-- The last bit of a code pushes its symbol and leads back to the root. -/
theorem walkBit_completes (inner : InnerPosition s.cb p) {k : Symbol} {x : Bool} (code : s.cb[k].bits = p ++ [x]) :
    walkBit x s = .going (s.walked [k] 1 []) := by
  have short : (p ++ [x]).length ≤ 64 := by simpa using inner.length_lt valid.1
  rw [walkBit_of_symbol (k := k) (by rw [pos.stepCur x]; exact symbolOf_ofBits_of_code short valid code)]
  rfl

/-- A bit that leads to an inner position goes there. -/
theorem walkBit_goes_on {x : Bool} (longer : InnerPosition s.cb (p ++ [x])) :
    walkBit x s = .going (s.walked [] 1 (p ++ [x])) := by
  have short := (longer.length_lt valid.1).le
  have noCode (k : Symbol) : s.cb[k].bits ≠ p ++ [x] := fun same =>
    longer.not_code_isPrefix valid.2 k (same ▸ List.prefix_rfl)
  rw [walkBit_of_longer (by rw [pos.stepCur x]; exact symbolOf_ofBits_of_none short noCode)
    (by rw [pos.stepCur x]; exact (beginsLonger_ofBits short valid).2 longer), ← (pos.stepCur x).walked_nil]
  simp [State.walked]

/-- A bit that no code goes on with is a dead path. -/
theorem walkBit_dies (inner : InnerPosition s.cb p) (running : s.mode ≠ .error) {x : Bool}
    (dead : ∀ k : Symbol, ¬ p ++ [x] <+: s.cb[k].bits) :
    walkBit x s = .stopped { stepCur x s with
      err := 0x00000606 ||| (stepCur x s).curLen.setWidth 32 <<< 16, mode := .error } := by
  have short : (p ++ [x]).length ≤ 64 := by simpa using inner.length_lt valid.1
  refine walkBit_of_dead ?_ ?_ running <;> rw [pos.stepCur x]
  · exact symbolOf_ofBits_of_none short fun k same => dead k (same ▸ List.prefix_rfl)
  · intro longer
    obtain ⟨k, within, -⟩ := (beginsLonger_ofBits short valid).1 longer
    exact dead k within

end

theorem textBits_nil (cb : Codebook) : textBits cb [] = [] := rfl

/-- From an inner position, bits that complete the codes of a text and end at an inner position push that text. -/
theorem walkBits_text {bits p p' : List Bool} {text : List Symbol} {s : State} (valid : s.cb.valid)
    (pos : s.AtPosition p) (inner : InnerPosition s.cb p) (inner' : InnerPosition s.cb p')
    (spell : p ++ bits = textBits s.cb text ++ p') : walkBits bits s = .going (s.walked text bits.length p') := by
  have free := valid.2
  induction bits generalizing p text s with
  | nil =>
    cases text with
    | nil =>
      obtain rfl : p = p' := by simpa [textBits_nil] using spell
      rw [walkBits_nil, List.length_nil, pos.walked_nil]
    | cons k text =>
      rw [textBits_cons, List.append_nil, List.append_assoc] at spell
      exact absurd ⟨_, spell.symm⟩ (inner.not_code_isPrefix free k)
  | cons x bits ih =>
    by_cases longer : InnerPosition s.cb (p ++ [x])
    · rw [walkBits_cons_of_going (walkBit_goes_on valid pos longer),
        ih (s := s.walked [] 1 (p ++ [x])) valid (walked_atPosition _ _ _ _) longer inner' (by simpa using spell) free,
        walked_walked, List.nil_append, List.length_cons, Nat.add_comm]
    · cases text with
      | nil =>
        have before : p ++ [x] <+: p' := ⟨bits, by simpa [textBits_nil] using spell⟩
        exact absurd (inner'.of_isPrefix before) longer
      | cons k text =>
        rw [textBits_cons, List.append_assoc] at spell
        have code : s.cb[k].bits = p ++ [x] := (inner.step free spell).resolve_right longer
        have rest : bits = textBits s.cb text ++ p' := by
          rw [code] at spell
          simpa using spell
        rw [walkBits_cons_of_going (walkBit_completes valid pos inner code),
          ih (s := s.walked [k] 1 []) valid (walked_atPosition _ _ _ _) (innerPosition_nil valid.1) inner' rest free,
          walked_walked, List.singleton_append, List.length_cons, Nat.add_comm]

theorem atPosition_nil {s : State} (len : s.curLen = 0) (val : s.curVal = 0) : s.AtPosition [] := by
  rw [State.AtPosition, len, val]
  rfl

/-- Settles O36: the walk spells a text and an inner position, and dies where no code goes on. -/
theorem walkIsTheTrieOfTheCodebook : Obligations.WalkIsTheTrieOfTheCodebook := by
  intro s text rest valid running len val inner
  have walk := walkBits_text valid (atPosition_nil len val) (innerPosition_nil valid.1) inner
    (List.nil_append (textBits s.cb text ++ rest))
  refine ⟨⟨_, walk, rfl⟩, fun x more dead => ?_⟩
  have died := walkBit_dies (s := s.walked text (textBits s.cb text ++ rest).length rest) valid
    (walked_atPosition _ _ _ _) inner running dead
  rw [List.append_assoc, walkBits_append_of_going walk, List.singleton_append, walkBits_cons_of_stopped died]
  have curLen : ((BitVec.ofNat 7 rest.length : BitVec 7) + 1).toNat = rest.length + 1 := by
    have short := inner.length_lt valid.1
    bv_omega
  have arg : ((BitVec.ofNat 7 rest.length : BitVec 7) + 1).setWidth 32 = BitVec.ofNat 32 (rest.length + 1) := by
    rw [← curLen, BitVec.ofNat_toNat]
  exact ⟨_, rfl, rfl, congrArg (fun high : Word => 0x00000606 ||| high <<< 16) arg, rfl, curLen⟩

end Sys2Proof.Machine

/-! PROOFS. Unpacking a payload, and the round trips. -/

namespace Sys2Proof.Machine

/-! ### The codes of a text, cut anywhere (30_encoding.md R110) -/

theorem textBits_append (cb : Codebook) (text text' : List Symbol) :
    textBits cb (text ++ text') = textBits cb text ++ textBits cb text' := List.flatMap_append

/-- Bits at the beginning of a text's codes are the codes of its first symbols and an inner position. -/
theorem exists_position_of_isPrefix {cb : Codebook} (range : cb.inRange) {bits : List Bool} {text : List Symbol}
    (before : bits <+: textBits cb text) : ∃ (text₁ text₂ : List Symbol) (p : List Bool),
      text = text₁ ++ text₂ ∧ bits = textBits cb text₁ ++ p ∧ InnerPosition cb p := by
  induction text generalizing bits with
  | nil => exact ⟨[], [], [], rfl, List.prefix_nil.1 before, innerPosition_nil range⟩
  | cons k text ih =>
    rw [textBits_cons] at before
    rcases List.prefix_or_prefix_of_prefix before (List.prefix_append _ _) with within | ⟨more, rfl⟩
    · by_cases complete : bits = cb[k].bits
      · exact ⟨[k], text, [], rfl, by simp [complete, textBits], innerPosition_nil range⟩
      · exact ⟨[], k :: text, bits, rfl, rfl, k, within, complete⟩
    · obtain ⟨text₁, text₂, p, rfl, rfl, inner⟩ := ih ((List.prefix_append_right_inj _).1 before)
      exact ⟨k :: text₁, text₂, p, rfl, by rw [textBits_cons, List.append_assoc], inner⟩

/-! ### Unpacking a whole payload (44_unpack.md R226 to R230) -/

/-- The bits of a payload's bytes, most significant first (30_encoding.md R110). -/
def payloadOf (bytes : List Byte) : List Bool := bytes.flatMap fun b => firstBits b 8

/-- A run of the unpacker with OFIFO drained: the bits walked since the last symbol, those of the byte held and those of
the bytes to come are the codes of the text still to be delivered, and PAD zeros. -/
structure UnpackReady (p : List Bool) (text : List Symbol) (bytes : List Byte) (s : State) : Prop where
  unpack : s.mode = .unpack
  empty : s.ofifo = []
  valid : s.cb.valid
  pos : s.AtPosition p
  inner : InnerPosition s.cb p
  held : s.pendv = true ∨ p = []
  bits : p ++ heldBits s ++ payloadOf bytes = textBits s.cb text ++ List.replicate s.pad.toNat false

theorem firstBits_length (b : Byte) (n : Nat) : (firstBits b n).length = n := by simp [firstBits]

theorem firstBits_isPrefix (b : Byte) {n m : Nat} (le : n ≤ m) : firstBits b n <+: firstBits b m := by
  induction m, le using Nat.le_induction with
  | base => exact List.prefix_rfl
  | succ m _ ih => exact ih.trans ⟨_, (firstBits_succ b m).symm⟩

section
variable {p : List Bool} {text : List Symbol} {s : State}

/-- The bits UNPACK_END walks are those up to the padding. -/
theorem UnpackReady.lastBits_spell (h : UnpackReady p text [] s) :
    (s.pendv = true ∨ s.pad = 0) ∧ p ++ lastBits s = textBits s.cb text := by
  have bits := h.bits
  rw [payloadOf, List.flatMap_nil, List.append_nil] at bits
  cases pendv : s.pendv with
  | true =>
    obtain ⟨padding, cut⟩ := firstBits_isPrefix s.pend (Nat.sub_le 8 s.pad.toNat)
    have size := congrArg List.length cut
    rw [List.length_append, firstBits_length, firstBits_length] at size
    rw [heldBits_of_held pendv, ← cut, ← List.append_assoc] at bits
    rw [lastBits_of_held pendv]
    exact ⟨.inl rfl, List.append_inj_left' bits (by rw [List.length_replicate]; omega)⟩
  | false =>
    have root : p = [] := h.held.resolve_left (by simp [pendv])
    rw [heldBits_of_none pendv, root, List.append_nil, eq_comm, List.append_eq_nil_iff] at bits
    obtain ⟨done, noPad⟩ := bits
    have pad : s.pad.toNat = 0 := by simpa using congrArg List.length noPad
    exact ⟨.inr (BitVec.eq_of_toNat_eq pad), by rw [lastBits_of_none pendv, root, done]; rfl⟩

/-- UNPACK_END delivers what is left of the text. -/
theorem UnpackReady.last (h : UnpackReady p text [] s) : ∃ u, exec .unpackEnd s = .next u ∧ u.mode = .idle ∧
    u.err = s.err ∧ u.ofifo = text.map chr ∧ u.ocnt = s.ocnt + BitVec.ofNat 32 text.length := by
  obtain ⟨ready, spell⟩ := h.lastBits_spell
  have walk := walkBits_text h.valid h.pos h.inner (innerPosition_nil h.valid.1) (by rw [spell, List.append_nil])
  refine ⟨_, exec_unpackEnd_of_ready h.unpack (by simp [h.empty]) ready, ?_⟩
  rw [finishUnpack_of_going walk, closeWalk_of_root rfl]
  exact ⟨rfl, rfl, by simp [State.walked, h.empty], rfl⟩

/-- UNPACK_PUT delivers the symbols the byte held completes. -/
theorem UnpackReady.put {b : Byte} {bytes : List Byte} (h : UnpackReady p text (b :: bytes) s) :
    ∃ (text₁ text₂ : List Symbol) (p' : List Bool) (t : State), text = text₁ ++ text₂ ∧
      exec (.unpackPut (dinValue b)) s = .next t ∧ UnpackReady p' text₂ bytes t.drained ∧
      t.err = s.err ∧ t.ofifo = text₁.map chr ∧ t.ocnt = s.ocnt + BitVec.ofNat 32 text₁.length := by
  have bits : p ++ heldBits s ++ (firstBits b 8 ++ payloadOf bytes) =
      textBits s.cb text ++ List.replicate s.pad.toNat false := h.bits
  have before : p ++ heldBits s <+: textBits s.cb text := by
    have size := congrArg List.length bits
    rw [List.length_append, List.length_append (as := firstBits b 8), firstBits_length,
      List.length_append (as := textBits s.cb text), List.length_replicate] at size
    refine List.prefix_of_prefix_length_le ⟨_, bits⟩ (List.prefix_append _ _) ?_
    have pad := s.pad.isLt
    omega
  obtain ⟨text₁, text₂, p', rfl, spell, inner⟩ := exists_position_of_isPrefix h.valid.1 before
  have walk := walkBits_text h.valid h.pos h.inner inner spell
  refine ⟨text₁, text₂, p', _, rfl, exec_unpackPut_of_unpack h.unpack _, ?_⟩
  rw [unpackByte_of_going (by simp [h.empty]) walk, lowByte_dinValue]
  refine ⟨⟨h.unpack, rfl, h.valid, rfl, inner, .inl rfl, ?_⟩, rfl, by simp [State.walked, h.empty], rfl⟩
  rw [spell, textBits_append, List.append_assoc, List.append_assoc, List.append_cancel_left_eq] at bits
  rw [List.append_assoc]
  exact bits

end

theorem execDrained_unpackPuts {p : List Bool} {text : List Symbol} {bytes : List Byte} {s : State}
    (ready : UnpackReady p text bytes s) :
    ∃ u, execDrained ((bytes.map fun b => .unpackPut (dinValue b)) ++ [.unpackEnd]) s = some (u, text.map chr) ∧
      u.mode = .idle ∧ u.err = s.err ∧ u.ocnt = s.ocnt + BitVec.ofNat 32 text.length := by
  induction bytes generalizing p text s with
  | nil =>
    obtain ⟨u, ended, idle, err, ofifo, ocnt⟩ := ready.last
    have run := execDrained_cons_of_next ended (rfl : execDrained [] _ = some (_, []))
    rw [List.append_nil, ofifo] at run
    exact ⟨u.drained, run, idle, err, ocnt⟩
  | cons b bytes ih =>
    obtain ⟨text₁, text₂, p', t, rfl, put, rest, err, ofifo, ocnt⟩ := ready.put
    obtain ⟨u, run, idle, err', ocnt'⟩ := ih rest
    have run := execDrained_cons_of_next put run
    rw [ofifo, ← List.map_append] at run
    refine ⟨u, run, idle, err'.trans err, ?_⟩
    rw [ocnt', drained_ocnt, ocnt, List.length_append, BitVec.ofNat_add, BitVec.add_assoc]

/-- Unpacking a payload that spells a text in the codes of a valid CB delivers the text (44_unpack.md R231). -/
theorem execDrained_unpackOps {s : State} {text : List Symbol} {bytes : List Byte} (idle : s.mode = .idle)
    (cv : s.cv = true) (valid : s.cb.valid)
    (payload : payloadOf bytes = textBits s.cb text ++ List.replicate s.pad.toNat false) :
    ∃ u, execDrained (unpackOps bytes) s = some (u, text.map chr) ∧ u.mode = .idle ∧ u.err = s.err ∧
      u.ocnt = BitVec.ofNat 32 text.length := by
  have ready : UnpackReady [] text bytes (unpackBegun s).drained :=
    ⟨rfl, rfl, valid, rfl, innerPosition_nil valid.1, .inr rfl, payload⟩
  obtain ⟨u, run, ended, err, ocnt⟩ := execDrained_unpackPuts ready
  exact ⟨u, execDrained_cons_of_next (exec_unpackBegin_of_ready idle cv) run, ended, err,
    ocnt.trans (BitVec.zero_add _)⟩

/-! ### Packing keeps the tables -/

theorem SameTables.trans {s t u : State} (h : SameTables s t) (h' : SameTables t u) : SameTables s u :=
  ⟨h'.wv.trans h.wv, h'.tv.trans h.tv, h'.cv.trans h.cv, h'.ce.trans h.ce, h'.pad.trans h.pad, h'.nsym.trans h.nsym,
    h'.w.trans h.w, h'.cb.trans h.cb, h'.cbuf.trans h.cbuf⟩

theorem packEnded_tables (s : State) : SameTables s (packEnded s) := by
  rw [packEnded_frame]
  exact ⟨rfl, rfl, rfl, rfl, rfl, rfl, rfl, rfl, rfl⟩

theorem packBegun_tables (s : State) : SameTables s (packBegun s) := ⟨rfl, rfl, rfl, rfl, rfl, rfl, rfl, rfl, rfl⟩

theorem SameTables.drained {s t : State} (h : SameTables s t) : SameTables s t.drained :=
  h.trans ⟨rfl, rfl, rfl, rfl, rfl, rfl, rfl, rfl, rfl⟩

theorem execDrained_packPuts_tables {text : List Symbol} {s : State} (ready : PackReady text s) :
    ∃ r, execDrained ((text.map fun k => .packPut (dinValue (chr k))) ++ [.packEnd]) s = some r ∧
      SameTables s r.1 ∧ r.1.ofifo = [] := by
  induction text generalizing s with
  | nil =>
    exact ⟨_, execDrained_cons_of_next ready.last (rfl : execDrained [] _ = some (_, [])),
      (packEnded_tables s).drained, rfl⟩
  | cons k text ih =>
    obtain ⟨r, run, tables, empty⟩ := ih ready.next
    exact ⟨_, execDrained_cons_of_next ready.put run, (packOne_packFrame k s).tables.drained.trans tables, empty⟩

/-! ### The codebook of a text's counts (42_code_generator.md R183) -/

/-- The block is ready to pack a text: W are its counts, and CB, TOTALBITS and PAD those GENCODE makes of W. -/
structure Encodes (text : List Symbol) (s : State) : Prop where
  idle : s.mode = .idle
  cv : s.cv = true
  ce : s.ce = true
  cb : s.cb = codebookOf (buildArena s.w clearedArena)
  totalbits : s.totalbits = BitVec.ofNat 38 (payloadBits s.w (buildArena s.w clearedArena))
  pad : s.pad = padOf s.totalbits
  nsym : s.nsym.toNat = text.length
  counts : ∀ k : Symbol, s.w[k].toNat = text.count k

theorem textBits_length (cb : Codebook) (text : List Symbol) :
    (textBits cb text).length = (text.map fun k => cb[k].len.toNat).sum := by
  simp [textBits, List.length_flatMap]

/-- The bits of a text are those of each symbol, as often as it occurs. -/
theorem textBits_length_eq_sum (cb : Codebook) (text : List Symbol) :
    (textBits cb text).length = (symbols.map fun k => text.count k * cb[k].len.toNat).sum := by
  rw [textBits_length, Finset.sum_list_map_count, symbols, ← Fin.sum_univ_def]
  refine Finset.sum_subset (Finset.subset_univ _) fun k _ absent => ?_
  rw [List.count_eq_zero.2 (by simpa using absent), zero_smul]

section
variable {text : List Symbol} {s : State} (h : Encodes text s)
include h

theorem Encodes.valid : s.cb.valid := by
  rw [h.cb]
  exact codebookOf_valid (buildArena_isHuffmanTree s.w clearedArena)

/-- TOTALBITS counts the bits of the text: fewer than 2^32 codes of at most 64 bits each. -/
theorem Encodes.totalbits_toNat : s.totalbits.toNat = (textBits s.cb text).length := by
  have short (k : Symbol) := (codeLength_bounds (buildArena_isHuffmanTree s.w clearedArena) k).2
  have total : payloadBits s.w (buildArena s.w clearedArena) = (textBits s.cb text).length := by
    rw [payloadBits_eq_codebook_sum _ short, ← h.cb, textBits_length_eq_sum]
    simp only [h.counts]
  have bound : (textBits s.cb text).length ≤ text.length * 64 := by
    rw [textBits_length]
    refine (List.sum_le_card_nsmul _ 64 ?_).trans_eq (by simp)
    intro n mem
    obtain ⟨k, -, rfl⟩ := List.mem_map.1 mem
    exact (h.valid.1 k).2.1
  have few : text.length < 2 ^ 32 := h.nsym ▸ s.nsym.isLt
  rw [h.totalbits, BitVec.toNat_ofNat, total]
  exact Nat.mod_eq_of_lt (by omega)

/-- Packing the text delivers its payload, and keeps the codebook, PAD and CBUF (43_pack.md R207). -/
theorem Encodes.packs : ∃ t bytes, execDrained (packOps text) s = some (t, bytes) ∧
    t.mode = .idle ∧ t.err = s.err ∧
    payloadOf bytes = textBits s.cb text ++ List.replicate s.pad.toNat false ∧ SameTables s t ∧ t.ofifo = [] := by
  obtain ⟨t, bytes, run, idle, err, payload, -, -⟩ := packingDeliversThePayload s text h.idle h.cv h.ce
    (fun k => (h.valid.1 k).2.1) h.nsym h.totalbits_toNat h.pad
  obtain ⟨r, run', tables, empty⟩ := execDrained_packPuts_tables (packReady_packBegun h.nsym h.totalbits_toNat)
  have begun := execDrained_cons_of_next (exec_packBegin_of_ready h.idle h.cv h.ce) run'
  obtain rfl : t = r.1 := congrArg Prod.fst (Option.some.inj (run.symm.trans begun))
  exact ⟨r.1, bytes, run, idle, err, payload, (packBegun_tables s).trans tables, empty⟩

end

/-- Settles O38: the payload packed spells the text in a valid codebook, and unpacking reads it back. -/
theorem unpackOfPackIsTheText : Obligations.UnpackOfPackIsTheText := by
  intro s text idle cv ce cb totalbits pad nsym counts
  have encodes : Encodes text s := ⟨idle, cv, ce, cb, totalbits, pad, nsym, counts⟩
  obtain ⟨t, bytes, packed, ended, err, payload, tables, -⟩ := encodes.packs
  rw [← tables.cb, ← tables.pad] at payload
  obtain ⟨u, unpacked, done, err', ocnt⟩ :=
    execDrained_unpackOps ended (tables.cv.trans cv) (tables.cb ▸ encodes.valid) payload
  exact ⟨t, u, bytes, packed, unpacked, done, err'.trans err, ocnt⟩

/-! ### Counting a text and making its codebook (95_test_vectors.md X3) -/

/-- An operation that leaves OFIFO empty delivers nothing. -/
theorem execDrained_cons_of_silent {i : Instr} {s t : State} (ran : exec i s = .next t) (silent : t.ofifo = [])
    (is : List Instr) : execDrained (i :: is) s = execDrained is t := by
  have same : { t with ofifo := [] } = t := by rw [← silent]
  simp [execDrained, ran, same, silent]

/-- Counting symbols writes W, NSYM and DINCNT. -/
theorem countAll_frame (text : List Symbol) (s : State) : countAll text s =
    { s with w := (countAll text s).w, nsym := (countAll text s).nsym, dincnt := (countAll text s).dincnt } := by
  induction text generalizing s with
  | nil => rfl
  | cons k text ih =>
    rw [countAll_cons, ih]
    rfl

theorem execDrained_cntPuts {text : List Symbol} {s : State} (count : s.mode = .count) (empty : s.ofifo = [])
    (room : s.nsym.toNat + text.length < 2 ^ 32) (is : List Instr) :
    execDrained ((text.map fun k => .cntPut (dinValue (chr k))) ++ is) s = execDrained is (countAll text s) := by
  induction text generalizing s with
  | nil => rfl
  | cons k text ih =>
    rw [List.length_cons] at room
    have notFull : s.nsym ≠ 0xFFFFFFFF := by bv_omega
    have grown : (s.nsym + 1).toNat = s.nsym.toNat + 1 := by bv_omega
    have put : exec (.cntPut (dinValue (chr k))) s = .next (countOne k s) := by
      rw [exec_cntPut_of_count count, lowByte_dinValue, countByte_of_room (idx_chr k) notFull]
    rw [List.map_cons, List.cons_append, execDrained_cons_of_silent put empty, countAll_cons]
    exact ih count empty (by rw [countOne_nsym, grown]; omega)

/-- A text has been counted from s, in IDLE: W and NSYM are its counts, no tree stands, and CBUF, OFIFO and ERR are
those before. -/
structure Counted (text : List Symbol) (s t : State) : Prop where
  idle : t.mode = .idle
  wv : t.wv = true
  arena : t.arena = clearedArena
  nsym : t.nsym.toNat = text.length
  counts : ∀ k : Symbol, t.w[k].toNat = text.count k
  cbuf : t.cbuf = s.cbuf
  ofifo : t.ofifo = s.ofifo
  err : t.err = s.err

/-- The state CNT_END leaves. -/
def countEnded (s : State) : State := { s with wv := true, mode := .idle }

theorem counted_countAll (s : State) {text : List Symbol} (few : text.length < 2 ^ 32) :
    Counted text s (countEnded (countAll text (countBegun s))) := by
  have nsym := countAll_nsym text (countBegun s)
  have w := countAll_w text (countBegun s)
  have frame := countAll_frame text (countBegun s)
  generalize countAll text (countBegun s) = c at nsym w frame
  refine ⟨rfl, rfl, ?arena, ?nsym, fun k => ?counts, ?cbuf, ?ofifo, ?err⟩
  case nsym => rw [countEnded, nsym, countBegun_nsym, toNat_zero_add_ofNat few]
  case counts => rw [countEnded, w k, countBegun_w, toNat_zero_add_ofNat (List.count_le_length.trans_lt few)]
  all_goals
    rw [countEnded, frame]
    rfl

/-- Counting a text succeeds and delivers nothing. -/
theorem exists_counted {text : List Symbol} {s : State} (idle : s.mode = .idle) (empty : s.ofifo = [])
    (few : text.length < 2 ^ 32) :
    ∃ t, Counted text s t ∧ ∀ is, execDrained (countOps text ++ is) s = execDrained is t := by
  have counted := counted_countAll s few
  refine ⟨_, counted, fun is => ?_⟩
  have ended : exec .cntEnd (countAll text (countBegun s)) = .next (countEnded (countAll text (countBegun s))) :=
    (cntEndValidatesTheCount.2 _).2.2 (countAll_mode _ _)
  have ops : countOps text ++ is =
      .cntBegin :: ((text.map fun k => .cntPut (dinValue (chr k))) ++ .cntEnd :: is) := by simp [countOps]
  rw [ops, execDrained_cons_of_silent (exec_cntBegin_of_idle idle) empty,
    execDrained_cntPuts (s := countBegun s) rfl empty (by simpa using few),
    execDrained_cons_of_silent ended (counted.ofifo.trans empty)]

/-- The state BUILD leaves. -/
def treeBuilt (s : State) : State := { s with arena := buildArena s.w s.arena, tv := true }

/-- With a text counted, BUILD and GENCODE succeed, deliver nothing, and leave the block ready to pack the text. -/
theorem Counted.encodes {text : List Symbol} {s t : State} (h : Counted text s t) (empty : t.ofifo = []) :
    Encodes text (generate (treeBuilt t)) ∧
      ∀ is, execDrained (.build :: .gencode :: is) t = execDrained is (generate (treeBuilt t)) := by
  have built : (treeBuilt t).arena = buildArena t.w clearedArena := by rw [← h.arena]; rfl
  refine ⟨⟨h.idle, rfl, rfl, ?_, ?_, generate_pad _, h.nsym, h.counts⟩, fun is => ?_⟩
  · exact congrArg codebookOf built
  · exact congrArg (fun arena => BitVec.ofNat 38 (payloadBits t.w arena)) built
  · have build : exec .build t = .next (treeBuilt t) := exec_build_of_ready h.idle h.wv
    have gencode : exec .gencode (treeBuilt t) = .next (generate (treeBuilt t)) :=
      exec_gencode_of_isHuffmanTree (buildArena_isHuffmanTree t.w t.arena) h.idle rfl
    rw [execDrained_cons_of_silent build empty, execDrained_cons_of_silent gencode empty]

/-- Counting a text, BUILD and GENCODE leave a block ready to pack the text, its codebook in CBUF. -/
theorem exists_encoded {text : List Symbol} {s : State} (idle : s.mode = .idle) (empty : s.ofifo = [])
    (wf : Memory.wf s.cbuf = true) (few : text.length < 2 ^ 32) :
    ∃ e, Encodes text e ∧ CbufHolds e.cbuf e.pad e.cb ∧ e.err = s.err ∧
      ∀ is, execDrained (countOps text ++ [.build, .gencode] ++ is) s = execDrained is e := by
  obtain ⟨t, counted, count⟩ := exists_counted idle empty few
  obtain ⟨encodes, encode⟩ := counted.encodes (counted.ofifo.trans empty)
  have kept : Memory.wf (treeBuilt t).cbuf = true := (congrArg Memory.wf counted.cbuf).trans wf
  refine ⟨generate (treeBuilt t), encodes, generate_holds kept, counted.err, fun is => ?_⟩
  rw [List.append_assoc, count, ← encode]
  rfl

/-- Settles O39: the codebook of the text's counts packs it, is in CBUF for LOAD, and unpacks the payload. -/
theorem decodeOfEncodeIsTheText : Obligations.DecodeOfEncodeIsTheText := by
  intro s text idle empty wf few
  obtain ⟨e, encodes, holds, err₀, encode⟩ := exists_encoded idle empty wf few
  obtain ⟨t, bytes, packed, ended, err, payload, tables, silent⟩ := encodes.packs
  have holds : CbufHolds t.cbuf t.pad t.cb := by
    rw [tables.cbuf, tables.pad, tables.cb]
    exact holds
  have valid : t.cb.valid := tables.cb ▸ encodes.valid
  rw [← tables.cb, ← tables.pad] at payload
  obtain ⟨u, unpacked, done, err', -⟩ :=
    execDrained_unpackOps (s := { t with cv := true, ce := false }) ended rfl valid payload
  refine ⟨t, u, bytes, (encode _).trans packed, ?_, done, err'.trans (err.trans err₀)⟩
  rw [execDrained_cons_of_silent (exec_load_of_holds ended holds valid) silent]
  exact unpacked

end Sys2Proof.Machine

/-! PROOFS. What a CMD write can be and what it does in ERROR; NOP, SRST and TEARDOWN. -/

namespace Sys2Proof

/-- A CMD word that is accepted is the word of a row of 30_encoding.md R101, in full. -/
theorem decodeCommand_eq_ok {v : Word} {i : Instr} (decoded : decodeCommand v = .ok i) :
    i ∈ commandMap.map Prod.snd ∧ encode i = commandWrite v := by
  by_cases assigned : opcodeField v ∈ commandMap.map Prod.fst
  · obtain ⟨j, row⟩ := exists_row_of_mem_keys assigned
    rw [decodeCommand_assigned row] at decoded
    split at decoded
    · next rsvd =>
      obtain rfl := Decoded.ok.inj decoded
      refine ⟨List.mem_map_of_mem row, ?_⟩
      rw [(encode_commandMap _ row).2, setWidth_opcodeField rsvd]
    · nomatch decoded
  · rw [decodeCommand_unassigned assigned] at decoded
    nomatch decoded

/-- Only the exact word 0x00000001 is SRST (45_control.md R251). -/
theorem decodeCommand_eq_srst_iff {v : Word} : decodeCommand v = .ok .srst ↔ v = 0x00000001 := by
  refine ⟨fun decoded => ?_, fun word => ?_⟩
  · exact (Transaction.write.inj (decodeCommand_eq_ok decoded).2).2.symm
  · rw [word]
    exact decode_encode_command (i := .srst) (by decide) .idle

end Sys2Proof

namespace Sys2Proof.Machine

/-! ### A transaction taken, by what it decodes to (46_bus_access.md R265, 45_control.md R255) -/

theorem step_of_bus {s : State} {t : Transaction} {rest : List Event} (high : s.rstN = true)
    (oldest : s.pending = .bus t :: rest) : step s = runTransaction t (s.take rest) := by
  simp only [step, oldest, if_pos high]

theorem runTransaction_of_ok {t : Transaction} {s : State} {i : Instr} (decoded : decode s.mode t = .ok i) :
    runTransaction t s = exec i s := by
  simp only [runTransaction, decoded]

theorem runTransaction_of_rejected {t : Transaction} {s : State} {r : DecodeReject}
    (decoded : decode s.mode t = .rejected r) : runTransaction t s = .next (badCommand r s) := by
  simp only [runTransaction, decoded]

theorem badCommand_of_error {s : State} (error : s.mode = .error) (r : DecodeReject) : badCommand r s = s :=
  if_pos error

theorem badCommand_of_running {s : State} (running : s.mode ≠ .error) (r : DecodeReject) :
    badCommand r s =
      { s with err := errWord (rejectError r).code (rejectError r).sub (rejectError r).arg, mode := .error } := by
  rw [badCommand, if_neg running, raise_of_running _ running]

/-! ### NOP (45_control.md R250) -/

theorem exec_nop (s : State) : exec .nop s = .next s := rfl

/-- NOP's OPCODE with RSVD not 0 is no command. -/
theorem decodeCommand_of_nop_reserved {v : Word} (opcode : opcodeField v = 0x00) (notNop : v ≠ 0x00000000) :
    decodeCommand v = .rejected (.reservedBits 0x00) := by
  have row : (opcodeField v, Instr.nop) ∈ commandMap := opcode ▸ by decide
  have rsvd : rsvdField v ≠ 0 := fun zero => notNop (by rw [← setWidth_opcodeField zero, opcode]; rfl)
  rw [decodeCommand_assigned row, if_neg rsvd, opcode]

/-- Settles O10: NOP is the identity, and what separates another word of its OPCODE from it is RSVD. -/
theorem nopHasNoEffect : Obligations.NopHasNoEffect := by
  refine ⟨decode_encode_command (i := .nop) (by decide), exec_nop, fun s v opcode notNop running => ?_⟩
  have decoded : decode s.mode (.write 0x004 v) = .rejected (.reservedBits 0x00) :=
    (decodeWrite_cmd rfl s.mode v).trans (decodeCommand_of_nop_reserved opcode notNop)
  rw [runTransaction_of_rejected decoded, badCommand_of_running running]
  rfl

/-! ### SRST (45_control.md R251) -/

theorem exec_srst (s : State) : exec .srst s = .next s.clearAll := rfl

theorem clearAll_hasResetValues (s : State) : HasResetValues s.clearAll := by
  constructor <;> simp [State.reset, Node.cleared]

/-- Settles O11: SRST is `State.clearAll`, and no other word has SRST's row with RSVD 0. -/
theorem srstRestoresResetState : Obligations.SrstRestoresResetState := by
  refine ⟨fun s => ⟨s.clearAll, exec_srst s, clearAll_hasResetValues s, rfl, rfl, rfl⟩, fun m v => ?_⟩
  have decoded : decode m (.write 0x004 v) = decodeCommand v := decodeWrite_cmd rfl m v
  rw [decoded, decodeCommand_eq_srst_iff]

/-! ### TEARDOWN (45_control.md R252) -/

theorem exec_teardown (s : State) :
    exec .teardown s = command s (teardownFailure s) { s with arena := clearedArena, tv := false } := rfl

theorem teardownFailure_of_mode {s : State} (notIdle : s.mode ≠ .idle) : teardownFailure s = some (eSeq 1 0x21) :=
  firstFailure_modeCheck_fail notIdle _ _

theorem teardownFailure_of_idle {s : State} (idle : s.mode = .idle) :
    teardownFailure s = if s.tv then none else some (eSeq 3 0x21) :=
  firstFailure_modeCheck_pass idle _ _

theorem exec_teardown_of_ready {s : State} (idle : s.mode = .idle) (tv : s.tv = true) :
    exec .teardown s = .next { s with arena := clearedArena, tv := false } := by
  rw [exec_teardown]
  exact command_of_pass (by simp [idle]) (by rw [teardownFailure_of_idle idle, if_pos tv]) _

theorem clearedArena_get (n : Slot) : clearedArena[n] = Node.cleared := by
  simp [clearedArena]

/-- Settles O12: MODE, then TV, and every slot of the arena left is the cleared one. -/
theorem teardownClearsTheArena : Obligations.TeardownClearsTheArena := by
  refine ⟨decode_encode_command (i := .teardown) (by decide), fun s => ?_⟩
  unfold Raises
  refine ⟨fun error => ?_, fun busy => ?_, fun idle noTv => ?_, fun idle tv => ?_⟩
  · exact command_of_error error _ _
  · obtain ⟨running, notIdle⟩ := not_idle_of_busy busy
    exact command_of_failure running (teardownFailure_of_mode notIdle) _
  · have fails : teardownFailure s = some (eSeq 3 0x21) := by
      rw [teardownFailure_of_idle idle, if_neg (by simp [noTv])]
    exact command_of_failure (by simp [idle]) fails _
  · refine ⟨_, exec_teardown_of_ready idle tv, rfl, fun n => ?_⟩
    rw [clearedArena_get]
    exact ⟨rfl, rfl, rfl, rfl, rfl⟩

/-! ### Commands in ERROR (45_control.md R256) -/

/-- In ERROR every command but SRST is ignored. -/
theorem exec_command_of_error {i : Instr} {s : State} (row : i ∈ commandMap.map Prod.snd) (notSrst : i ≠ .srst)
    (error : s.mode = .error) : exec i s = .next s := by
  cases i with
  | nop => exact exec_nop s
  | srst => exact absurd rfl notSrst
  | cntBegin | cntEnd | build | teardown | gencode | packBegin | packEnd | load | unpackBegin | unpackEnd =>
    exact command_of_error error _ _
  | cntPut | packPut | unpackPut | putIdle | putErr | get | rdreg | cbrd | cbwr | wrign | rdzero =>
    simp [commandMap] at row

/-- Settles O8: a CMD word is rejected, which ERROR ignores, or is a command, which ERROR ignores unless it is SRST. -/
theorem errorModeIgnoresAllCommandsButReset : Obligations.ErrorModeIgnoresAllCommandsButReset := by
  intro s off v rest high oldest cmd error
  have decoded : decode (s.take rest).mode (.write off v) = decodeCommand v := decodeWrite_cmd cmd _ v
  have error : (s.take rest).mode = .error := error
  rw [step_of_bus high oldest]
  refine ⟨fun other => ?_, fun srst => ?_⟩
  · cases answer : decodeCommand v with
    | rejected r =>
      rw [runTransaction_of_rejected (decoded.trans answer), badCommand_of_error error]
      rfl
    | ok i =>
      have notSrst : i ≠ .srst := fun h => other (decodeCommand_eq_srst_iff.1 (h ▸ answer))
      rw [runTransaction_of_ok (decoded.trans answer)]
      exact exec_command_of_error (decodeCommand_eq_ok answer).1 notSrst error
  · rw [runTransaction_of_ok (decoded.trans (decodeCommand_eq_srst_iff.2 srst))]
    exact ⟨_, exec_srst _, clearAll_hasResetValues _, high, rfl, rfl⟩

end Sys2Proof.Machine

/-! PROOFS. The operation each offset of the port stands for, and its transaction back; bus accesses. -/

namespace Sys2Proof

/-! ### Where a word offset lies (20_memory.md R71 to R74) -/

/-- A write is to CMD, to DIN, into CBUF, or to an offset whose write is ignored. -/
theorem byteOffset_write_cases (a : WordIndex) :
    byteOffset a = 0x004 ∨ byteOffset a = 0x010 ∨ (∃ i ≤ 650, byteOffset a = 0x1000 + 4 * i) ∨
      (readOnly (byteOffset a) || unmapped (byteOffset a)) = true := by
  have word : byteOffset a = 4 * a.toNat := rfl
  by_cases window : 0x1000 ≤ byteOffset a ∧ byteOffset a ≤ 0x1A28
  · exact .inr (.inr (.inl ⟨a.toNat - 0x400, by omega, by omega⟩))
  · have inPort := a.isLt
    simp only [readOnly, unmapped, Bool.or_eq_true, Bool.and_eq_true, beq_iff_eq, decide_eq_true_eq]
    omega

/-- Below the first unmapped offset a read is of DOUT, of a register of 20_memory.md R71, or of CMD or DIN. -/
theorem byteOffset_read_cases_low : ∀ k < 16, 4 * k = 0x014 ∨
    (∃ r ∈ registerMap.map Prod.snd, r.wf = true ∧ 4 * k = r.offset) ∨ writeOnly (4 * k) = true := by decide

/-- A read is of DOUT, of a register or weight, of CBUF, or of an offset where there is nothing to read. -/
theorem byteOffset_read_cases (a : WordIndex) :
    byteOffset a = 0x014 ∨ (∃ r : Reg, r.wf = true ∧ byteOffset a = r.offset) ∨
      (∃ i ≤ 650, byteOffset a = 0x1000 + 4 * i) ∨ (writeOnly (byteOffset a) || unmapped (byteOffset a)) = true := by
  have word : byteOffset a = 4 * a.toNat := rfl
  by_cases low : a.toNat < 16
  · obtain dout | ⟨r, -, wf, register⟩ | zero := byteOffset_read_cases_low a.toNat low
    · exact .inl dout
    · exact .inr (.inl ⟨r, wf, register⟩)
    · exact .inr (.inr (.inr (Bool.or_eq_true_iff.2 (.inl zero))))
  by_cases weight : 0x100 ≤ byteOffset a ∧ byteOffset a ≤ 0x200
  · have inWindow : a.toNat - 0x40 ≤ 64 := by omega
    exact .inr (.inl ⟨.weight (a.toNat - 0x40), decide_eq_true inWindow, by rw [Reg.offset]; omega⟩)
  -- What is left lies above DBG and outside the weight window, where reads and writes divide alike.
  obtain cmd | din | cbuf | ignored := byteOffset_write_cases a
  · omega
  · omega
  · exact .inr (.inr (.inl cbuf))
  · simp only [readOnly, unmapped, Bool.or_eq_true, Bool.and_eq_true, beq_iff_eq, decide_eq_true_eq] at ignored
    simp only [unmapped, Bool.or_eq_true, Bool.and_eq_true, decide_eq_true_eq]
    omega

/-! ### The transaction of an operation that was decoded -/

theorem wf_of_mem_commandMap {i : Instr} (command : i ∈ commandMap.map Prod.snd) : i.wf = true := by
  obtain ⟨row, mem, rfl⟩ := List.mem_map.1 command
  exact (encode_commandMap row mem).1

theorem selectedIn_of_mem_commandMap {i : Instr} (command : i ∈ commandMap.map Prod.snd) (m : Mode) :
    i.selectedIn m = true := by
  cases i with
  | cntPut | packPut | unpackPut | putIdle | putErr => simp [commandMap] at command
  | _ => rfl

theorem dinOperation_wf_selectedIn (m : Mode) (v : Word) :
    (dinOperation m v).wf = true ∧ (dinOperation m v).selectedIn m = true := by
  cases m <;> exact ⟨rfl, rfl⟩

theorem encode_of_decodeWrite {m : Mode} {a : WordIndex} {v : Word} {i : Instr} (decoded : decodeWrite m a v = .ok i) :
    i.wf = true ∧ i.selectedIn m = true ∧ encode i = .write (BitVec.ofNat 13 (byteOffset a)) v := by
  obtain cmd | din | ⟨j, inCbuf, cbuf⟩ | ignored := byteOffset_write_cases a
  · obtain ⟨command, encoded⟩ := decodeCommand_eq_ok ((decodeWrite_cmd cmd m v).symm.trans decoded)
    exact ⟨wf_of_mem_commandMap command, selectedIn_of_mem_commandMap command m, by rw [encoded, cmd]; rfl⟩
  · obtain rfl := Decoded.ok.inj ((decodeWrite_din din m v).symm.trans decoded)
    obtain ⟨wf, selected⟩ := dinOperation_wf_selectedIn m v
    exact ⟨wf, selected, by rw [encode_dinOperation, din]; rfl⟩
  · obtain rfl := Decoded.ok.inj ((decodeWrite_cbuf cbuf inCbuf m v).symm.trans decoded)
    exact ⟨decide_eq_true inCbuf, rfl, by rw [encode, cbuf]⟩
  · obtain rfl := Decoded.ok.inj ((decodeWrite_ignored ignored m v).symm.trans decoded)
    exact ⟨ignored, rfl, rfl⟩

theorem encode_of_decodeRead {a : WordIndex} {i : Instr} (decoded : decodeRead a = .ok i) (m : Mode) :
    i.wf = true ∧ i.selectedIn m = true ∧ encode i = .read (BitVec.ofNat 13 (byteOffset a)) := by
  obtain dout | ⟨r, wf, register⟩ | ⟨j, inCbuf, cbuf⟩ | zero := byteOffset_read_cases a
  · obtain rfl := Decoded.ok.inj ((decodeRead_dout dout).symm.trans decoded)
    exact ⟨rfl, rfl, by rw [encode, dout]; rfl⟩
  · obtain rfl := Decoded.ok.inj ((decodeRead_register register wf).symm.trans decoded)
    exact ⟨wf, rfl, by rw [encode, register]⟩
  · obtain rfl := Decoded.ok.inj ((decodeRead_cbuf cbuf inCbuf).symm.trans decoded)
    exact ⟨decide_eq_true inCbuf, rfl, by rw [encode, cbuf]⟩
  · obtain rfl := Decoded.ok.inj ((decodeRead_zero zero).symm.trans decoded)
    exact ⟨zero, rfl, rfl⟩

/-- Settles O2: the branch of the decoder that answers is that of the operation's own offset. -/
theorem encodeOfDecodeIsTheTransaction : Obligations.EncodeOfDecodeIsTheTransaction := by
  intro m t i decoded
  cases t with
  | read off => exact encode_of_decodeRead decoded m
  | write off v => exact encode_of_decodeWrite decoded

end Sys2Proof

namespace Sys2Proof.Machine

/-! ### Steps and DIN writes (46_bus_access.md R265, R267) -/

/-- Settles O5: the three branches of `step` that take no edge of rst_n. -/
theorem stepRunsTheDecodedOperation : Obligations.StepRunsTheDecodedOperation := by
  refine ⟨fun s t rest i high oldest decoded => ?_, fun s t rest low oldest => ?_, fun s empty => ?_⟩
  · rw [step_of_bus high oldest]
    exact runTransaction_of_ok decoded
  · simp only [step, oldest, low, Bool.false_eq_true, if_false, State.take]
  · simp only [step, empty]

theorem runTransaction_din {off : Offset} (din : byteOffset (wordIndex off) = 0x010) (v : Word) (s : State) :
    runTransaction (.write off v) s = exec (dinOperation s.mode v) s :=
  runTransaction_of_ok (decodeWrite_din din s.mode v)

theorem raises_putIdle {s : State} (idle : s.mode = .idle) (v : Word) : Raises (.putIdle v) s 0x01000102 := by
  have running : s.mode ≠ .error := by simp [idle]
  calc exec (.putIdle v) s = .next (refuseIdlePut s) := if_pos idle
    _ = _ := by rw [refuseIdlePut, raise_of_running _ running]; rfl

/-- Settles O40: DIN's offset is decoded by MODE alone, and IDLE and ERROR have no run to write to. -/
theorem dinWriteIsTheOperationOfTheMode : Obligations.DinWriteIsTheOperationOfTheMode := by
  intro s off v din
  rw [runTransaction_din din]
  refine ⟨fun idle => ⟨?_, raises_putIdle idle v⟩, fun error => ⟨?_, if_pos error⟩, fun count => ?_, fun pack => ?_,
    fun unpack => ?_⟩
  · rw [idle]; rfl
  · rw [error]; rfl
  · rw [count]; rfl
  · rw [pack]; rfl
  · rw [unpack]; rfl

/-! ### GET, CBRD and CBWR, and accesses with no effect (46_bus_access.md R268, R270 to R273) -/

theorem exec_get_of_empty {s : State} (empty : s.ofifo = []) : exec .get s = .next (s.answer 0) := by
  simp only [exec, execGet, empty]

theorem exec_get_of_cons {s : State} {b : Byte} {rest : List Byte} (head : s.ofifo = b :: rest) :
    exec .get s = .next ({ s with ofifo := rest }.answer (doutWord b)) := by
  simp only [exec, execGet, head]

/-- Settles O42: OFIFO is empty or has a head. -/
theorem getPopsTheHead : Obligations.GetPopsTheHead :=
  fun _ => ⟨exec_get_of_empty, fun _ _ => exec_get_of_cons⟩

theorem exec_cbwr {i : Nat} (inCbuf : i ≤ 650) (v : Word) (s : State) :
    exec (.cbwr i v) s = .next { s with cbuf := Memory.write s.cbuf i (lowByte v) } :=
  if_pos (Nat.lt_succ_of_le inCbuf)

/-- Settles O43: CBWR is one `Memory.write`, which the byte reads back and the other bytes do not see. -/
theorem cbufReadsWhatWasWritten : Obligations.CbufReadsWhatWasWritten := by
  intro s i v inCbuf
  refine ⟨exec_cbrd i s, _, exec_cbwr inCbuf v s, rfl, fun a other => ?_, fun wf => ⟨?_, ?_⟩⟩
  · exact Memory.read_write_other _ other
  · exact Memory.wf_write wf i _
  · exact Memory.read_write_same wf i _

theorem exec_wrign (a : WordIndex) (v : Word) (s : State) : exec (.wrign a v) s = .next s := rfl

/-- Settles O44: WRIGN is the identity, and RDZERO only answers. -/
theorem ignoredAccessesChangeNothing : Obligations.IgnoredAccessesChangeNothing :=
  fun s a v => ⟨exec_wrign a v s, exec_rdzero a s⟩

/-! ### Fields of a word (10_state.md R23, R61) -/

/-- A field of a register's word: x with its lowest bit at bit k. -/
def wordField {n : Nat} (k : Nat) (x : BitVec n) : Word := x.setWidth 32 <<< k

section Fields

variable {n k i w : Nat} (x : BitVec n)

theorem getLsbD_wordField :
    (wordField k x).getLsbD i = (decide (i < 32) && decide (k ≤ i) && x.getLsbD (i - k)) := by
  by_cases inWord : i < 32
  · have shifted : i - k < 32 := by omega
    simp only [wordField, BitVec.getLsbD_shiftLeft, BitVec.getLsbD_setWidth, inWord, shifted, ← decide_not, not_lt,
      decide_true, Bool.true_and]
  · simp [inWord, BitVec.getLsbD_of_ge _ _ (not_lt.1 inWord)]

@[simp] theorem getElem_wordField (inWord : i < 32) :
    (wordField k x)[i] = (decide (k ≤ i) && x.getLsbD (i - k)) := by
  rw [← BitVec.getLsbD_eq_getElem, getLsbD_wordField, decide_eq_true inWord, Bool.true_and]

theorem extractLsb'_wordField_at (fits : k + w ≤ 32) : (wordField k x).extractLsb' k w = x.setWidth w := by
  ext j hj
  have inWord : k + j < 32 := by omega
  simp [inWord]

theorem extractLsb'_wordField_above (above : k + n ≤ i) : (wordField k x).extractLsb' i w = 0 := by
  ext j hj
  have outside : n ≤ i + j - k := by omega
  simp [getLsbD_wordField, outside]

theorem extractLsb'_wordField_below (below : i + w ≤ k) : (wordField k x).extractLsb' i w = 0 := by
  ext j hj
  have outside : i + j < k := by omega
  simp [getLsbD_wordField, outside]

end Fields

theorem modeBits_eq_wordField (m : Mode) : modeBits m = wordField 0 ((modeBits m).setWidth 3) := by
  cases m <;> rfl

/-- STATUS, as its fields (10_state.md R23). -/
theorem statusWord_eq_fields (s : State) : s.statusWord =
    wordField 0 ((modeBits s.mode).setWidth 3) ||| wordField 3 (.ofBool s.wv) ||| wordField 4 (.ofBool s.tv) |||
      wordField 5 (.ofBool s.cv) ||| wordField 6 (.ofBool s.ce) ||| wordField 7 (.ofBool s.errF) |||
      wordField 8 (.ofBool s.inReady) ||| wordField 9 (.ofBool s.outAvail) |||
      wordField 16 (.ofNat 32 s.ofifo.length) := by
  rw [← modeBits_eq_wordField]
  simp only [wordField, BitVec.setWidth_eq]
  rfl

/-- DBG, as its fields (10_state.md R61). -/
theorem dbgWord_eq_fields (s : State) : s.dbgWord =
    wordField 0 s.curLen ||| wordField 8 s.accn ||| wordField 11 (.ofBool s.pendv) ||| wordField 16 s.acc |||
      wordField 24 s.pend := by
  simp only [wordField, BitVec.shiftLeft_zero]
  rfl

/-! ### RDREG (46_bus_access.md R266) -/

theorem exec_rdreg_of_eq {s : State} {r : Reg} {x : Word} (value : s.readReg r = x) :
    exec (.rdreg r) s = .next (s.answer x) := by
  rw [exec_rdreg, value]

theorem readReg_weight (s : State) (k : Symbol) : s.readReg (.weight k.val) = s.w[k] := by
  simp [State.readReg, Vector.getD]

theorem totalbits_eq_halves (s : State) :
    s.totalbits.toNat = (s.readReg .tbitsLo).toNat + 2 ^ 32 * (s.readReg .tbitsHi).toNat := by
  simp only [State.readReg, BitVec.extractLsb'_toNat, BitVec.toNat_setWidth, Nat.shiftRight_eq_div_pow]
  omega

theorem bitcnt_eq_halves (s : State) :
    s.bitcnt.toNat = (s.readReg .bitcntLo).toNat + 2 ^ 32 * (s.readReg .bitcntHi).toNat := by
  simp only [State.readReg, BitVec.extractLsb'_toNat, Nat.shiftRight_eq_div_pow]
  omega

theorem statusWord_bits (s : State) :
    s.statusWord.getLsbD 3 = s.wv ∧ s.statusWord.getLsbD 4 = s.tv ∧ s.statusWord.getLsbD 5 = s.cv ∧
      s.statusWord.getLsbD 6 = s.ce ∧ s.statusWord.getLsbD 7 = s.errF ∧ s.statusWord.getLsbD 8 = s.inReady ∧
      s.statusWord.getLsbD 9 = s.outAvail := by
  simp [statusWord_eq_fields]

theorem statusWord_slices (s : State) :
    s.statusWord.extractLsb' 0 3 = (modeBits s.mode).setWidth 3 ∧ s.statusWord.extractLsb' 10 6 = 0 ∧
      s.statusWord.extractLsb' 16 16 = BitVec.ofNat 16 s.ofifo.length := by
  simp [statusWord_eq_fields, BitVec.extractLsb'_or, extractLsb'_wordField_at, extractLsb'_wordField_above,
    extractLsb'_wordField_below]

theorem dbgWord_bit_reserved (s : State) : s.dbgWord.getLsbD 7 = false := by
  simp [dbgWord_eq_fields]

/-- ACCN's field is three bits wide: with a fourth bit it would reach PENDV's. -/
theorem dbgWord_bit_pendv {s : State} (fits : s.accn.toNat < 8) : s.dbgWord.getLsbD 11 = s.pendv := by
  have top : s.accn[3] = false := Nat.testBit_eq_false_of_lt fits
  simp [dbgWord_eq_fields, top]

theorem dbgWord_slices (s : State) :
    s.dbgWord.extractLsb' 0 7 = s.curLen ∧ s.dbgWord.extractLsb' 8 3 = s.accn.setWidth 3 ∧
      s.dbgWord.extractLsb' 12 4 = 0 ∧ s.dbgWord.extractLsb' 16 8 = s.acc ∧ s.dbgWord.extractLsb' 24 8 = s.pend := by
  simp [dbgWord_eq_fields, BitVec.extractLsb'_or, extractLsb'_wordField_at, extractLsb'_wordField_above,
    extractLsb'_wordField_below]

theorem inReady_eq (s : State) : s.inReady = decide (s.ofifo.length ≤ 8) :=
  Bool.eq_iff_iff.2 ((inReady_iff s).trans decide_eq_true_iff.symm)

theorem outAvail_eq (s : State) : s.outAvail = decide (s.ofifo ≠ []) := by
  simp [State.outAvail, List.length_pos_iff]

theorem errF_eq (s : State) : s.errF = decide (s.mode = .error) := rfl

/-- Settles O41: RDREG only answers, and STATUS and DBG are read off field by field. -/
theorem rdregReturnsTheRegister : Obligations.RdregReturnsTheRegister := by
  intro s
  refine ⟨exec_rdreg .id s, exec_rdreg .err s, exec_rdreg .pad s, exec_rdreg .nsym s, exec_rdreg .dincnt s,
    exec_rdreg .ocnt s, exec_rdreg .pnsym s, fun k => exec_rdreg_of_eq (readReg_weight s k),
    ⟨_, _, exec_rdreg .tbitsLo s, exec_rdreg .tbitsHi s, totalbits_eq_halves s⟩,
    ⟨_, _, exec_rdreg .bitcntLo s, exec_rdreg .bitcntHi s, bitcnt_eq_halves s⟩,
    ⟨_, exec_rdreg .status s, ?_⟩, ⟨_, exec_rdreg .dbg s, ?_⟩⟩
  · obtain ⟨wv, tv, cv, ce, errF, inReady, outAvail⟩ := statusWord_bits s
    obtain ⟨mode, reserved, level⟩ := statusWord_slices s
    refine ⟨mode.trans ?_, wv, tv, cv, ce, errF.trans (errF_eq s), inReady.trans (inReady_eq s),
      outAvail.trans (outAvail_eq s), reserved, level⟩
    cases s.mode <;> rfl
  · obtain ⟨curLen, accn, reserved, acc, pend⟩ := dbgWord_slices s
    exact ⟨curLen, dbgWord_bit_reserved s, fun fits => ⟨accn, dbgWord_bit_pendv fits⟩, reserved, acc, pend⟩

end Sys2Proof.Machine

/-! PROOFS. Errors: the words of E_BADCMD, the errors that come after an effect, what ends ERROR, and that every step
answers. -/

namespace Sys2Proof.Machine

/-! ### Every operation answers a next state (60_exceptions.md R299, 20_memory.md R74, R80) -/

theorem exec_next (i : Instr) (s : State) : ∃ t, exec i s = .next t := by
  cases i with
  | cntBegin | cntEnd | build | teardown | gencode | packBegin | packEnd | load | unpackBegin | unpackEnd =>
    exact command_next s _ _
  | cntPut v => exact ⟨_, exec_of_din s (.inl rfl)⟩
  | packPut v => exact ⟨_, exec_of_din s (.inr (.inl rfl))⟩
  | unpackPut v => exact ⟨_, exec_of_din s (.inr (.inr (.inl rfl)))⟩
  | putIdle v => exact ⟨_, exec_of_din s (.inr (.inr (.inr (.inl rfl))))⟩
  | putErr v => exact ⟨_, exec_of_din s (.inr (.inr (.inr (.inr rfl))))⟩
  | get =>
    cases fifo : s.ofifo with
    | nil => exact ⟨_, exec_get_of_empty fifo⟩
    | cons b rest => exact ⟨_, exec_get_of_cons fifo⟩
  | cbwr a v =>
    by_cases inCbuf : a < Config.cbufSize
    · exact ⟨_, if_pos inCbuf⟩
    · exact ⟨_, if_neg inCbuf⟩
  | nop | srst | rdreg | cbrd | wrign | rdzero => exact ⟨_, rfl⟩

theorem runTransaction_next (t : Transaction) (s : State) : ∃ u, runTransaction t s = .next u := by
  cases decoded : decode s.mode t with
  | ok i => rw [runTransaction_of_ok decoded]; exact exec_next i s
  | rejected r => exact ⟨_, runTransaction_of_rejected decoded⟩

/-- Settles O6: a transaction that is taken runs an operation or the error of a bad command, and both answer. -/
theorem everyStepAnswersNext : Obligations.EveryStepAnswersNext := by
  intro s
  unfold step
  split
  · exact ⟨_, rfl⟩
  · exact ⟨_, rfl⟩
  · exact ⟨_, rfl⟩
  · split
    · exact runTransaction_next _ _
    · exact ⟨_, rfl⟩

/-! ### A CMD word that is no command (60_exceptions.md R291) -/

/-- The word of E_BADCMD: ARG is the OPCODE (60_exceptions.md R291, 10_state.md R31). -/
theorem eBadCmd_word (sub : BitVec 8) (op : Byte) :
    errWord (eBadCmd sub op).code (eBadCmd sub op).sub (eBadCmd sub op).arg =
      0x01 ||| sub.setWidth 32 <<< 8 ||| op.setWidth 32 <<< 16 := by
  rw [← setWidth_arg (by omega) op]
  rfl

/-- Settles O7: both rejections of the decoder raise E_BADCMD with the OPCODE they carry. -/
theorem badCommandWordRaisesBadCmd : Obligations.BadCommandWordRaisesBadCmd := by
  intro s off v rest high oldest cmd running op assigned
  obtain ⟨unassigned, reserved, -⟩ := commandWordIsDecodedOpcodeFirst s.mode off v cmd
  have raises {r : DecodeReject} (decoded : decode s.mode (.write off v) = .rejected r) : step s =
      .next { s.take rest with
        err := errWord (rejectError r).code (rejectError r).sub (rejectError r).arg, mode := .error } := by
    rw [step_of_bus high oldest, runTransaction_of_rejected (s := s.take rest) decoded,
      badCommand_of_running (s := s.take rest) running]
  refine ⟨fun notAssigned => ?_, fun isAssigned rsvd => ?_⟩
  · rw [raises (unassigned notAssigned), rejectError, eBadCmd_word]
    rfl
  · rw [raises (reserved isAssigned rsvd), rejectError, eBadCmd_word]
    rfl

/-! ### What ends ERROR (60_exceptions.md R305) -/

/-- A transaction read as SRST is the write of 0x00000001 to CMD. -/
theorem eq_write_of_decode_srst {m : Mode} {t : Transaction} (decoded : decode m t = .ok .srst) :
    ∃ off, t = .write off 0x00000001 ∧ byteOffset (wordIndex off) = 0x004 := by
  obtain ⟨-, -, encoded⟩ := encodeOfDecodeIsTheTransaction m t .srst decoded
  cases t with
  | read off => cases encoded
  | write off v =>
    obtain ⟨offset, rfl⟩ := Transaction.write.inj encoded
    refine ⟨off, rfl, ?_⟩
    rw [← wordIndex_ofNat_byteOffset (wordIndex off), ← offset]
    rfl

/-- Of the effects ERROR allows only those of bus accesses, which leave MODE and ERR. -/
theorem effect_of_error {i : Instr} {s t : State} (error : s.mode = .error) (he : Effect i s t) :
    t.mode = .error ∧ t.err = s.err := by
  cases he with
  | popped | stored => exact ⟨error, rfl⟩
  | cntBegin mode | cntEnd mode | build mode | teardown mode | gencode mode | packBegin mode | packEnd mode
  | load mode | unpackBegin mode | unpackEnd mode | counted _ mode | packed _ mode | unpacked _ mode =>
    cases error.symm.trans mode

/-- In ERROR an operation other than SRST leaves MODE and ERR. -/
theorem ran_of_error {i : Instr} {s t : State} (error : s.mode = .error) (h : Ran i s t) :
    (t.mode = .error ∧ t.err = s.err) ∨ (i = .srst ∧ HasResetValues t) := by
  cases h with
  | ignored => exact .inl ⟨error, rfl⟩
  | answered => exact .inl ⟨error, rfl⟩
  | raised _ running => exact absurd error running
  | cleared srst => exact .inr ⟨srst, clearAll_hasResetValues s⟩
  | effect he => exact .inl (effect_of_error error he)

theorem runTransaction_of_error {tr : Transaction} {s t : State} (error : s.mode = .error)
    (h : runTransaction tr s = .next t) :
    (t.mode = .error ∧ t.err = s.err) ∨
      (HasResetValues t ∧ ∃ off, tr = .write off 0x00000001 ∧ byteOffset (wordIndex off) = 0x004) := by
  cases decoded : decode s.mode tr with
  | ok i =>
    rw [runTransaction_of_ok decoded] at h
    obtain kept | ⟨rfl, reset⟩ := ran_of_error error (exec_ran h)
    · exact .inl kept
    · exact .inr ⟨reset, eq_write_of_decode_srst decoded⟩
  | rejected r =>
    rw [runTransaction_of_rejected decoded, badCommand_of_error error] at h
    obtain rfl := Host.Outcome.next.inj h
    exact .inl ⟨error, rfl⟩

/-- rst_n going high resets the block, or was high already and changes nothing (70_reset_and_hazards.md R330). -/
theorem resetRise_cases (s : State) : s.resetRise = s ∨ HasResetValues s.resetRise := by
  unfold State.resetRise
  split
  · exact .inl rfl
  · exact .inr (clearAll_hasResetValues { s with rstN := true })

/-- Settles O48: of the events only an SRST taken and a rising edge of rst_n write MODE or ERR in ERROR. -/
theorem errorStaysUntilReset : Obligations.ErrorStaysUntilReset := by
  intro s t error h
  unfold step at h
  split at h
  · obtain rfl := Host.Outcome.next.inj h
    exact .inl ⟨error, rfl⟩
  · obtain rfl := Host.Outcome.next.inj h
    exact .inl ⟨error, rfl⟩
  · next rest rise =>
    obtain rfl := Host.Outcome.next.inj h
    obtain same | reset := resetRise_cases (s.take rest)
    · rw [same]
      exact .inl ⟨error, rfl⟩
    · exact .inr ⟨reset, .inr ⟨rest, rise⟩⟩
  · next tr rest taken =>
    split at h
    · obtain kept | ⟨reset, off, rfl, cmd⟩ := runTransaction_of_error (s := s.take rest) error h
      · exact .inl kept
      · exact .inr ⟨reset, .inl ⟨off, rest, taken, cmd⟩⟩
    · obtain rfl := Host.Outcome.next.inj h
      exact .inl ⟨error, rfl⟩

/-! ### Errors that come after an effect (60_exceptions.md R300) -/

/-- ERR's low half is CODE and SUB (10_state.md R31). -/
theorem errWord_low (code sub : BitVec 8) (arg : BitVec 16) :
    (errWord code sub arg).extractLsb' 0 16 = code.setWidth 16 ||| sub.setWidth 16 <<< 8 := by
  ext i inLow
  have inWord : i < 32 := by omega
  simp [errWord, inLow, inWord]

/-- ERR holds DEAD_PATH or INCOMPLETE, E_MALFORMED sub 6 or sub 7 (60_exceptions.md R296). -/
def WalkFailed (s : State) : Prop := s.err.extractLsb' 0 16 = 0x0606 ∨ s.err.extractLsb' 0 16 = 0x0706

theorem walkFailed_of_deadPath {s : State} (running : s.mode ≠ .error) (arg : BitVec 16) :
    WalkFailed (raise (eMalformed 6 arg) s) := by
  rw [raise_of_running _ running]
  exact .inl (errWord_low 0x06 6 arg)

theorem walkFailed_of_incomplete {s : State} (running : s.mode ≠ .error) (arg : BitVec 16) :
    WalkFailed (raise (eMalformed 7 arg) s) := by
  rw [raise_of_running _ running]
  exact .inr (errWord_low 0x06 7 arg)

/-- What stops a walk is DEAD_PATH (44_unpack.md R228). -/
theorem walkFailed_of_stopped {xs : List Bool} {s t : State} (running : s.mode ≠ .error)
    (stopped : walkBits xs s = .stopped t) : WalkFailed t := by
  induction xs generalizing s with
  | nil => cases stopped
  | cons x xs ih =>
    rw [walkBits_cons] at stopped
    rcases walkBit_cases x s with ⟨k, -, hw⟩ | ⟨-, -, hw⟩ | ⟨-, -, hw⟩ <;> rw [hw] at stopped
    · exact ih (s := { (stepCur x s).push (chr k) with curLen := 0, curVal := 0 }) running stopped
    · exact ih (s := stepCur x s) running stopped
    · obtain rfl := Walk.stopped.inj stopped
      exact walkFailed_of_deadPath (s := stepCur x s) running _

theorem walkFailed_unpackByte {b : Byte} {s : State} (space : s.ofifo.length ≤ 8) (running : s.mode ≠ .error)
    (entered : (unpackByte b s).mode = .error) : WalkFailed (unpackByte b s) := by
  rcases unpackByte_cases b space with stopped | ⟨t, going, h⟩
  · exact walkFailed_of_stopped running stopped
  · rw [h] at entered
    exact absurd (((walkBits_mode _ s).1 t going).1.symm.trans entered) running

theorem walkFailed_closeWalk {s : State} (running : s.mode ≠ .error) (entered : (closeWalk s).mode = .error) :
    WalkFailed (closeWalk s) := by
  rcases closeWalk_cases s with ⟨-, h⟩ | ⟨-, h⟩ <;> rw [h] at entered ⊢
  · exact walkFailed_of_incomplete running _
  · cases entered

theorem walkFailed_finishUnpack {s : State} (running : s.mode ≠ .error) (entered : (finishUnpack s).mode = .error) :
    WalkFailed (finishUnpack s) := by
  rcases finishUnpack_cases s with stopped | ⟨t, going, h⟩
  · exact walkFailed_of_stopped running stopped
  · have still : t.mode = s.mode := ((walkBits_mode _ s).1 t going).1
    rw [h] at entered ⊢
    exact walkFailed_closeWalk (still ▸ running) entered

/-- An operation whose checks have passed enters ERROR only where its walk fails. -/
theorem effect_enters_error {i : Instr} {s t : State} (he : Effect i s t) (running : s.mode ≠ .error)
    (entered : t.mode = .error) : WalkFailed t := by
  cases he with
  | unpackEnd => exact walkFailed_finishUnpack running entered
  | unpacked _ _ space => exact walkFailed_unpackByte space running entered
  | packed =>
    rw [packOne_frame] at entered
    exact absurd entered running
  | cntBegin | cntEnd | packBegin | packEnd | unpackBegin => cases entered
  | build | teardown | gencode | load | counted | popped | stored => exact absurd entered running

/-- Settles O50: a check's error writes ERR and MODE alone, and an effect raises no error but those excluded. -/
theorem failedChecksChangeOnlyErrAndMode : Obligations.FailedChecksChangeOnlyErrAndMode := by
  intro i s t h running entered notDeadPath notIncomplete
  cases exec_ran h with
  | ignored => exact absurd entered running
  | answered => exact absurd entered running
  | raised => rw [raise_of_running _ running]
  | cleared => cases entered
  | effect he => exact ((effect_enters_error he running entered).elim notDeadPath notIncomplete).elim

end Sys2Proof.Machine

/-! PROOFS. The reset line: a low period of rst_n, from its falling edge to its rising edge. -/

namespace Sys2Proof.Machine

/-! ### Runs, one step at a time -/

theorem core_run_succ {M : Host.Core} {s t : M.State} (stepped : M.step s = .next t) (k : Nat) :
    M.run (k + 1) s = M.run k t := by
  rw [Host.Core.run, stepped]

theorem run_succ_of_next {s t : State} (stepped : step s = .next t) (k : Nat) :
    Host.Core.run core (k + 1) s = Host.Core.run core k t :=
  core_run_succ (M := core) (s := s) (t := t) stepped k

/-! ### Events at the port around a low period (70_reset_and_hazards.md R330) -/

theorem step_of_resetFall {s : State} {rest : List Event} (oldest : s.pending = .resetFall :: rest) :
    step s = .next (s.take rest).resetFall := by
  simp only [step, oldest]

theorem step_of_resetRise {s : State} {rest : List Event} (oldest : s.pending = .resetRise :: rest) :
    step s = .next (s.take rest).resetRise := by
  simp only [step, oldest]

theorem step_of_bus_low {s : State} {t : Transaction} {rest : List Event} (low : s.rstN = false)
    (oldest : s.pending = .bus t :: rest) : step s = .next (s.take rest) := by
  obtain ⟨-, ignored, -⟩ := stepRunsTheDecodedOperation
  exact ignored s t rest low oldest

theorem resetRise_of_low {s : State} (low : s.rstN = false) :
    s.resetRise = ({ s with rstN := true } : State).clearAll :=
  if_neg (by simp [low])

/-- While rst_n is low transactions are only taken from the port. -/
theorem run_ignores_transactions {s : State} {ts : List Transaction} {later : List Event} (low : s.rstN = false)
    (presented : s.pending = ts.map Event.bus ++ later) (k : Nat) :
    Host.Core.run core (ts.length + k) s = Host.Core.run core k (s.take later) := by
  induction ts generalizing s with
  | nil =>
    have same : s.take later = s := by rw [State.take, ← show s.pending = later from presented]
    rw [same, List.length_nil, Nat.zero_add]
  | cons t ts ih =>
    have ignored : step s = .next (s.take (ts.map Event.bus ++ later)) := step_of_bus_low low presented
    rw [List.length_cons, Nat.add_right_comm]
    exact (run_succ_of_next ignored _).trans (ih (s := s.take (ts.map Event.bus ++ later)) low rfl)

/-- A low period ends in the state its rising edge clears. -/
theorem run_until_resetRise {s : State} {ts : List Transaction} {rest : List Event} (low : s.rstN = false)
    (presented : s.pending = ts.map Event.bus ++ .resetRise :: rest) :
    Host.Core.run core (ts.length + 1) s = .next ({ s with rstN := true, pending := rest } : State).clearAll := by
  have risen : step (s.take (.resetRise :: rest)) =
      .next ({ s with rstN := true, pending := rest } : State).clearAll :=
    (step_of_resetRise rfl).trans (congrArg _ (resetRise_of_low low))
  rw [run_ignores_transactions low presented]
  exact run_succ_of_next risen 0

/-! ### What the reset values read as (10_state.md R23, R62) -/

theorem HasResetValues.readReg_status {s : State} (reset : HasResetValues s) : s.readReg .status = 0x00000100 := by
  obtain ⟨wv, tv, cv, ce⟩ := reset.flags
  have fields : s.readReg .status = State.reset.readReg .status := by
    simp only [State.readReg, State.statusWord, State.errF, State.inReady, State.outAvail, State.free,
      reset.mode, reset.ofifo, wv, tv, cv, ce]
    rfl
  exact fields.trans (by decide)

/-- Settles O9: after the falling edge every transaction is ignored, and the rising edge clears the state it meets. -/
theorem resetLineRestoresResetState : Obligations.ResetLineRestoresResetState := by
  intro s ts rest presented
  have reset := clearAll_hasResetValues { s with rstN := true, pending := rest }
  refine ⟨_, ?_, reset, rfl, rfl, rfl, reset.readReg_status, rfl⟩
  exact (run_succ_of_next (step_of_resetFall presented) _).trans (run_until_resetRise rfl rfl)

end Sys2Proof.Machine
